-- ==== Sys2Proof/Word.lean ====
section
/-! DEFINITION. The bus word and the names of the operand registers and modulus slots (00_scope.md R8, R10, R11; 10_state.md R32, R35). -/

namespace Sys2Proof

/-- A 32-bit bus word, which a command is too (R10, R100). Bit 0 is the least significant (R11). -/
abbrev Word := BitVec 32

/-- The number of an operand register `R0` to `R15`: `NREG = 16` (R8, R32). -/
abbrev Reg := Fin 16

/-- The two modulus slots (R35): `MOD[0]`, the field prime, and `MOD[1]`, the group order. -/
inductive Slot where
  | p
  | n
deriving DecidableEq, Repr

end Sys2Proof
end

