-- ==== Sys2Proof/Syntax.lean ====
section
/-! DEFINITION. The commands of the EAU, one constructor per row of the opcode table (30_encoding.md R104). -/

namespace Sys2Proof

/-- A decoded command word. Operands stand in the order of R108: `rd`, `ra`, `rb`; `ms` is the modulus
slot of the field and Montgomery commands (R102). A point operand is named by its base register (R33). -/
inductive Instr where
  /-- R131 -/
  | nop
  /-- R132 -/
  | mov (rd ra : Reg)
  /-- R133 -/
  | cmp (ra rb : Reg)
  /-- R134 -/
  | modset (ms : Slot) (ra : Reg)
  /-- R135 -/
  | seta (ra : Reg)
  /-- R151 -/
  | modadd (ms : Slot) (rd ra rb : Reg)
  /-- R152 -/
  | modsub (ms : Slot) (rd ra rb : Reg)
  /-- R153 -/
  | modmul (ms : Slot) (rd ra rb : Reg)
  /-- R154: `ra` is the high half, `rb` the low half, `neg` the S bit. -/
  | modred (ms : Slot) (neg : Bool) (rd ra rb : Reg)
  /-- R155 -/
  | modinv (ms : Slot) (rd ra : Reg)
  /-- R171 -/
  | montmul (ms : Slot) (rd ra rb : Reg)
  /-- R172 -/
  | tomont (ms : Slot) (rd ra : Reg)
  /-- R173 -/
  | frommont (ms : Slot) (rd ra : Reg)
  /-- R185 -/
  | padda (rd ra rb : Reg)
  /-- R186 -/
  | pdbla (rd ra : Reg)
  /-- R211: `ra` is the scalar register, `rb` the point base. -/
  | pmula (rd ra rb : Reg)
  /-- R187 -/
  | paddj (rd ra rb : Reg)
  /-- R188 -/
  | pdblj (rd ra : Reg)
  /-- R212: `ra` is the scalar register, `rb` the point base. -/
  | pmulj (rd ra rb : Reg)
  /-- R189 -/
  | a2j (rd ra : Reg)
  /-- R190 -/
  | j2a (rd ra : Reg)
deriving DecidableEq, Repr

end Sys2Proof
end

