-- ==== Sys2Proof/WellFormed.lean ====
section
/-! DEFINITION. The checks on a command's operands (10_state.md R33; 30_encoding.md R101). -/

namespace Sys2Proof

/-- An affine point base (R33, R101): 0 to 14. -/
def Reg.affineBase (r : Reg) : Bool := decide (r.val ≤ 14)

/-- A Jacobian point base (R33, R101): 0 to 13. -/
def Reg.jacobianBase (r : Reg) : Bool := decide (r.val ≤ 13)

/-- The operands lie in their classes (R101, R104). -/
def Instr.wf : Instr → Bool
  | .nop => true
  | .mov _ _ => true
  | .cmp _ _ => true
  | .modset _ _ => true
  | .seta _ => true
  | .modadd _ _ _ _ => true
  | .modsub _ _ _ _ => true
  | .modmul _ _ _ _ => true
  | .modred _ _ _ _ _ => true
  | .modinv _ _ _ => true
  | .montmul _ _ _ _ => true
  | .tomont _ _ _ => true
  | .frommont _ _ _ => true
  | .padda rd ra rb => rd.affineBase && ra.affineBase && rb.affineBase
  | .pdbla rd ra => rd.affineBase && ra.affineBase
  | .pmula rd _ rb => rd.affineBase && rb.affineBase
  | .paddj rd ra rb => rd.jacobianBase && ra.jacobianBase && rb.jacobianBase
  | .pdblj rd ra => rd.jacobianBase && ra.jacobianBase
  | .pmulj rd _ rb => rd.jacobianBase && rb.jacobianBase
  | .a2j rd ra => rd.jacobianBase && ra.affineBase
  | .j2a rd ra => rd.affineBase && ra.jacobianBase

end Sys2Proof
end

