-- ==== Sys2Proof/Decode.lean ====
section
/-! DEFINITION. Decoding and encoding of command words (30_encoding.md R100 to R107), the command errors
(60_exceptions.md R221), the pseudo-instructions (R109) and the assembler text (R108). -/

namespace Sys2Proof

/-- The command errors (R221). The decoder rejects a word by the first two; the other three are raised by
a command's own checks (R105). -/
inductive CmdError where
  /-- Code 1: the opcode is not in R104's table. -/
  | illegalOpcode
  /-- Code 2: a reserved or unused field is not zero, a point base is out of range, or MS or S is set where it may not be. -/
  | illegalOperand
  /-- Code 3: the slot the command uses is not valid. -/
  | modInvalid
  /-- Code 4: the modulus given to MODSET is 0. -/
  | divZero
  /-- Code 5: the modulus of a Montgomery command is even. -/
  | badMod
deriving DecidableEq, Repr

/-- The code written to STATUS.ERRCODE (R221). -/
def CmdError.code : CmdError → BitVec 4
  | .illegalOpcode => 1#4
  | .illegalOperand => 2#4
  | .modInvalid => 3#4
  | .divZero => 4#4
  | .badMod => 5#4

/-! ### The fields of format C (R100) -/

def fieldOpc (c : Word) : BitVec 8 := c.extractLsb' 24 8
def fieldMs (c : Word) : Bool := c.getLsbD 23
def fieldS (c : Word) : Bool := c.getLsbD 22
def fieldRsv1 (c : Word) : BitVec 6 := c.extractLsb' 16 6
def fieldRd (c : Word) : Reg := (c.extractLsb' 12 4).toFin
def fieldRa (c : Word) : Reg := (c.extractLsb' 8 4).toFin
def fieldRb (c : Word) : Reg := (c.extractLsb' 4 4).toFin
def fieldRsv0 (c : Word) : BitVec 4 := c.extractLsb' 0 4

/-- `ms = 0` is slot P, `ms = 1` slot N (R102). -/
def slotOfBit (b : Bool) : Slot := if b then .n else .p

/-- The bit that names a slot (R102). -/
def Slot.bit : Slot → Bool
  | .p => false
  | .n => true

/-- The class an opcode gives an operand field (R101). -/
inductive FieldClass where
  | unused
  | reg
  | abase
  | jbase
deriving DecidableEq, Repr

/-- Which register numbers a class admits (R101). -/
def FieldClass.admits : FieldClass → Reg → Bool
  | .unused, f => decide (f.val = 0)
  | .reg, _ => true
  | .abase, f => f.affineBase
  | .jbase, f => f.jacobianBase

/-- One row of R104's table applied to a word: the checks of R105 that end in ILLEGAL_OPERAND, in R105's order. -/
def checked (c : Word) (rd ra rb : FieldClass) (msAllowed sAllowed : Bool) (i : Instr) : Except CmdError Instr :=
  if fieldRsv1 c ≠ 0#6 ∨ fieldRsv0 c ≠ 0#4 then .error .illegalOperand
  else if !(rd.admits (fieldRd c) && ra.admits (fieldRa c) && rb.admits (fieldRb c)) then .error .illegalOperand
  else if fieldMs c && !msAllowed then .error .illegalOperand
  else if fieldS c && !sAllowed then .error .illegalOperand
  else .ok i

/-- The decoder, total on words (R105, R106): the rows of R104, and ILLEGAL_OPCODE for every other opcode. -/
def decode (c : Word) : Except CmdError Instr :=
  let ms := slotOfBit (fieldMs c)
  let rd := fieldRd c
  let ra := fieldRa c
  let rb := fieldRb c
  match (fieldOpc c).toNat with
  | 0x00 => checked c .unused .unused .unused false false .nop
  | 0x01 => checked c .reg .reg .unused false false (.mov rd ra)
  | 0x02 => checked c .unused .reg .reg false false (.cmp ra rb)
  | 0x08 => checked c .unused .reg .unused true false (.modset ms ra)
  | 0x09 => checked c .unused .reg .unused false false (.seta ra)
  | 0x10 => checked c .reg .reg .reg true false (.modadd ms rd ra rb)
  | 0x11 => checked c .reg .reg .reg true false (.modsub ms rd ra rb)
  | 0x12 => checked c .reg .reg .reg true false (.modmul ms rd ra rb)
  | 0x13 => checked c .reg .reg .reg true true (.modred ms (fieldS c) rd ra rb)
  | 0x14 => checked c .reg .reg .unused true false (.modinv ms rd ra)
  | 0x18 => checked c .reg .reg .reg true false (.montmul ms rd ra rb)
  | 0x19 => checked c .reg .reg .unused true false (.tomont ms rd ra)
  | 0x1A => checked c .reg .reg .unused true false (.frommont ms rd ra)
  | 0x20 => checked c .abase .abase .abase false false (.padda rd ra rb)
  | 0x21 => checked c .abase .abase .unused false false (.pdbla rd ra)
  | 0x22 => checked c .abase .reg .abase false false (.pmula rd ra rb)
  | 0x28 => checked c .jbase .jbase .jbase false false (.paddj rd ra rb)
  | 0x29 => checked c .jbase .jbase .unused false false (.pdblj rd ra)
  | 0x2A => checked c .jbase .reg .jbase false false (.pmulj rd ra rb)
  | 0x30 => checked c .jbase .abase .unused false false (.a2j rd ra)
  | 0x31 => checked c .abase .jbase .unused false false (.j2a rd ra)
  | _ => .error .illegalOpcode

/-- The word of an instruction whose `nbits` bits are `w`, the bits above being 0: a command is one word,
written to CMD as it stands, so no byte order enters (R100, R107). -/
def tableWord (nbits w : Nat) : Word := BitVec.ofNat 32 (w % 2 ^ min nbits 32)

/-- What the decoder reads from a row's word (none where it refuses). -/
def decodeTableWord (nbits w : Nat) : Option Instr :=
  match decode (tableWord nbits w) with
  | .ok i => some i
  | .error _ => none

/-! ### The encoder -/

/-- A field of a word: `b` with its bit 0 at bit `lo`, zeros around it (R11). -/
def place {n : Nat} (lo : Nat) (b : BitVec n) : Word := b.setWidth 32 <<< lo

/-- A command word `{OPC, MS, S, RSV1, RD, RA, RB, RSV0}` with its reserved fields 0 (R100). -/
def pack (opc : BitVec 8) (ms s : Bool) (rd ra rb : Reg) : Word :=
  place 24 opc ||| place 23 (BitVec.ofBool ms) ||| place 22 (BitVec.ofBool s) ||| place 12 (BitVec.ofNat 4 rd.val)
    ||| place 8 (BitVec.ofNat 4 ra.val) ||| place 4 (BitVec.ofNat 4 rb.val)

/-- The word of a command (R104): unused fields are 0. -/
def encode : Instr → Word
  | .nop => pack 0x00 false false 0 0 0
  | .mov rd ra => pack 0x01 false false rd ra 0
  | .cmp ra rb => pack 0x02 false false 0 ra rb
  | .modset ms ra => pack 0x08 ms.bit false 0 ra 0
  | .seta ra => pack 0x09 false false 0 ra 0
  | .modadd ms rd ra rb => pack 0x10 ms.bit false rd ra rb
  | .modsub ms rd ra rb => pack 0x11 ms.bit false rd ra rb
  | .modmul ms rd ra rb => pack 0x12 ms.bit false rd ra rb
  | .modred ms neg rd ra rb => pack 0x13 ms.bit neg rd ra rb
  | .modinv ms rd ra => pack 0x14 ms.bit false rd ra 0
  | .montmul ms rd ra rb => pack 0x18 ms.bit false rd ra rb
  | .tomont ms rd ra => pack 0x19 ms.bit false rd ra 0
  | .frommont ms rd ra => pack 0x1A ms.bit false rd ra 0
  | .padda rd ra rb => pack 0x20 false false rd ra rb
  | .pdbla rd ra => pack 0x21 false false rd ra 0
  | .pmula rd ra rb => pack 0x22 false false rd ra rb
  | .paddj rd ra rb => pack 0x28 false false rd ra rb
  | .pdblj rd ra => pack 0x29 false false rd ra 0
  | .pmulj rd ra rb => pack 0x2A false false rd ra rb
  | .a2j rd ra => pack 0x30 false false rd ra 0
  | .j2a rd ra => pack 0x31 false false rd ra 0

/-! ### Pseudo-instructions (R109): each expands to exactly one command -/

def pseudoModsqr (ms : Slot) (rd ra : Reg) : Instr := .modmul ms rd ra ra
def pseudoMontsqr (ms : Slot) (rd ra : Reg) : Instr := .montmul ms rd ra ra
/-- The host has written 0 to `rz`. -/
def pseudoModneg (ms : Slot) (rd ra rz : Reg) : Instr := .modsub ms rd rz ra
/-- The host has written 0 to `rz`. -/
def pseudoModrdc (ms : Slot) (rd ra rz : Reg) : Instr := .modadd ms rd ra rz

/-! ### Assembler text (R108) -/

def asmReg (r : Reg) : String := "r" ++ toString r.val
def asmSlot : Slot → String
  | .p => ".p"
  | .n => ".n"
def asm2 (m : String) (a b : Reg) : String := m ++ " " ++ asmReg a ++ ", " ++ asmReg b
def asm3 (m : String) (a b c : Reg) : String := asm2 m a b ++ ", " ++ asmReg c

/-- The text of a command, operands in the order `rd, ra, rb` with unused fields omitted (R108). -/
def Instr.asm : Instr → String
  | .nop => "NOP"
  | .mov rd ra => asm2 "MOV" rd ra
  | .cmp ra rb => asm2 "CMP" ra rb
  | .modset ms ra => "MODSET" ++ asmSlot ms ++ " " ++ asmReg ra
  | .seta ra => "SETA " ++ asmReg ra
  | .modadd ms rd ra rb => asm3 ("MODADD" ++ asmSlot ms) rd ra rb
  | .modsub ms rd ra rb => asm3 ("MODSUB" ++ asmSlot ms) rd ra rb
  | .modmul ms rd ra rb => asm3 ("MODMUL" ++ asmSlot ms) rd ra rb
  | .modred ms neg rd ra rb => asm3 ("MODRED" ++ asmSlot ms ++ (if neg then ".neg" else "")) rd ra rb
  | .modinv ms rd ra => asm2 ("MODINV" ++ asmSlot ms) rd ra
  | .montmul ms rd ra rb => asm3 ("MONTMUL" ++ asmSlot ms) rd ra rb
  | .tomont ms rd ra => asm2 ("TOMONT" ++ asmSlot ms) rd ra
  | .frommont ms rd ra => asm2 ("FROMMONT" ++ asmSlot ms) rd ra
  | .padda rd ra rb => asm3 "PADDA" rd ra rb
  | .pdbla rd ra => asm2 "PDBLA" rd ra
  | .pmula rd ra rb => asm3 "PMULA" rd ra rb
  | .paddj rd ra rb => asm3 "PADDJ" rd ra rb
  | .pdblj rd ra => asm2 "PDBLJ" rd ra
  | .pmulj rd ra rb => asm3 "PMULJ" rd ra rb
  | .a2j rd ra => asm2 "A2J" rd ra
  | .j2a rd ra => asm2 "J2A" rd ra

end Sys2Proof
end

