-- ==== Sys2Proof/Machine/Arith.lean ====
section
/-! DEFINITION. Exact arithmetic: bit length (00_scope.md R11), the floored residue (R12), the inverse (R16),
the slot constants (10_state.md R36) and Barrett reduction (41_modular.md R156). -/

namespace Sys2Proof.Machine

/-- `bitlen(v)` (R11). -/
def bitlen (v : Nat) : Nat := if v = 0 then 0 else Nat.log2 v + 1

/-- `a mod m` (R12): floored, so it lies in `[0, m)` for a negative `a` too, and a zero residue is 0 (90 C2). -/
def residue (a : Int) (m : Nat) : Nat := (a % (m : Int)).toNat

/-- The extended Euclidean algorithm on remainders `r0`, `r1` with their coefficients `t0`, `t1`; the fuel
bounds the number of divisions (log 20). -/
def euclid : Nat → Nat → Nat → Int → Int → Int
  | 0, _, _, t0, _ => t0
  | fuel + 1, r0, r1, t0, t1 =>
    if r1 = 0 then t0 else euclid fuel r1 (r0 % r1) t1 (t0 - ((r0 / r1 : Nat) : Int) * t1)

/-- `inv(a, m)` (R16): the inverse in `[0, m)` and `false`, or 0 and the no-inverse indication `true`. -/
def inv (a : Int) (m : Nat) : Nat × Bool :=
  let r := residue a m
  if Nat.gcd r m = 1 then (residue (euclid (m + 1) m r 0 1) m, false) else (0, true)

/-- `MU = floor(2^(2K) / m)` (R36, R134). -/
def barrettConst (m : Nat) : Nat := 2 ^ (2 * bitlen m) / m

/-- `RB = 32 * ceil(K / 32)` (R36, R134). -/
def montExponent (m : Nat) : Nat := 32 * ((bitlen m + 31) / 32)

/-- `Rinv` for `Rm = 2^rb` (R170). -/
def montInverse (rb m : Nat) : Nat := (inv ((2 ^ rb : Nat) : Int) m).1

/-- One correction of Barrett reduction (R156). -/
def barrettCorrect (m t : Nat) : Nat := if m ≤ t then t - m else t

/-- Barrett reduction with the slot constants `k` and `mu`, informative (R156): for `v < 2^(2k)` it gives `v mod m`. -/
def barrettReduce (m k mu v : Nat) : Nat :=
  let q := v / 2 ^ (k - 1) * mu / 2 ^ (k + 1)
  barrettCorrect m (barrettCorrect m (v - q * m))

end Sys2Proof.Machine
end

