-- ==== Sys2Proof/Machine/Curve.lean ====
section
/-! DEFINITION. Points, their canonical forms and sentinels (00_scope.md R16; 43_point.md R180), the point
functions (R181 to R184), the conversions (R189, R190) and the scalar loop (44_scalar.md R210). Every
intermediate is an exact integer; each assignment of the rules' pseudocode is one residue. -/

namespace Sys2Proof.Machine

/-- An affine point (R18). -/
structure APoint where
  x : Nat
  y : Nat
deriving DecidableEq, Repr

/-- A Jacobian point (R18). -/
structure JPoint where
  x : Nat
  y : Nat
  z : Nat
deriving DecidableEq, Repr

/-- `INF_A` (R16). -/
def infA : APoint := ⟨0, 0⟩

/-- `INF_J` (R16). -/
def infJ : JPoint := ⟨1, 1, 0⟩

/-- `canonA` (R16). -/
def canonA (pt : APoint) (p : Nat) : APoint := ⟨pt.x % p, pt.y % p⟩

/-- `canonJ` (R16): every point with `Z mod p = 0` becomes `INF_J`. -/
def canonJ (pt : JPoint) (p : Nat) : JPoint :=
  if pt.z % p = 0 then infJ else ⟨pt.x % p, pt.y % p, pt.z % p⟩

/-- `ADBL` (R182), with the no-inverse indication. -/
def adbl (p a : Nat) (pt : APoint) : APoint × Bool :=
  if pt.y = 0 then (infA, false)
  else
    let iv := inv (2 * (pt.y : Int)) p
    let lam := residue ((3 * (pt.x : Int) * pt.x + a) * iv.1) p
    let xr := residue ((lam : Int) * lam - 2 * pt.x) p
    let yr := residue ((lam : Int) * ((pt.x : Int) - xr) - pt.y) p
    (⟨xr, yr⟩, iv.2)

/-- `AADD` (R181), with the no-inverse indication. -/
def aadd (p a : Nat) (pt qt : APoint) : APoint × Bool :=
  if pt = infA then (qt, false)
  else if qt = infA then (pt, false)
  else if pt.x = qt.x ∧ pt.y ≠ qt.y then (infA, false)
  else if pt.x = qt.x ∧ pt.y = qt.y then adbl p a pt
  else
    let iv := inv ((qt.x : Int) - pt.x) p
    let lam := residue (((qt.y : Int) - pt.y) * iv.1) p
    let xr := residue ((lam : Int) * lam - pt.x - qt.x) p
    let yr := residue ((lam : Int) * ((pt.x : Int) - xr) - pt.y) p
    (⟨xr, yr⟩, iv.2)

/-- `JDBL` (R183). -/
def jdbl (p a : Nat) (pt : JPoint) : JPoint :=
  if pt.z = 0 ∨ pt.y = 0 then infJ
  else
    let xx := residue ((pt.x : Int) * pt.x) p
    let yy := residue ((pt.y : Int) * pt.y) p
    let zz := residue ((pt.z : Int) * pt.z) p
    let s := residue (4 * (pt.x : Int) * yy) p
    let m := residue (3 * (xx : Int) + (a : Int) * zz * zz) p
    let t := residue ((m : Int) * m - 2 * s) p
    let y3 := residue ((m : Int) * ((s : Int) - t) - 8 * yy * yy) p
    let z3 := residue (2 * (pt.y : Int) * pt.z) p
    if z3 = 0 then infJ else ⟨t, y3, z3⟩

/-- `JADD` (R184). -/
def jadd (p a : Nat) (pt qt : JPoint) : JPoint :=
  if pt.z = 0 then qt
  else if qt.z = 0 then pt
  else
    let z1z1 := residue ((pt.z : Int) * pt.z) p
    let z2z2 := residue ((qt.z : Int) * qt.z) p
    let u1 := residue ((pt.x : Int) * z2z2) p
    let u2 := residue ((qt.x : Int) * z1z1) p
    let s1 := residue ((pt.y : Int) * qt.z * z2z2) p
    let s2 := residue ((qt.y : Int) * pt.z * z1z1) p
    let h := residue ((u2 : Int) - u1) p
    let r := residue ((s2 : Int) - s1) p
    if h = 0 ∧ r ≠ 0 then infJ
    else if h = 0 ∧ r = 0 then jdbl p a pt
    else
      let hh := residue ((h : Int) * h) p
      let hhh := residue ((h : Int) * hh) p
      let v := residue ((u1 : Int) * hh) p
      let x3 := residue ((r : Int) * r - hhh - 2 * v) p
      let y3 := residue ((r : Int) * ((v : Int) - x3) - (s1 : Int) * hhh) p
      let z3 := residue ((pt.z : Int) * qt.z * h) p
      if z3 = 0 then infJ else ⟨x3, y3, z3⟩

/-- The conversion of A2J, on a canonical affine point (R189). -/
def toJacobian (p : Nat) (pt : APoint) : JPoint := if pt = infA then infJ else ⟨pt.x, pt.y, 1 % p⟩

/-- The conversion of J2A, on a canonical Jacobian point, with the no-inverse indication (R190). -/
def toAffine (p : Nat) (pt : JPoint) : APoint × Bool :=
  if pt.z = 0 then (infA, false)
  else
    let zi := inv (pt.z : Int) p
    (⟨residue ((pt.x : Int) * zi.1 * zi.1) p, residue ((pt.y : Int) * zi.1 * zi.1 * zi.1) p⟩, zi.2)

/-- The running total of the scalar loop after its first `n` iterations (R210): iteration `n + 1` handles
bit `bitlen(d) - 1 - n`, from the most significant down; `body` is one iteration. -/
def ladderAfter {σ : Type} (body : Bool → σ → σ) (start : σ) (d : Nat) : Nat → σ
  | 0 => start
  | n + 1 => body (d.testBit (bitlen d - 1 - n)) (ladderAfter body start d n)

/-- The two candidates of one iteration over affine points, each with the no-inverse indications so far:
`D = ADBL(R)` and `S = AADD(D, P)` (R210, R211). -/
def affineCandidates (p a : Nat) (pt : APoint) (r : APoint × Bool) : (APoint × Bool) × (APoint × Bool) :=
  let d := adbl p a r.1
  let s := aadd p a d.1 pt
  let ni := r.2 || d.2 || s.2
  ((d.1, ni), (s.1, ni))

/-- One iteration over affine points: the bit selects (R210). Both candidates' indications count, whichever
is kept (R211). -/
def affineBody (p a : Nat) (pt : APoint) (bit : Bool) (r : APoint × Bool) : APoint × Bool :=
  let c := affineCandidates p a pt r
  if bit then c.2 else c.1

/-- The two candidates of one iteration over Jacobian points: `D = JDBL(R)` and `S = JADD(D, P)` (R210, R212). -/
def jacobianCandidates (p a : Nat) (pt r : JPoint) : JPoint × JPoint :=
  let d := jdbl p a r
  (d, jadd p a d pt)

/-- One iteration over Jacobian points (R210). -/
def jacobianBody (p a : Nat) (pt : JPoint) (bit : Bool) (r : JPoint) : JPoint :=
  let c := jacobianCandidates p a pt r
  if bit then c.2 else c.1

/-- `LADDER` over affine points, with the OR of the no-inverse indications (R210, R211). -/
def ladderA (p a d : Nat) (pt : APoint) : APoint × Bool :=
  ladderAfter (affineBody p a pt) (infA, false) d (bitlen d)

/-- `LADDER` over Jacobian points (R210, R212). -/
def ladderJ (p a d : Nat) (pt : JPoint) : JPoint :=
  ladderAfter (jacobianBody p a pt) infJ d (bitlen d)

end Sys2Proof.Machine
end

