-- ==== Sys2Proof/Config.lean ====
section
/-! DEFINITION. What a build or a platform fixes (00_scope.md R7, R10; the OPEN points of 92_eei_decisions.md),
the constants of the identification registers (10_state.md R45 to R47), and the free values. -/

namespace Sys2Proof

/-- The reference operand width `W` (R7; 92 D2). -/
def Config.refWidth : Nat := 576

/-- The widths a build may have (R7): a multiple of 32 from 64 to 1024. -/
def Config.legalWidth (w : Nat) : Bool := w % 32 == 0 && decide (64 ≤ w) && decide (w ≤ 1024)

/-- `NREG` (R8). -/
def Config.nreg : Nat := 16

/-- ID (R45): ASCII "RBEA" read as a big-endian word. -/
def Config.id : Word := 0x52424541#32

/-- VERSION (R46): major 1, minor 0. -/
def Config.version : Word := 0x00010000#32

/-- The size of the register window in bytes (R70): 4 KiB. -/
def Config.windowSize : Nat := 0x1000

/-- What `Ri` holds in `State.reset`. DESIGN CHOICE (log 2, unsafe): the spec leaves it unspecified and
says that a model must not assume zero (R251), so each register has its own non-zero value. -/
def Config.powerOnReg (i : Reg) : Nat := i.val + 1

/-- What MU and RB hold in `State.reset` while the slot is not valid. DESIGN CHOICE (log 4): unspecified
and unobservable (R36, R50; 93 U2). -/
def Config.powerOnHidden : Nat := 0

/-- EAU_BASE, the window's address on the host bus: the platform's (R70; 92 D19; log 18). -/
opaque Config.eauBase : Nat

/-- EAU_IRQ, the number of the interrupt line at the host's controller: the platform's (R231; 92 D24; log 18). -/
opaque Config.eauIrq : Nat

/-- A free value: what a register that a reset leaves unspecified holds after it (R50, R251; log 3, 4).
Applied to a counter of State, so that every draw is a fresh one. -/
opaque Config.freeValue : Nat → Nat

end Sys2Proof
end

