-- ==== Sys2Proof/Machine/State.lean ====
section
/-! DEFINITION. The state of the EAU (10_state.md), the inputs a step performs, the reasons a step can stop,
and the state right after reset (R50). -/

namespace Sys2Proof.Machine

/-- A modulus slot with its precomputed constants (R35, R36). Values are unsigned integers (R12); their
bounds are part of `State.Inv` (log 5). -/
structure ModSlot where
  /-- `MOD[s]`. -/
  mod : Nat
  /-- `V[s]`. -/
  v : Bool
  /-- `K[s]`, the bit length of the modulus. -/
  k : Nat
  /-- `MU[s]`, the Barrett constant, hidden. -/
  mu : Nat
  /-- `RB[s]`, the Montgomery exponent, hidden. -/
  rb : Nat
  /-- `ODD[s]`, bit 0 of the modulus. -/
  odd : Bool
deriving DecidableEq, Repr

/-- FLAGS (R41). -/
structure Flags where
  z : Bool
  inf : Bool
  noinv : Bool
  lt : Bool
deriving DecidableEq, Repr

/-- The hidden engine state (R48): `eng_state`, the in-flight command word, and how many bits of the
scalar the loop of R210 has done, from which the bit index, the running point and the two candidates follow
(log 11). -/
inductive Engine where
  | idle
  | busy (word : Word) (bitsDone : Nat)
deriving DecidableEq, Repr

/-- The width of a host access (R76, R77): 8, 16, 32 bits, or wider. -/
inductive AccessSize where
  | byte
  | half
  | word
  | wider
deriving DecidableEq, Repr

/-- A read, or a write of a word (R14). -/
inductive AccessKind where
  | read
  | write (v : Word)
deriving DecidableEq, Repr

/-- A host access: its byte offset in the window (R71), its width and what it does. -/
structure Access where
  off : Nat
  size : AccessSize
  kind : AccessKind
deriving DecidableEq, Repr

/-- What can happen next (R82, R250, R262). -/
inductive Event where
  /-- A host access arrives at the bus port. -/
  | access (a : Access)
  /-- The platform drives the hardware reset. -/
  | hwReset
  /-- The engine does one iteration of the scalar loop, unseen (R48, R210). -/
  | engineWork
  /-- The engine completes the command in flight (R262). -/
  | engineDone
deriving DecidableEq, Repr

/-- What the bus port answered the host last (log 7). -/
inductive BusReply where
  | none
  /-- A read returned this word. -/
  | data (v : Word)
  /-- A write was taken (also one that is ignored: the bus does not tell). -/
  | ack
  /-- The error response of R77, with the offset. -/
  | busFault (off : Nat)
deriving DecidableEq, Repr

/-- The state of the EAU (R31). -/
structure State where
  /-- The build's `W`, which PARAM shows (R7, R47). No step changes it (log 1). -/
  width : Nat
  /-- `R0` to `R15` (R32). -/
  regs : Vector Nat 16
  /-- Slot P, `MOD[0]` (R35). -/
  slotP : ModSlot
  /-- Slot N, `MOD[1]` (R35). -/
  slotN : ModSlot
  /-- The curve coefficient `A` (R37). -/
  a : Nat
  /-- CTRL.IE (R38). -/
  ie : Bool
  /-- STATUS.DONE (R39). -/
  done : Bool
  /-- STATUS.ERR (R39). -/
  err : Bool
  /-- STATUS.OVR (R39). -/
  ovr : Bool
  /-- STATUS.ERRCODE (R39). -/
  errcode : BitVec 4
  /-- FLAGS (R41). -/
  flags : Flags
  /-- CMD, the last command word accepted (R42). -/
  cmd : Word
  /-- The engine (R48). -/
  engine : Engine
  /-- The model's own: the events to come, in order (log 6). -/
  pending : List Event
  /-- The model's own: the last answer of the bus port (log 7). -/
  reply : BusReply
  /-- The model's own: how many free values have been drawn (log 21). -/
  free : Nat
deriving DecidableEq, Repr

/-- Why a step stops. -/
inductive Fault where
  /-- Raised by `hostAccess`: the next event names an offset outside the 4 KiB window, so it is no access to
  the EAU (R71). Safe: the model stops where the EAU is not addressed at all (log 9). -/
  | outsideWindow (off : Nat)
deriving DecidableEq, Repr

/-- Why a command has no meaning. -/
inductive Refusal where
  /-- Raised by `exec` for a command that is not modelled yet, by its mnemonic. Safe. No arm raises it. -/
  | notModelled (mnemonic : String)
deriving DecidableEq, Repr

/-- A slot right after reset (R50): invalid, its hidden constants as named in log 4. -/
def ModSlot.reset : ModSlot :=
  { mod := 0, v := false, k := 0, mu := Config.powerOnHidden, rb := Config.powerOnHidden, odd := false }

/-- The state right after reset of a build of width `w` (R50). The operand registers' values are log 2's. -/
def State.resetOf (w : Nat) : State :=
  { width := w
    regs := Vector.ofFn Config.powerOnReg
    slotP := ModSlot.reset
    slotN := ModSlot.reset
    a := 0
    ie := false
    done := false
    err := false
    ovr := false
    errcode := 0#4
    flags := { z := false, inf := false, noinv := false, lt := false }
    cmd := 0#32
    engine := .idle
    pending := []
    reply := .none
    free := 0 }

/-- The machine right after reset: a build of the reference width (R7, R50). -/
def State.reset : State := State.resetOf Config.refWidth

end Sys2Proof.Machine
end

