-- ==== Sys2Proof/Machine/Operands.lean ====
section
/-! DEFINITION. The operand forms (30_encoding.md R101, R103; 00_scope.md R13): registers, point groups and
slots, read and written. All other files reach the registers and slots through these. -/

namespace Sys2Proof.Machine

/-- `x[i]` (R13). -/
def State.x (s : State) (i : Reg) : Nat := s.regs[i.val]

/-- `x[i] <- v` (R13). -/
def State.setX (s : State) (i : Reg) (v : Nat) : State := { s with regs := s.regs.set i.val v i.isLt }

/-- `xa(i)` (R13, R33); `i` is at most 14 wherever a command uses it. -/
def State.xa (s : State) (i : Reg) : APoint := ⟨s.x i, s.x (i + 1)⟩

/-- `xa(i) <- (u, v)` (R13). -/
def State.setXa (s : State) (i : Reg) (pt : APoint) : State := (s.setX i pt.x).setX (i + 1) pt.y

/-- `xj(i)` (R13, R33); `i` is at most 13 wherever a command uses it. -/
def State.xj (s : State) (i : Reg) : JPoint := ⟨s.x i, s.x (i + 1), s.x (i + 2)⟩

/-- `xj(i) <- (u, v, w)` (R13). -/
def State.setXj (s : State) (i : Reg) (pt : JPoint) : State :=
  ((s.setX i pt.x).setX (i + 1) pt.y).setX (i + 2) pt.z

/-- `MOD[s]` with its constants (R13, R35). -/
def State.slot (s : State) : Slot → ModSlot
  | .p => s.slotP
  | .n => s.slotN

/-- Replace a slot. -/
def State.setSlot (s : State) (i : Slot) (m : ModSlot) : State :=
  match i with
  | .p => { s with slotP := m }
  | .n => { s with slotN := m }

/-- A slot loaded with the modulus `m` and its constants (R36, R134). -/
def ModSlot.load (m : Nat) : ModSlot :=
  { mod := m, v := true, k := bitlen m, mu := barrettConst m, rb := montExponent m, odd := m.testBit 0 }

/-- The coefficient the point commands use, `a = A mod p` (R37, R180). -/
def State.coeff (s : State) : Nat := s.a % s.slotP.mod

/-- STATUS.BUSY, which mirrors `eng_state` (R39, R48). -/
def State.busy (s : State) : Bool :=
  match s.engine with
  | .idle => false
  | .busy _ _ => true

/-- The interrupt line (R49, R231). -/
def State.irq (s : State) : Bool := s.ie && s.done

/-- The interrupt line at the host's controller: its number there and its level (R231; log 18). -/
def State.irqLine (s : State) : Nat × Bool := (Config.eauIrq, s.irq)

end Sys2Proof.Machine
end

