-- ==== Sys2Proof/Machine/Flags.lean ====
section
/-! DEFINITION. The flag computations (10_state.md R41): each gives all four flags. -/

namespace Sys2Proof.Machine

/-- MODSET: all four are 0 (R134). -/
def clearFlags : Flags := { z := false, inf := false, noinv := false, lt := false }

/-- MOV, SETA and the field and Montgomery commands but MODINV: Z tests the value written (R132, R135, R151 to R154, R171 to R173). -/
def valueFlags (v : Nat) : Flags := { z := decide (v = 0), inf := false, noinv := false, lt := false }

/-- CMP (R133). -/
def compareFlags (a b : Nat) : Flags := { z := decide (a = b), inf := false, noinv := false, lt := decide (a < b) }

/-- MODINV (R155). -/
def inverseFlags (r : Nat × Bool) : Flags := { z := decide (r.1 = 0), inf := false, noinv := r.2, lt := false }

/-- PADDA, PDBLA, PMULA and J2A: Z and INF test for infinity, NOINV is the indication (R185, R186, R190, R211). -/
def affineFlags (r : APoint × Bool) : Flags :=
  { z := decide (r.1 = infA), inf := decide (r.1 = infA), noinv := r.2, lt := false }

/-- PADDJ, PDBLJ, PMULJ and A2J (R187, R188, R189, R212). -/
def jacobianFlags (pt : JPoint) : Flags :=
  { z := decide (pt = infJ), inf := decide (pt = infJ), noinv := false, lt := false }

end Sys2Proof.Machine
end

