-- ==== Sys2Proof/Machine/Ops.lean ====
section
/-! DEFINITION. Acceptance and the two kinds of completion (60_exceptions.md R225 to R227), and the shapes the
commands' meanings share: a command's checks in R105's order, then its writes, all together. -/

namespace Sys2Proof.Machine

/-- What a command answers: the EAU never stops on one (R105). -/
abbrev Result := Host.Outcome State Fault Refusal

/-- Acceptance of the word `c` (R225). -/
def accept (c : Word) (s : State) : State :=
  { s with cmd := c, engine := .busy c 0, done := false, err := false, errcode := 0#4 }

/-- Completion of a command that succeeded (R226): BUSY 0, DONE 1; ERR and ERRCODE say NONE (R39, R221; log 13). -/
def finish (s : State) : State :=
  { s with engine := .idle, done := true, err := false, errcode := 0#4 }

/-- Successful completion with the four flags a command writes (R226, R41). -/
def commit (f : Flags) (s : State) : State := finish { s with flags := f }

/-- TAKING AN ERROR (R227, R228): the failed completion. It saves the code in ERRCODE, sets ERR and DONE and
clears BUSY; CMD keeps the faulting word (R221), and nothing else is written. There is no handler and no
return (R220, R229): the next acceptance, or a W1C write, clears the status. -/
def failCmd (e : CmdError) (s : State) : State :=
  { s with engine := .idle, done := true, err := true, errcode := e.code }

/-- A command that uses a modulus slot: MOD_INVALID where the slot is not valid (R105). -/
def withSlot (ms : Slot) (s : State) (k : ModSlot → State) : Result :=
  if (s.slot ms).v then .next (k (s.slot ms)) else .next (failCmd .modInvalid s)

/-- A Montgomery command: MOD_INVALID, then BADMOD where the modulus is even (R105, R170). -/
def withOddSlot (ms : Slot) (s : State) (k : ModSlot → State) : Result :=
  withSlot ms s fun m => if m.odd then k m else failCmd .badMod s

/-- A point command: ILLEGAL_OPERAND where a base is out of range (R33, R105), MOD_INVALID where slot P is not
valid; `k` gets `p` and `a = A mod p` (R180). -/
def withCurve (basesOk : Bool) (s : State) (k : Nat → Nat → State) : Result :=
  if basesOk then withSlot .p s fun m => k m.mod s.coeff else .next (failCmd .illegalOperand s)

/-- Write the value `v` to `rd` and commit with Z from it (R132, R151 to R154, R171 to R173). -/
def writeValue (rd : Reg) (v : Nat) (s : State) : State := commit (valueFlags v) (s.setX rd v)

/-- Write an affine result with its no-inverse indication (R185, R186, R190, R211). -/
def writeAffine (rd : Reg) (r : APoint × Bool) (s : State) : State := commit (affineFlags r) (s.setXa rd r.1)

/-- Write a Jacobian result (R187, R188, R189, R212). -/
def writeJacobian (rd : Reg) (pt : JPoint) (s : State) : State := commit (jacobianFlags pt) (s.setXj rd pt)

end Sys2Proof.Machine
end

