-- ==== Sys2Proof/Machine/Reset.lean ====
section
/-! DEFINITION. The two resets (70_reset_and_hazards.md R250 to R253). What a reset leaves unspecified takes
free values (log 3, 4). -/

namespace Sys2Proof.Machine

/-- A slot after a reset: invalid, zero, its hidden constants unspecified (R36, R50); `n` numbers the free values. -/
def ModSlot.afterReset (n : Nat) : ModSlot :=
  { ModSlot.reset with mu := Config.freeValue n, rb := Config.freeValue (n + 1) }

/-- Soft reset (R253): the effect of a hardware reset on everything but the operand registers. A command in
flight is abandoned without commit, and IE becomes 0. The events to come are the outside world's and stay (log 23). -/
def softReset (s : State) : State :=
  { State.resetOf s.width with
    regs := s.regs
    slotP := ModSlot.afterReset s.free
    slotN := ModSlot.afterReset (s.free + 2)
    pending := s.pending
    reply := s.reply
    free := s.free + 4 }

/-- The unspecified contents of the operand registers after a hardware reset (R251): any `W`-bit values. -/
def unspecifiedRegs (width n : Nat) : Vector Nat 16 :=
  Vector.ofFn fun i : Reg => Config.freeValue (n + i.val) % 2 ^ width

/-- Hardware reset (R252): as a soft reset, with the operand registers unspecified (R251) and the bus port idle. -/
def hardReset (s : State) : State :=
  { softReset s with
    regs := unspecifiedRegs s.width (s.free + 4)
    reply := .none
    free := s.free + 20 }

end Sys2Proof.Machine
end

