-- ==== Sys2Proof/Machine/Bus.lean ====
section
/-! DEFINITION. The register window (20_memory.md): its map, reads, writes, and host accesses. -/

namespace Sys2Proof.Machine

/-- What an aligned offset of the window names (R72). -/
inductive Loc where
  | id
  | version
  | param
  | ctrl
  | status
  | flags
  | cmd
  | kbits
  /-- Word `j` of `Ri` (R73). -/
  | regWord (i : Reg) (j : Nat)
  /-- Word `j` of a slot's modulus (R74). -/
  | modWord (ms : Slot) (j : Nat)
  /-- Word `j` of `A` (R74). -/
  | aWord (j : Nat)
  | reserved
deriving DecidableEq, Repr

/-- The window's map (R71, R72): the word index is `off[11:2]`. -/
def Loc.ofOffset (off : Nat) : Loc :=
  if off < 0x400 then
    match off / 4 with
    | 0 => .id
    | 1 => .version
    | 2 => .param
    | 3 => .ctrl
    | 4 => .status
    | 5 => .flags
    | 6 => .cmd
    | 7 => .kbits
    | _ => .reserved
  else if off < 0xC00 then .regWord (Fin.ofNat 16 ((off - 0x400) / 0x80)) ((off - 0x400) % 0x80 / 4)
  else if off < 0xC80 then .modWord .p ((off - 0xC00) / 4)
  else if off < 0xD00 then .modWord .n ((off - 0xC80) / 4)
  else if off < 0xD80 then .aWord ((off - 0xD00) / 4)
  else .reserved

/-- `NW`, the number of bus words of a register (R8). -/
def wordsPerReg (width : Nat) : Nat := width / 32

/-- Word `j` of a `W`-bit value: bits `32j+31 : 32j`, little-endian; zero for `j >= NW` (R73, R74, R75). -/
def wordOf (width v j : Nat) : Word := if j < wordsPerReg width then BitVec.ofNat 32 (v / 2 ^ (32 * j)) else 0#32

/-- A value with its bits `32j+31 : 32j` replaced by `w`, every other bit unchanged (R73). -/
def putWord (v j : Nat) (w : Word) : Nat :=
  v % 2 ^ (32 * j) + w.toNat * 2 ^ (32 * j) + v / 2 ^ (32 * (j + 1)) * 2 ^ (32 * (j + 1))

/-- PARAM (R47): `W` in bits 15:0, `NREG` in bits 23:16. -/
def paramWord (s : State) : Word := place 16 (BitVec.ofNat 8 Config.nreg) ||| place 0 (BitVec.ofNat 16 s.width)

/-- CTRL (R38): IE in bit 0; SRST reads as 0. -/
def ctrlWord (s : State) : Word := place 0 (BitVec.ofBool s.ie)

/-- STATUS (R40). -/
def statusWord (s : State) : Word :=
  place 0 (BitVec.ofBool s.busy) ||| place 1 (BitVec.ofBool s.done) ||| place 2 (BitVec.ofBool s.err)
    ||| place 3 (BitVec.ofBool s.ovr) ||| place 8 s.errcode ||| place 16 (BitVec.ofBool s.slotP.v)
    ||| place 17 (BitVec.ofBool s.slotN.v) ||| place 18 (BitVec.ofBool (s.slotP.v && s.slotP.odd))
    ||| place 19 (BitVec.ofBool (s.slotN.v && s.slotN.odd))

/-- FLAGS (R41). -/
def flagsWord (s : State) : Word :=
  place 0 (BitVec.ofBool s.flags.z) ||| place 1 (BitVec.ofBool s.flags.inf) ||| place 2 (BitVec.ofBool s.flags.noinv)
    ||| place 3 (BitVec.ofBool s.flags.lt)

/-- A slot's half of KBITS (R44). -/
def kbitsHalf (m : ModSlot) : BitVec 16 := if m.v then BitVec.ofNat 16 m.k else 0#16

/-- KBITS (R44). -/
def kbitsWord (s : State) : Word := place 16 (kbitsHalf s.slotN) ||| place 0 (kbitsHalf s.slotP)

/-- A read of the window (R72 to R74, R80): it has no side effect (R78). -/
def State.readLoc (s : State) : Loc → Word
  | .id => Config.id
  | .version => Config.version
  | .param => paramWord s
  | .ctrl => ctrlWord s
  | .status => statusWord s
  | .flags => flagsWord s
  | .cmd => s.cmd
  | .kbits => kbitsWord s
  | .regWord i j => wordOf s.width (s.x i) j
  | .modWord ms j => wordOf s.width (s.slot ms).mod j
  | .aWord j => wordOf s.width s.a j
  | .reserved => 0#32

/-- `BusRead(off)` (R14), for a legal offset. -/
def State.busRead (s : State) (off : Nat) : Word := s.readLoc (Loc.ofOffset off)

/-- A write to CTRL, busy or not (R38, R81, R253). -/
def writeCtrl (v : Word) (s : State) : State :=
  if v.getLsbD 1 then softReset s else { s with ie := v.getLsbD 0 }

/-- A write to STATUS: write 1 to clear DONE and OVR (R39, R40). -/
def writeStatus (v : Word) (s : State) : State :=
  { s with done := s.done && !v.getLsbD 1, ovr := s.ovr && !v.getLsbD 3 }

/-- A write to CMD: accepted while idle, else dropped with OVR (R42, R81, R225). -/
def writeCmd (c : Word) (s : State) : State := if s.busy then { s with ovr := true } else accept c s

/-- A write to word `j` of `Ri`: ignored for `j >= NW` (log 12), else dropped with OVR while busy (R73, R81). -/
def writeReg (i : Reg) (j : Nat) (v : Word) (s : State) : State :=
  if j < wordsPerReg s.width then
    if s.busy then { s with ovr := true } else s.setX i (putWord (s.x i) j v)
  else s

/-- A write to the window (R72, R78, R80, R81): read-only and reserved locations ignore it. -/
def State.writeLoc (s : State) (v : Word) : Loc → State
  | .id => s
  | .version => s
  | .param => s
  | .ctrl => writeCtrl v s
  | .status => writeStatus v s
  | .flags => s
  | .cmd => writeCmd v s
  | .kbits => s
  | .regWord i j => writeReg i j v s
  | .modWord _ _ => s
  | .aWord _ => s
  | .reserved => s

/-- `BusWrite(off, v)` (R14), for a legal offset. -/
def State.busWrite (s : State) (off : Nat) (v : Word) : State := s.writeLoc v (Loc.ofOffset off)

/-- An access the EAU serves: 32 bits wide at an offset that is a multiple of 4 (R76). -/
def Access.legal (a : Access) : Bool := decide (a.size = .word) && decide (a.off % 4 = 0)

/-- A host access (R71, R76 to R78). An illegal one gets a bus error and changes no EAU state (R77, R223; log 8). -/
def hostAccess (a : Access) (s : State) : Result :=
  if Config.windowSize ≤ a.off then .fault (.outsideWindow a.off)
  else if a.legal then
    match a.kind with
    | .read => .next { s with reply := .data (s.busRead a.off) }
    | .write v => .next { s.busWrite a.off v with reply := .ack }
  else .next { s with reply := .busFault a.off }

/-- The access a host makes to the EAU at a bus address: `off = addr - EAU_BASE` (R71); none where the
address is not in the window. -/
def accessAt (addr : Nat) (size : AccessSize) (kind : AccessKind) : Option Access :=
  if Config.eauBase ≤ addr ∧ addr - Config.eauBase < Config.windowSize then
    some { off := addr - Config.eauBase, size := size, kind := kind }
  else none

end Sys2Proof.Machine
end

