-- ==== Sys2Proof/Machine/Control.lean ====
section
/-! DEFINITION. The control commands (40_control.md). -/

namespace Sys2Proof.Machine

/-- R131: nothing but the completion; FLAGS stay. -/
def execNop (s : State) : Result := .next (finish s)

/-- R132 -/
def execMov (rd ra : Reg) (s : State) : Result := .next (writeValue rd (s.x ra) s)

/-- R133 -/
def execCmp (ra rb : Reg) (s : State) : Result := .next (commit (compareFlags (s.x ra) (s.x rb)) s)

/-- R134 -/
def execModset (ms : Slot) (ra : Reg) (s : State) : Result :=
  if s.x ra = 0 then .next (failCmd .divZero s)
  else .next (commit clearFlags (s.setSlot ms (ModSlot.load (s.x ra))))

/-- R135 -/
def execSeta (ra : Reg) (s : State) : Result := .next (commit (valueFlags (s.x ra)) { s with a := s.x ra })

end Sys2Proof.Machine
end

