-- ==== Sys2Proof/Machine/Modular.lean ====
section
/-! DEFINITION. The modular commands (41_modular.md): exact integers, one floored reduction (R150). -/

namespace Sys2Proof.Machine

/-- R151 -/
def execModadd (ms : Slot) (rd ra rb : Reg) (s : State) : Result :=
  withSlot ms s fun m => writeValue rd (residue ((s.x ra : Int) + s.x rb) m.mod) s

/-- R152 -/
def execModsub (ms : Slot) (rd ra rb : Reg) (s : State) : Result :=
  withSlot ms s fun m => writeValue rd (residue ((s.x ra : Int) - s.x rb) m.mod) s

/-- R153 -/
def execModmul (ms : Slot) (rd ra rb : Reg) (s : State) : Result :=
  withSlot ms s fun m => writeValue rd (residue ((s.x ra : Int) * s.x rb) m.mod) s

/-- The wide operand of MODRED, `{x[ra], x[rb]}`, negated where S is 1 (R154). -/
def wideOperand (width : Nat) (neg : Bool) (hi lo : Nat) : Int :=
  let v : Int := (hi : Int) * ((2 ^ width : Nat) : Int) + lo
  if neg then -v else v

/-- R154 -/
def execModred (ms : Slot) (neg : Bool) (rd ra rb : Reg) (s : State) : Result :=
  withSlot ms s fun m => writeValue rd (residue (wideOperand s.width neg (s.x ra) (s.x rb)) m.mod) s

/-- R155 -/
def execModinv (ms : Slot) (rd ra : Reg) (s : State) : Result :=
  withSlot ms s fun m =>
    let r := inv (s.x ra : Int) m.mod
    commit (inverseFlags r) (s.setX rd r.1)

end Sys2Proof.Machine
end

