-- ==== Sys2Proof/Machine/Montgomery.lean ====
section
/-! DEFINITION. The Montgomery commands (42_montgomery.md): `Rm = 2^RB`, `Rinv` its inverse (R170). -/

namespace Sys2Proof.Machine

/-- R171 -/
def execMontmul (ms : Slot) (rd ra rb : Reg) (s : State) : Result :=
  withOddSlot ms s fun m =>
    writeValue rd (residue ((s.x ra : Int) * s.x rb * montInverse m.rb m.mod) m.mod) s

/-- R172 -/
def execTomont (ms : Slot) (rd ra : Reg) (s : State) : Result :=
  withOddSlot ms s fun m => writeValue rd (residue ((s.x ra : Int) * ((2 ^ m.rb : Nat) : Int)) m.mod) s

/-- R173 -/
def execFrommont (ms : Slot) (rd ra : Reg) (s : State) : Result :=
  withOddSlot ms s fun m => writeValue rd (residue ((s.x ra : Int) * montInverse m.rb m.mod) m.mod) s

end Sys2Proof.Machine
end

