-- ==== Sys2Proof/Machine/Point.lean ====
section
/-! DEFINITION. The point and conversion commands (43_point.md): inputs canonicalised, then the point functions (R180). -/

namespace Sys2Proof.Machine

/-- R185 -/
def execPadda (rd ra rb : Reg) (s : State) : Result :=
  withCurve (rd.affineBase && ra.affineBase && rb.affineBase) s fun p a =>
    writeAffine rd (aadd p a (canonA (s.xa ra) p) (canonA (s.xa rb) p)) s

/-- R186 -/
def execPdbla (rd ra : Reg) (s : State) : Result :=
  withCurve (rd.affineBase && ra.affineBase) s fun p a => writeAffine rd (adbl p a (canonA (s.xa ra) p)) s

/-- R187 -/
def execPaddj (rd ra rb : Reg) (s : State) : Result :=
  withCurve (rd.jacobianBase && ra.jacobianBase && rb.jacobianBase) s fun p a =>
    writeJacobian rd (jadd p a (canonJ (s.xj ra) p) (canonJ (s.xj rb) p)) s

/-- R188 -/
def execPdblj (rd ra : Reg) (s : State) : Result :=
  withCurve (rd.jacobianBase && ra.jacobianBase) s fun p a => writeJacobian rd (jdbl p a (canonJ (s.xj ra) p)) s

/-- R189 -/
def execA2j (rd ra : Reg) (s : State) : Result :=
  withCurve (rd.jacobianBase && ra.affineBase) s fun p _ => writeJacobian rd (toJacobian p (canonA (s.xa ra) p)) s

/-- R190 -/
def execJ2a (rd ra : Reg) (s : State) : Result :=
  withCurve (rd.affineBase && ra.jacobianBase) s fun p _ => writeAffine rd (toAffine p (canonJ (s.xj ra) p)) s

end Sys2Proof.Machine
end

