-- ==== Sys2Proof/Machine/Scalar.lean ====
section
/-! DEFINITION. Scalar multiplication (44_scalar.md): the scalar is the raw register value (R211). -/

namespace Sys2Proof.Machine

/-- R211 -/
def execPmula (rd ra rb : Reg) (s : State) : Result :=
  withCurve (rd.affineBase && rb.affineBase) s fun p a =>
    writeAffine rd (ladderA p a (s.x ra) (canonA (s.xa rb) p)) s

/-- R212 -/
def execPmulj (rd ra rb : Reg) (s : State) : Result :=
  withCurve (rd.jacobianBase && rb.jacobianBase) s fun p a =>
    writeJacobian rd (ladderJ p a (s.x ra) (canonJ (s.xj rb) p)) s

end Sys2Proof.Machine
end

