-- ==== Sys2Proof/Machine/Dispatch.lean ====
section
/-! DEFINITION. The meaning of each command: what its completion makes of the state. -/

namespace Sys2Proof.Machine

def exec (i : Instr) (s : State) : Host.Outcome State Fault Refusal :=
  match i with
  | .nop => Sys2Proof.Machine.execNop s
  | .mov rd ra => Sys2Proof.Machine.execMov rd ra s
  | .cmp ra rb => Sys2Proof.Machine.execCmp ra rb s
  | .modset ms ra => Sys2Proof.Machine.execModset ms ra s
  | .seta ra => Sys2Proof.Machine.execSeta ra s
  | .modadd ms rd ra rb => Sys2Proof.Machine.execModadd ms rd ra rb s
  | .modsub ms rd ra rb => Sys2Proof.Machine.execModsub ms rd ra rb s
  | .modmul ms rd ra rb => Sys2Proof.Machine.execModmul ms rd ra rb s
  | .modred ms neg rd ra rb => Sys2Proof.Machine.execModred ms neg rd ra rb s
  | .modinv ms rd ra => Sys2Proof.Machine.execModinv ms rd ra s
  | .montmul ms rd ra rb => Sys2Proof.Machine.execMontmul ms rd ra rb s
  | .tomont ms rd ra => Sys2Proof.Machine.execTomont ms rd ra s
  | .frommont ms rd ra => Sys2Proof.Machine.execFrommont ms rd ra s
  | .padda rd ra rb => Sys2Proof.Machine.execPadda rd ra rb s
  | .pdbla rd ra => Sys2Proof.Machine.execPdbla rd ra s
  | .pmula rd ra rb => Sys2Proof.Machine.execPmula rd ra rb s
  | .paddj rd ra rb => Sys2Proof.Machine.execPaddj rd ra rb s
  | .pdblj rd ra => Sys2Proof.Machine.execPdblj rd ra s
  | .pmulj rd ra rb => Sys2Proof.Machine.execPmulj rd ra rb s
  | .a2j rd ra => Sys2Proof.Machine.execA2j rd ra s
  | .j2a rd ra => Sys2Proof.Machine.execJ2a rd ra s

end Sys2Proof.Machine
end

