-- ==== Sys2Proof/Machine/Engine.lean ====
section
/-! DEFINITION. The engine (10_state.md R30, R48; 60_exceptions.md R226, R227; 70_reset_and_hazards.md R262):
completing the command in flight, the hidden progress of the scalar loop, and what else is hidden; then what
each event does. -/

namespace Sys2Proof.Machine

/-- The completion of the word `c`: a word the decoder rejects fails with that error, any other runs its
command's meaning (R105, R106, R226, R227). -/
def completeWord (c : Word) (s : State) : Result :=
  match decode c with
  | .ok i => exec i s
  | .error e => .next (failCmd e s)

/-- The engine's completion, enabled while a command is in flight (R262). -/
def engineDone (s : State) : Result :=
  match s.engine with
  | .idle => .next s
  | .busy c _ => completeWord c s

/-- The command in flight, where its word decodes (R48). -/
def State.inFlight (s : State) : Option Instr :=
  match s.engine with
  | .idle => none
  | .busy c _ =>
    match decode c with
    | .ok i => some i
    | .error _ => none

/-- The scalar of the command in flight, where it runs the loop: PMULA and PMULJ with slot P valid (R210, R105). -/
def State.loopScalar (s : State) : Option Nat :=
  if s.slotP.v then
    match s.inFlight with
    | some (.pmula _ ra _) => some (s.x ra)
    | some (.pmulj _ ra _) => some (s.x ra)
    | _ => none
  else none

/-- One hidden iteration of the scalar loop (R48, R210): the bit index moves on, `bitlen(d)` times in all. -/
def engineWork (s : State) : State :=
  match s.engine, s.loopScalar with
  | .busy c n, some d => if n < bitlen d then { s with engine := .busy c (n + 1) } else s
  | _, _ => s

/-- The hidden state of the scalar loop (R48): how many bits are still to do (the bit index is one less), the
running point, and the doubled and the added candidate of the next iteration. Over affine points each carries
the no-inverse indications so far. -/
inductive LadderView where
  | affine (bitsLeft : Nat) (running doubled added : APoint × Bool)
  | jacobian (bitsLeft : Nat) (running doubled added : JPoint)
deriving DecidableEq, Repr

/-- The loop over affine points, after `n` iterations. -/
def affineView (p a d : Nat) (pt : APoint) (n : Nat) : LadderView :=
  let r := ladderAfter (affineBody p a pt) (infA, false) d n
  let c := affineCandidates p a pt r
  .affine (bitlen d - n) r c.1 c.2

/-- The loop over Jacobian points, after `n` iterations. -/
def jacobianView (p a d : Nat) (pt : JPoint) (n : Nat) : LadderView :=
  let r := ladderAfter (jacobianBody p a pt) infJ d n
  let c := jacobianCandidates p a pt r
  .jacobian (bitlen d - n) r c.1 c.2

/-- The hidden state of the scalar loop in flight (R48; log 11). -/
def State.ladderView (s : State) : Option LadderView :=
  match s.engine, s.inFlight with
  | .busy _ n, some (.pmula _ ra rb) =>
    if s.slotP.v then
      some (affineView s.slotP.mod s.coeff (s.x ra) (canonA (s.xa rb) s.slotP.mod) n)
    else none
  | .busy _ n, some (.pmulj _ ra rb) =>
    if s.slotP.v then
      some (jacobianView s.slotP.mod s.coeff (s.x ra) (canonJ (s.xj rb) s.slotP.mod) n)
    else none
  | _, _ => none

/-- The values the in-flight command will commit (R48), as the state its completion would leave; none while idle. -/
def State.willCommit (s : State) : Option State :=
  match s.engine with
  | .idle => none
  | .busy c _ =>
    match completeWord c s with
    | .next t => some t
    | .fault _ => none
    | .refused _ => none

/-- What an event does (R82, R250, R262). -/
def perform (e : Event) (s : State) : Result :=
  match e with
  | .access a => hostAccess a s
  | .hwReset => .next (hardReset s)
  | .engineWork => .next (engineWork s)
  | .engineDone => engineDone s

end Sys2Proof.Machine
end

