-- ==== Sys2Proof/Machine/Step.lean ====
section
/-! DEFINITION. One step: the next event, or, with none pending, the completion of the command in flight
(20_memory.md R82; 70_reset_and_hazards.md R262). -/

namespace Sys2Proof.Machine

/-- One step. The head of `pending` happens; with nothing pending a busy engine completes, so that a command
once accepted completes unless a reset abandons it (R253, R262), and an idle EAU waits (R250; log 6). -/
def step (s : State) : Host.Outcome State Fault Refusal :=
  match s.pending with
  | [] => engineDone s
  | e :: rest => perform e { s with pending := rest }

/-- The state in which the very next step runs the command word `w`: the host has written it to CMD and it
has been accepted (R225), and the engine's completion comes before every other event (R262; log 14). -/
def State.withFetchWord (s : State) (nbits w : Nat) : State :=
  { accept (tableWord nbits w) s with pending := .engineDone :: s.pending }

end Sys2Proof.Machine
end

