-- ==== Sys2Proof/Safety.lean ====
section
/-! DEFINITION. What holds of every state a run reaches (`State.Inv`), and the spec's words that the statements use,
written from the rules again and not from the model's definitions. -/

namespace Sys2Proof.Machine

/-- A slot's invariant (R35, R36): a valid slot holds a non-zero modulus of at most `W` bits with its own
constants; an invalid one holds what reset leaves, its hidden constants unspecified. -/
structure ModSlot.Inv (width : Nat) (m : ModSlot) : Prop where
  bound : m.mod < 2 ^ width
  valid : m.v = true → 0 < m.mod ∧ m.k = bitlen m.mod ∧ m.mu = 2 ^ (2 * m.k) / m.mod ∧
    m.rb = 32 * ((m.k + 31) / 32) ∧ m.odd = m.mod.testBit 0
  invalid : m.v = false → m.mod = 0 ∧ m.k = 0 ∧ m.odd = false

/-- The invariant of the machine. -/
structure State.Inv (s : State) : Prop where
  /-- `W` is a multiple of 32 from 64 to 1024 (R7). -/
  width : Config.legalWidth s.width = true
  /-- Every operand register holds a `W`-bit value (R12, R32). -/
  regs : ∀ i : Reg, s.x i < 2 ^ s.width
  /-- So does `A` (R37). -/
  coeff : s.a < 2 ^ s.width
  slotP : s.slotP.Inv s.width
  slotN : s.slotN.Inv s.width
  /-- ERRCODE values 6 to 15 are never produced (R40). -/
  errcode : s.errcode.toNat ≤ 5
  /-- ERR is 1 exactly when ERRCODE is not 0 (R39). -/
  err : s.err = true ↔ s.errcode ≠ 0#4
  /-- While a command is in flight DONE and ERR are 0, CMD holds its word (R42, R225), and the scalar loop has
  done at most `W` iterations (R262). -/
  inFlight : ∀ c n, s.engine = .busy c n → s.done = false ∧ s.err = false ∧ s.cmd = c ∧ n ≤ s.width

/-- A step is safe where it neither faults nor refuses. -/
def Safe (r : Result) : Prop := ∃ t, r = .next t

/-! ### The spec's own words for statements -/

/-- `r` is `a mod m` (R12): the unique value of `[0, m)` with `a - r` divisible by `m`. -/
def IsResidue (r : Nat) (a : Int) (m : Nat) : Prop := r < m ∧ (m : Int) ∣ a - r

/-- A command word of format C from its fields (R100). -/
def formatC (opc ms s rd ra rb : Nat) : Word :=
  BitVec.ofNat 32 (opc * 2 ^ 24 + ms * 2 ^ 23 + s * 2 ^ 22 + rd * 2 ^ 12 + ra * 2 ^ 8 + rb * 2 ^ 4)

/-- `ms` as a number (R102). -/
def slotNum : Slot → Nat
  | .p => 0
  | .n => 1

/-- The field `c[lo + len - 1 : lo]` of a word (R11). -/
def wordField (c : Word) (lo len : Nat) : Nat := c.toNat / 2 ^ lo % 2 ^ len

/-- A row of R104's table: the classes of `rd`, `ra`, `rb`, and whether MS and S may be 1. -/
structure OpRow where
  opc : Nat
  rd : FieldClass
  ra : FieldClass
  rb : FieldClass
  ms : Bool
  s : Bool
deriving DecidableEq, Repr

/-- The table of R104. -/
def opcodeRows : List OpRow :=
  [ ⟨0x00, .unused, .unused, .unused, false, false⟩, ⟨0x01, .reg, .reg, .unused, false, false⟩,
    ⟨0x02, .unused, .reg, .reg, false, false⟩, ⟨0x08, .unused, .reg, .unused, true, false⟩,
    ⟨0x09, .unused, .reg, .unused, false, false⟩, ⟨0x10, .reg, .reg, .reg, true, false⟩,
    ⟨0x11, .reg, .reg, .reg, true, false⟩, ⟨0x12, .reg, .reg, .reg, true, false⟩,
    ⟨0x13, .reg, .reg, .reg, true, true⟩, ⟨0x14, .reg, .reg, .unused, true, false⟩,
    ⟨0x18, .reg, .reg, .reg, true, false⟩, ⟨0x19, .reg, .reg, .unused, true, false⟩ ] ++
  [ ⟨0x1A, .reg, .reg, .unused, true, false⟩, ⟨0x20, .abase, .abase, .abase, false, false⟩,
    ⟨0x21, .abase, .abase, .unused, false, false⟩, ⟨0x22, .abase, .reg, .abase, false, false⟩,
    ⟨0x28, .jbase, .jbase, .jbase, false, false⟩, ⟨0x29, .jbase, .jbase, .unused, false, false⟩,
    ⟨0x2A, .jbase, .reg, .jbase, false, false⟩, ⟨0x30, .jbase, .abase, .unused, false, false⟩,
    ⟨0x31, .abase, .jbase, .unused, false, false⟩ ]

/-- The row of an opcode, if it is assigned (R104). -/
def opcodeRow (opc : Nat) : Option OpRow := opcodeRows.find? fun r => r.opc == opc

/-- The values a class admits (R101). -/
def classAdmits : FieldClass → Nat → Bool
  | .unused, f => f == 0
  | .reg, _ => true
  | .abase, f => decide (f ≤ 14)
  | .jbase, f => decide (f ≤ 13)

/-- The checks of R105 that end in ILLEGAL_OPERAND all pass. -/
def fieldsLegal (r : OpRow) (c : Word) : Bool :=
  wordField c 16 6 == 0 && wordField c 0 4 == 0
    && classAdmits r.rd (wordField c 12 4) && classAdmits r.ra (wordField c 8 4) && classAdmits r.rb (wordField c 4 4)
    && (wordField c 23 1 == 0 || r.ms) && (wordField c 22 1 == 0 || r.s)

/-- The slot a command works with: slot P for the point and conversion families, else `ms` (R105). -/
def commandSlot (c : Word) : Slot :=
  if 0x20 ≤ wordField c 24 8 then .p else if wordField c 23 1 = 1 then .n else .p

/-- The error a command word raises in a state, if any: the pseudocode of R105. -/
def commandError (c : Word) (s : State) : Option CmdError :=
  match opcodeRow (wordField c 24 8) with
  | none => some .illegalOpcode
  | some r =>
    if !fieldsLegal r c then some .illegalOperand
    else if 0x10 ≤ r.opc ∧ (s.slot (commandSlot c)).v = false then some .modInvalid
    else if r.opc = 0x08 ∧ s.x (Fin.ofNat 16 (wordField c 8 4)) = 0 then some .divZero
    else if (r.opc = 0x18 ∨ r.opc = 0x19 ∨ r.opc = 0x1A) ∧ (s.slot (commandSlot c)).odd = false then some .badMod
    else none

/-- The registers a command writes (R32, R33). -/
def commandDests : Instr → List Reg
  | .nop => []
  | .mov rd _ => [rd]
  | .cmp _ _ => []
  | .modset _ _ => []
  | .seta _ => []
  | .modadd _ rd _ _ => [rd]
  | .modsub _ rd _ _ => [rd]
  | .modmul _ rd _ _ => [rd]
  | .modred _ _ rd _ _ => [rd]
  | .modinv _ rd _ => [rd]
  | .montmul _ rd _ _ => [rd]
  | .tomont _ rd _ => [rd]
  | .frommont _ rd _ => [rd]
  | .padda rd _ _ => [rd, rd + 1]
  | .pdbla rd _ => [rd, rd + 1]
  | .pmula rd _ _ => [rd, rd + 1]
  | .paddj rd _ _ => [rd, rd + 1, rd + 2]
  | .pdblj rd _ => [rd, rd + 1, rd + 2]
  | .pmulj rd _ _ => [rd, rd + 1, rd + 2]
  | .a2j rd _ => [rd, rd + 1, rd + 2]
  | .j2a rd _ => [rd, rd + 1]

/-- What no command writes, whatever its outcome. -/
structure CommandKeeps (s t : State) : Prop where
  width : t.width = s.width
  ie : t.ie = s.ie
  ovr : t.ovr = s.ovr
  cmd : t.cmd = s.cmd
  pending : t.pending = s.pending
  reply : t.reply = s.reply
  free : t.free = s.free

/-- A successful completion that writes no operand register but those of `dest` (R226). -/
structure Ran (s t : State) (dest : List Reg) : Prop where
  busy : t.busy = false
  done : t.done = true
  err : t.err = false
  errcode : t.errcode = 0#4
  regs : ∀ r, r ∉ dest → t.x r = s.x r
  keeps : CommandKeeps s t

/-- Neither slot nor `A` changes. -/
structure SlotsKept (s t : State) : Prop where
  slotP : t.slotP = s.slotP
  slotN : t.slotN = s.slotN
  a : t.a = s.a

/-- The state of a failed completion, field by field (R227). -/
def failedState (e : CmdError) (s : State) : State :=
  { s with engine := .idle, done := true, err := true, errcode := e.code }

/-- Run commands one after another. -/
def runCommands : List Instr → State → Result
  | [], s => .next s
  | i :: l, s =>
    match exec i s with
    | .next t => runCommands l t
    | .fault f => .fault f
    | .refused r => .refused r

/-- The event of a 32-bit host write. -/
def writeEvent (off : Nat) (v : Word) : Event := .access { off := off, size := .word, kind := .write v }

/-- The event of a 32-bit host read. -/
def readEvent (off : Nat) : Event := .access { off := off, size := .word, kind := .read }

/-- The two resets (R250). -/
def IsReset (e : Event) : Prop := e = .hwReset ∨ ∃ v : Word, v.getLsbD 1 = true ∧ e = writeEvent 0x00C v

/-- What every reset leaves, but for the operand registers and the hidden constants (R50, R252, R253). -/
structure ResetValues (t : State) : Prop where
  modP : t.slotP.mod = 0
  modN : t.slotN.mod = 0
  validP : t.slotP.v = false
  validN : t.slotN.v = false
  oddP : t.slotP.odd = false
  oddN : t.slotN.odd = false
  bitsP : t.slotP.k = 0
  bitsN : t.slotN.k = 0
  coeff : t.a = 0
  ctrl : t.busRead 0x00C = 0#32
  status : t.busRead 0x010 = 0#32
  flags : t.busRead 0x014 = 0#32
  cmd : t.busRead 0x018 = 0#32
  kbits : t.busRead 0x01C = 0#32
  id : t.busRead 0x000 = 0x52424541#32
  version : t.busRead 0x004 = 0x00010000#32
  param : wordField (t.busRead 0x008) 16 16 = 16
  engine : t.engine = .idle
  irq : t.irq = false

/-- The state but for the hidden constants MU (R36). -/
def State.forgetMu (s : State) : State :=
  { s with slotP := { s.slotP with mu := 0 }, slotN := { s.slotN with mu := 0 } }

/-- The state but for slot N. -/
def State.forgetSlotN (s : State) : State := { s with slotN := ModSlot.reset }

/-- A point, conversion or scalar command (R104). -/
def isPointCommand : Instr → Bool
  | .padda _ _ _ => true
  | .pdbla _ _ => true
  | .pmula _ _ _ => true
  | .paddj _ _ _ => true
  | .pdblj _ _ => true
  | .pmulj _ _ _ => true
  | .a2j _ _ => true
  | .j2a _ _ => true
  | .nop => false
  | .mov _ _ => false
  | .cmp _ _ => false
  | .modset _ _ => false
  | .seta _ => false
  | .modadd _ _ _ _ => false
  | .modsub _ _ _ _ => false
  | .modmul _ _ _ _ => false
  | .modred _ _ _ _ _ => false
  | .modinv _ _ _ => false
  | .montmul _ _ _ _ => false
  | .tomont _ _ _ => false
  | .frommont _ _ _ => false

/-- The flags `f` that a successful command leaves: the table of R41, over the state `s` before and `t` after. -/
def FlagRule : Instr → State → State → Flags → Prop
  | .nop, s, _, f => f = s.flags
  | .mov rd _, _, t, f => f = ⟨decide (t.x rd = 0), false, false, false⟩
  | .cmp ra rb, s, _, f => f = ⟨decide (s.x ra = s.x rb), false, false, decide (s.x ra < s.x rb)⟩
  | .modset _ _, _, _, f => f = ⟨false, false, false, false⟩
  | .seta _, _, t, f => f = ⟨decide (t.a = 0), false, false, false⟩
  | .modadd _ rd _ _, _, t, f => f = ⟨decide (t.x rd = 0), false, false, false⟩
  | .modsub _ rd _ _, _, t, f => f = ⟨decide (t.x rd = 0), false, false, false⟩
  | .modmul _ rd _ _, _, t, f => f = ⟨decide (t.x rd = 0), false, false, false⟩
  | .modred _ _ rd _ _, _, t, f => f = ⟨decide (t.x rd = 0), false, false, false⟩
  | .modinv ms rd ra, s, t, f =>
    f = ⟨decide (t.x rd = 0), false, decide (Nat.gcd (s.x ra) (s.slot ms).mod ≠ 1), false⟩
  | .montmul _ rd _ _, _, t, f => f = ⟨decide (t.x rd = 0), false, false, false⟩
  | .tomont _ rd _, _, t, f => f = ⟨decide (t.x rd = 0), false, false, false⟩
  | .frommont _ rd _, _, t, f => f = ⟨decide (t.x rd = 0), false, false, false⟩
  | .padda rd _ _, _, t, f => f.z = decide (t.xa rd = ⟨0, 0⟩) ∧ f.inf = f.z ∧ f.lt = false
  | .pdbla rd _, _, t, f => f.z = decide (t.xa rd = ⟨0, 0⟩) ∧ f.inf = f.z ∧ f.lt = false
  | .pmula rd _ _, _, t, f => f.z = decide (t.xa rd = ⟨0, 0⟩) ∧ f.inf = f.z ∧ f.lt = false
  | .j2a rd _, _, t, f => f.z = decide (t.xa rd = ⟨0, 0⟩) ∧ f.inf = f.z ∧ f.lt = false
  | .paddj rd _ _, _, t, f => f.z = decide (t.xj rd = ⟨1, 1, 0⟩) ∧ f.inf = f.z ∧ f.noinv = false ∧ f.lt = false
  | .pdblj rd _, _, t, f => f.z = decide (t.xj rd = ⟨1, 1, 0⟩) ∧ f.inf = f.z ∧ f.noinv = false ∧ f.lt = false
  | .pmulj rd _ _, _, t, f => f.z = decide (t.xj rd = ⟨1, 1, 0⟩) ∧ f.inf = f.z ∧ f.noinv = false ∧ f.lt = false
  | .a2j rd _, _, t, f => f.z = decide (t.xj rd = ⟨1, 1, 0⟩) ∧ f.inf = f.z ∧ f.noinv = false ∧ f.lt = false

/-- An event that leaves a command in flight alone until its completion: no reset, and in the window. -/
def quietEvent (e : Event) : Prop :=
  ¬ IsReset e ∧ ∀ a, e = .access a → a.off < 0x1000

/-- The curve `y^2 = x^3 + a*x + b` over the integers mod `p` (R37), as Mathlib has it. -/
def curve (p : Nat) (a b : ZMod p) : WeierstrassCurve.Affine (ZMod p) := ⟨0, 0, 0, a, b⟩

/-- A canonical affine point of the EAU stands for a point of the curve's group: `(0, 0)` for infinity (R16). -/
def RepresentsA {p : Nat} [Fact p.Prime] {a b : ZMod p} (pt : APoint) (q : (curve p a b).Point) : Prop :=
  (pt = ⟨0, 0⟩ ∧ q = 0) ∨
    (pt.x < p ∧ pt.y < p ∧ ∃ h : (curve p a b).Nonsingular (pt.x : ZMod p) (pt.y : ZMod p), q = .some _ _ h)

/-- A canonical Jacobian point stands for the affine point `(X / Z^2, Y / Z^3)`, `(1, 1, 0)` for infinity (R16, R18). -/
def RepresentsJ {p : Nat} [Fact p.Prime] {a b : ZMod p} (pt : JPoint) (q : (curve p a b).Point) : Prop :=
  (pt = ⟨1, 1, 0⟩ ∧ q = 0) ∨
    (pt.x < p ∧ pt.y < p ∧ 0 < pt.z ∧ pt.z < p ∧
      ∃ h : (curve p a b).Nonsingular ((pt.x : ZMod p) / (pt.z : ZMod p) ^ 2) ((pt.y : ZMod p) / (pt.z : ZMod p) ^ 3),
        q = .some _ _ h)

end Sys2Proof.Machine
end

