-- ==== Sys2Proof/Certificates/Slice0/Obligations.lean ====
section
/-! DEFINITION. The statements for the provers, from the numbered rules of spec/. A premise that bounds a valid
slot's modulus away from 0, or asks `ModSlot.Inv`, rules out states that no run reaches; `StepKeepsInvariant` and
`ResetMeetsInvariant` state that invariant. -/

open Sys2Proof Sys2Proof.Machine

/-! ### Encoding -/

/-- 30_encoding.md R100, R104: no bit of a well-formed command is lost. -/
def Obligations.DecodeInvertsEncode : Prop := ∀ i : Instr, i.wf = true → decode (encode i) = .ok i

/-- R104, R106: a legal word is the word of the one command it decodes to, which is well formed. -/
def Obligations.EncodeInvertsDecode : Prop := ∀ (c : Word) (i : Instr), decode c = .ok i → encode i = c ∧ i.wf = true

/-- R101, R102, R104, R106: every word is a legal word of R104's table or one of the two error cases; 21 opcodes
are assigned and 235 are not. -/
def Obligations.DecodeFollowsOpcodeTable : Prop :=
  (∀ c : Word,
    match opcodeRow (wordField c 24 8) with
    | none => decode c = .error .illegalOpcode
    | some r => if fieldsLegal r c = true then ∃ i, decode c = .ok i else decode c = .error .illegalOperand) ∧
  ((List.range 256).filter fun k => (opcodeRow k).isSome).length = 21 ∧
  ((List.range 256).filter fun k => (opcodeRow k).isNone).length = 235

/-- R111. -/
def Obligations.WorkedEncodings : Prop :=
  decode 0x12003120#32 = .ok (.modmul .p 3 1 2) ∧ encode (.modmul .p 3 1 2) = 0x12003120#32 ∧
  decode 0x12803120#32 = .ok (.modmul .n 3 1 2) ∧ encode (.modmul .n 3 1 2) = 0x12803120#32 ∧
  decode 0x13405120#32 = .ok (.modred .p true 5 1 2) ∧ encode (.modred .p true 5 1 2) = 0x13405120#32 ∧
  decode 0x2A00A940#32 = .ok (.pmulj 10 9 4) ∧ encode (.pmulj 10 9 4) = 0x2A00A940#32 ∧
  decode 0x00000000#32 = .ok .nop ∧ encode .nop = 0x00000000#32 ∧
  decode 0x12003121#32 = .error .illegalOperand ∧
  decode 0x03000000#32 = .error .illegalOpcode ∧
  decode 0x2000F000#32 = .error .illegalOperand

/-! ### Steps: acceptance, completion, checks -/

/-- R226, R262: the completion of a busy engine runs the meaning of the command its word decodes to, on the state
with the event taken off; the model also completes when no event is pending (log 6). -/
def Obligations.StepRunsDecodedCommand : Prop :=
  ∀ (s : State) (c : Word) (n : Nat) (i : Instr), s.engine = .busy c n → decode c = .ok i →
    (∀ rest, s.pending = .engineDone :: rest → step s = exec i { s with pending := rest }) ∧
    (s.pending = [] → step s = exec i s)

/-- R105, R227: the completion raises the first error of R105's order, and then writes BUSY, DONE, ERR and ERRCODE
and nothing else; a command that passes every check succeeds. -/
def Obligations.CommandChecksInOrder : Prop :=
  ∀ (s : State) (c : Word) (n : Nat) (rest : List Event), s.engine = .busy c n → s.pending = .engineDone :: rest →
    match commandError c s with
    | some e => step s = .next (failedState e { s with pending := rest })
    | none => ∃ t, step s = .next t ∧ t.busy = false ∧ t.done = true ∧ t.err = false ∧ t.errcode = 0#4

/-- R225: acceptance at once, and the operands stay what they were until the completion. -/
def Obligations.AcceptanceLatchesOperands : Prop :=
  (∀ (s : State) (c : Word) (rest : List Event), s.busy = false → s.pending = writeEvent 0x018 c :: rest →
    step s = .next { s with cmd := c, engine := .busy c 0, done := false, err := false, errcode := 0#4,
                            pending := rest, reply := .ack }) ∧
  (∀ (s t : State) (c : Word) (n : Nat), s.engine = .busy c n → step s = .next t → t.busy = true →
    (∃ m, t.engine = .busy c m) ∧ t.cmd = s.cmd ∧ t.regs = s.regs ∧ t.slotP = s.slotP ∧ t.slotN = s.slotN ∧
      t.a = s.a ∧ t.width = s.width ∧ t.flags = s.flags)

/-- R42: what a write to CMD does, and a read: the last word accepted, which nothing but an acceptance or a reset
changes. -/
def Obligations.CmdRegister : Prop :=
  (∀ (s : State) (c : Word) (rest : List Event), s.busy = false → s.pending = writeEvent 0x018 c :: rest →
    ∃ t, step s = .next t ∧ t.cmd = c ∧ t.engine = .busy c 0) ∧
  (∀ (s : State) (c : Word) (rest : List Event), s.busy = true → s.pending = writeEvent 0x018 c :: rest →
    step s = .next { s with ovr := true, pending := rest, reply := .ack }) ∧
  (∀ s : State, s.busRead 0x018 = s.cmd) ∧
  (∀ s t : State, step s = .next t → t.cmd ≠ s.cmd →
    (∃ c rest, s.busy = false ∧ s.pending = writeEvent 0x018 c :: rest ∧ t.cmd = c) ∨
      ∃ e rest, s.pending = e :: rest ∧ IsReset e) ∧
  State.reset.busRead 0x018 = 0#32

/-- R262: an accepted command completes after finitely many steps, unless a reset abandons it. -/
def Obligations.BusyEngineCompletes : Prop :=
  ∀ s : State, s.busy = true → (∀ e ∈ s.pending, quietEvent e) →
    ∃ k t, k ≤ s.pending.length + 1 ∧ Sys2Proof.core.run k s = .next t ∧ t.busy = false ∧ t.done = true ∧ t.cmd = s.cmd

/-! ### Invariant and whole-machine rules -/

/-- R7, R50: the state after reset meets the invariant. The operand registers' values there are log 2's. -/
def Obligations.ResetMeetsInvariant : Prop := State.reset.Inv

/-- R7, R12, R35, R36, R37, R39, R40, R225: every step keeps the invariant. -/
def Obligations.StepKeepsInvariant : Prop := ∀ s t : State, s.Inv → step s = .next t → t.Inv

/-- R31, R32, R35, R37, R41, R227: what a command's completion leaves unchanged. -/
def Obligations.CommandFrame : Prop :=
  ∀ (i : Instr) (s t : State), exec i s = .next t →
    (∀ r, r ∉ commandDests i → t.x r = s.x r) ∧
    (∀ ms, (∀ ra, i ≠ .modset ms ra) → t.slot ms = s.slot ms) ∧
    ((∀ ra, i ≠ .seta ra) → t.a = s.a) ∧
    (i = .nop → t.flags = s.flags) ∧
    (t.err = true → t.regs = s.regs ∧ t.slotP = s.slotP ∧ t.slotN = s.slotN ∧ t.a = s.a ∧ t.flags = s.flags) ∧
    CommandKeeps s t

/-- R35, R37: a slot changes only by a MODSET that completes with no error, which makes it valid, and `A` only by
SETA, but for the two resets. -/
def Obligations.SlotsWrittenOnlyByModset : Prop :=
  ∀ s t : State, step s = .next t → (∀ e, s.pending.head? = some e → ¬ IsReset e) →
    (∀ ms, t.slot ms ≠ s.slot ms → ∃ c n ra, s.engine = .busy c n ∧ decode c = .ok (.modset ms ra) ∧
      t.done = true ∧ t.err = false ∧ (t.slot ms).v = true ∧ (t.slot ms).mod = s.x ra) ∧
    (t.a ≠ s.a → ∃ c n ra, s.engine = .busy c n ∧ decode c = .ok (.seta ra) ∧ t.done = true ∧ t.a = s.x ra)

/-! ### The register window -/

/-- R81, R224: writes and reads while a command is in flight. Words of a register at or above `NW` are left out
here (log 12). -/
def Obligations.AccessesWhileBusy : Prop :=
  ∀ (s : State) (off : Nat) (v : Word) (rest : List Event), s.busy = true → off < 0x1000 → off % 4 = 0 →
    (s.pending = writeEvent off v :: rest →
      (off = 0x018 ∨ (0x400 ≤ off ∧ off < 0xC00 ∧ off % 0x80 / 4 < s.width / 32) →
        step s = .next { s with ovr := true, pending := rest, reply := .ack }) ∧
      (off = 0x00C → v.getLsbD 1 = false →
        step s = .next { s with ie := v.getLsbD 0, pending := rest, reply := .ack }) ∧
      (off = 0x00C → v.getLsbD 1 = true → ∃ t, step s = .next t ∧ t.busy = false ∧ t.done = false) ∧
      (off = 0x010 → s.done = false →
        step s = .next { s with ovr := s.ovr && !v.getLsbD 3, pending := rest, reply := .ack }) ∧
      (off ≠ 0x018 → off ≠ 0x00C → off ≠ 0x010 → ¬ (0x400 ≤ off ∧ off < 0xC00) →
        step s = .next { s with pending := rest, reply := .ack })) ∧
    (s.pending = readEvent off :: rest →
      step s = .next { s with pending := rest, reply := .data (s.busRead off) })

/-- R77, R223: an illegal access gets the error response and changes no EAU state. -/
def Obligations.BusFaultChangesNothing : Prop :=
  ∀ (s : State) (a : Access) (rest : List Event), a.off < 0x1000 → (a.size ≠ .word ∨ a.off % 4 ≠ 0) →
    s.pending = .access a :: rest → step s = .next { s with pending := rest, reply := .busFault a.off }

/-- R78: reads change nothing and repeat; every write but CMD and SRST repeats. -/
def Obligations.AccessesAreIdempotent : Prop :=
  (∀ (s : State) (off : Nat) (rest : List Event), off < 0x1000 → off % 4 = 0 → s.pending = readEvent off :: rest →
    step s = .next { s with pending := rest, reply := .data (s.busRead off) } ∧
    ({ s with pending := rest, reply := .data (s.busRead off) } : State).busRead off = s.busRead off) ∧
  (∀ (s : State) (off : Nat) (v : Word), off < 0x1000 → off % 4 = 0 → off ≠ 0x018 →
    ¬ (off = 0x00C ∧ v.getLsbD 1 = true) → (s.busWrite off v).busWrite off v = s.busWrite off v)

/-- R80, R72: reserved and read-only offsets and bits. -/
def Obligations.ReservedAndReadOnly : Prop :=
  (∀ (s : State) (off : Nat), off % 4 = 0 → (0x020 ≤ off ∧ off < 0x400) ∨ (0xD80 ≤ off ∧ off < 0x1000) →
    s.busRead off = 0#32) ∧
  (∀ (s : State) (off : Nat) (v : Word) (rest : List Event), off % 4 = 0 →
    (off = 0x000 ∨ off = 0x004 ∨ off = 0x008 ∨ off = 0x014 ∨ (0x01C ≤ off ∧ off < 0x400) ∨
      (0xC00 ≤ off ∧ off < 0x1000)) →
    s.pending = writeEvent off v :: rest → step s = .next { s with pending := rest, reply := .ack }) ∧
  (∀ s : State, wordField (s.busRead 0x00C) 1 31 = 0 ∧ wordField (s.busRead 0x010) 4 4 = 0 ∧
    wordField (s.busRead 0x010) 12 4 = 0 ∧ wordField (s.busRead 0x010) 20 12 = 0 ∧
    wordField (s.busRead 0x014) 4 28 = 0 ∧ wordField (s.busRead 0x008) 24 8 = 0) ∧
  (∀ (s : State) (v : Word), s.busWrite 0x00C v = s.busWrite 0x00C (v &&& 0x3#32) ∧
    s.busWrite 0x010 v = s.busWrite 0x010 (v &&& 0xA#32))

/-- R73: the words of the operand registers. -/
def Obligations.OperandRegisterWords : Prop :=
  ∀ (s : State) (i : Reg) (j : Nat), j < 32 →
    (j < s.width / 32 → ∀ k, k < 32 →
      (s.busRead (0x400 + 0x80 * i.val + 4 * j)).getLsbD k = (s.x i).testBit (32 * j + k)) ∧
    (s.width / 32 ≤ j → s.busRead (0x400 + 0x80 * i.val + 4 * j) = 0#32) ∧
    (∀ (v : Word) (rest : List Event), s.busy = false →
      s.pending = writeEvent (0x400 + 0x80 * i.val + 4 * j) v :: rest →
      (j < s.width / 32 → ∃ t, step s = .next t ∧
        t = { s with regs := t.regs, pending := rest, reply := .ack } ∧
        (∀ r, r ≠ i → t.x r = s.x r) ∧
        ∀ k, (t.x i).testBit k =
          if 32 * j ≤ k ∧ k < 32 * j + 32 then v.getLsbD (k - 32 * j) else (s.x i).testBit k) ∧
      (s.width / 32 ≤ j → step s = .next { s with pending := rest, reply := .ack }))

/-- R74: the windows onto the slots and `A`. -/
def Obligations.ReadOnlyValueWindows : Prop :=
  ∀ (s : State) (j : Nat), j < 32 →
    (j < s.width / 32 → ∀ k, k < 32 →
      (s.busRead (0xC00 + 4 * j)).getLsbD k = s.slotP.mod.testBit (32 * j + k) ∧
      (s.busRead (0xC80 + 4 * j)).getLsbD k = s.slotN.mod.testBit (32 * j + k) ∧
      (s.busRead (0xD00 + 4 * j)).getLsbD k = s.a.testBit (32 * j + k)) ∧
    (s.width / 32 ≤ j → s.busRead (0xC00 + 4 * j) = 0#32 ∧ s.busRead (0xC80 + 4 * j) = 0#32 ∧
      s.busRead (0xD00 + 4 * j) = 0#32) ∧
    (∀ (base : Nat) (v : Word) (rest : List Event), base = 0xC00 ∨ base = 0xC80 ∨ base = 0xD00 →
      s.pending = writeEvent (base + 4 * j) v :: rest → step s = .next { s with pending := rest, reply := .ack })

/-- R40: the layout of STATUS, its W1C bits, its reset value, and the codes never produced. -/
def Obligations.StatusLayout : Prop :=
  (∀ s : State, let w := s.busRead 0x010
    w.getLsbD 0 = s.busy ∧ w.getLsbD 1 = s.done ∧ w.getLsbD 2 = s.err ∧ w.getLsbD 3 = s.ovr ∧
    wordField w 4 4 = 0 ∧ wordField w 8 4 = s.errcode.toNat ∧ wordField w 12 4 = 0 ∧
    w.getLsbD 16 = s.slotP.v ∧ w.getLsbD 17 = s.slotN.v ∧ w.getLsbD 18 = (s.slotP.v && s.slotP.odd) ∧
    w.getLsbD 19 = (s.slotN.v && s.slotN.odd) ∧ wordField w 20 12 = 0) ∧
  (∀ (s : State) (v : Word) (rest : List Event), s.pending = writeEvent 0x010 v :: rest →
    step s = .next { s with done := s.done && !v.getLsbD 1, ovr := s.ovr && !v.getLsbD 3,
                            pending := rest, reply := .ack }) ∧
  State.reset.busRead 0x010 = 0#32 ∧
  (∀ s t : State, step s = .next t → s.errcode.toNat ≤ 5 → t.errcode.toNat ≤ 5)

/-- R38: CTRL reads IE, and a write acts whether or not the engine is busy. -/
def Obligations.ControlRegister : Prop :=
  (∀ s : State, (s.busRead 0x00C).getLsbD 0 = s.ie ∧ wordField (s.busRead 0x00C) 1 31 = 0) ∧
  (∀ (s : State) (v : Word) (rest : List Event), s.pending = writeEvent 0x00C v :: rest →
    (v.getLsbD 1 = false → step s = .next { s with ie := v.getLsbD 0, pending := rest, reply := .ack }) ∧
    (v.getLsbD 1 = true → ∃ t, step s = .next t ∧ ResetValues t ∧ t.regs = s.regs)) ∧
  (∀ s : State, s.irq = (s.ie && s.done)) ∧ State.reset.busRead 0x00C = 0#32

/-- R41: the layout of FLAGS, and the flags every successful command leaves; NOP and a failed command leave them. -/
def Obligations.FlagsRegister : Prop :=
  (∀ s : State, let w := s.busRead 0x014
    w.getLsbD 0 = s.flags.z ∧ w.getLsbD 1 = s.flags.inf ∧ w.getLsbD 2 = s.flags.noinv ∧ w.getLsbD 3 = s.flags.lt ∧
    wordField w 4 28 = 0) ∧
  State.reset.busRead 0x014 = 0#32 ∧
  (∀ (i : Instr) (s t : State), exec i s = .next t →
    (t.err = true → t.flags = s.flags) ∧ (t.err = false → FlagRule i s t t.flags))

/-- R44. -/
def Obligations.KbitsRegister : Prop :=
  (∀ s : State, s.slotP.k < 2 ^ 16 → s.slotN.k < 2 ^ 16 →
    wordField (s.busRead 0x01C) 0 16 = (if s.slotP.v = true then s.slotP.k else 0) ∧
    wordField (s.busRead 0x01C) 16 16 = (if s.slotN.v = true then s.slotN.k else 0)) ∧
  (∀ (s : State) (v : Word) (rest : List Event), s.pending = writeEvent 0x01C v :: rest →
    step s = .next { s with pending := rest, reply := .ack }) ∧
  State.reset.busRead 0x01C = 0#32

/-- R45, R46, R47: the identification registers are constants of every state of every build. -/
def Obligations.IdentificationRegisters : Prop :=
  (∀ s : State, s.busRead 0x000 = 0x52424541#32 ∧ s.busRead 0x004 = 0x00010000#32) ∧
  (∀ s : State, Config.legalWidth s.width = true →
    wordField (s.busRead 0x008) 0 16 = s.width ∧ wordField (s.busRead 0x008) 16 8 = 16 ∧
    wordField (s.busRead 0x008) 24 8 = 0) ∧
  State.reset.busRead 0x008 = 0x00100240#32 ∧
  (∀ s t : State, step s = .next t → t.busRead 0x008 = s.busRead 0x008) ∧
  (∀ (s : State) (off : Nat) (v : Word) (rest : List Event), off = 0x000 ∨ off = 0x004 ∨ off = 0x008 →
    s.pending = writeEvent off v :: rest → step s = .next { s with pending := rest, reply := .ack })

/-- R49, R231: the interrupt line: what raises it and what clears it. -/
def Obligations.InterruptLine : Prop :=
  (∀ s : State, s.irq = true ↔ s.ie = true ∧ s.done = true) ∧ State.reset.irq = false ∧
  (∀ (s t : State) (c : Word) (n : Nat) (rest : List Event), s.engine = .busy c n →
    s.pending = .engineDone :: rest → step s = .next t → t.irq = s.ie) ∧
  (∀ (s t : State) (v : Word) (rest : List Event), s.pending = writeEvent 0x010 v :: rest → v.getLsbD 1 = true →
    step s = .next t → t.irq = false) ∧
  (∀ (s t : State) (v : Word) (rest : List Event), s.busy = false → s.pending = writeEvent 0x018 v :: rest →
    step s = .next t → t.irq = false) ∧
  (∀ (s t : State) (v : Word) (rest : List Event), s.pending = writeEvent 0x00C v :: rest → v.getLsbD 1 = false →
    step s = .next t → t.irq = (v.getLsbD 0 && s.done)) ∧
  (∀ (s t : State) (e : Event) (rest : List Event), s.pending = e :: rest → IsReset e → step s = .next t → t.irq = false)

/-- R50, R252: hardware reset, from every state, busy or not; the operand registers are unspecified, so only that
they hold `W`-bit values is said. -/
def Obligations.HardwareResetValues : Prop :=
  ResetValues State.reset ∧
  ∀ (s : State) (rest : List Event), s.pending = .hwReset :: rest →
    ∃ t, step s = .next t ∧ ResetValues t ∧ t.done = false ∧ t.ie = false ∧ t.pending = rest ∧ t.width = s.width ∧
      ∀ r, t.x r < 2 ^ s.width

/-- R253: soft reset keeps the operand registers, and the two resets alone end a command before its completion. -/
def Obligations.SoftResetKeepsRegisters : Prop :=
  (∀ (s : State) (v : Word) (rest : List Event), s.pending = writeEvent 0x00C v :: rest →
    (v.getLsbD 1 = true → ∃ t, step s = .next t ∧ ResetValues t ∧ t.regs = s.regs ∧ t.busy = false ∧
      t.done = false ∧ t.ie = false ∧ t.width = s.width ∧ t.pending = rest) ∧
    (v.getLsbD 1 = false → step s = .next { s with ie := v.getLsbD 0, pending := rest, reply := .ack })) ∧
  (∀ s t : State, s.busy = true → step s = .next t → t.busy = false →
    t.done = true ∨ ∃ e rest, s.pending = e :: rest ∧ IsReset e)

/-! ### Control commands -/

/-- R131: NOP completes, with no flag or register written, and raises DONE and the interrupt if it is enabled. -/
def Obligations.NopCompletes : Prop :=
  decode 0x00000000#32 = .ok .nop ∧ (∀ c : Word, decode c = .ok .nop → c = 0x00000000#32) ∧
  ∀ s : State, ∃ t, exec .nop s = .next t ∧ Ran s t [] ∧ SlotsKept s t ∧ t.flags = s.flags ∧ t.irq = s.ie

/-- R132. -/
def Obligations.MovCopies : Prop :=
  ∀ (rd ra : Reg) (s : State), decode (formatC 0x01 0 0 rd ra 0) = .ok (.mov rd ra) ∧
    ∃ t, exec (.mov rd ra) s = .next t ∧ Ran s t [rd] ∧ SlotsKept s t ∧ t.x rd = s.x ra ∧
      t.flags = ⟨decide (s.x ra = 0), false, false, false⟩

/-- R133. -/
def Obligations.CmpCompares : Prop :=
  ∀ (ra rb : Reg) (s : State), decode (formatC 0x02 0 0 0 ra rb) = .ok (.cmp ra rb) ∧
    ∃ t, exec (.cmp ra rb) s = .next t ∧ Ran s t [] ∧ SlotsKept s t ∧
      t.flags = ⟨decide (s.x ra = s.x rb), false, false, decide (s.x ra < s.x rb)⟩

/-- R134, with R36's constants; the bit length is R11's. -/
def Obligations.ModsetLoadsSlot : Prop :=
  ∀ (ms : Slot) (ra : Reg) (s : State), decode (formatC 0x08 (slotNum ms) 0 0 ra 0) = .ok (.modset ms ra) ∧
    (s.x ra = 0 → exec (.modset ms ra) s = .next (failedState .divZero s)) ∧
    (s.x ra ≠ 0 → ∃ t, exec (.modset ms ra) s = .next t ∧ Ran s t [] ∧ t.a = s.a ∧
      (∀ o, o ≠ ms → t.slot o = s.slot o) ∧ (t.slot ms).mod = s.x ra ∧ (t.slot ms).v = true ∧
      2 ^ ((t.slot ms).k - 1) ≤ s.x ra ∧ s.x ra < 2 ^ (t.slot ms).k ∧
      (t.slot ms).mu = 2 ^ (2 * (t.slot ms).k) / s.x ra ∧
      32 ∣ (t.slot ms).rb ∧ (t.slot ms).k ≤ (t.slot ms).rb ∧ (t.slot ms).rb < (t.slot ms).k + 32 ∧
      (t.slot ms).odd = decide (s.x ra % 2 = 1) ∧ t.flags = ⟨false, false, false, false⟩)

/-- R135. -/
def Obligations.SetaLoadsCoefficient : Prop :=
  ∀ (ra : Reg) (s : State), decode (formatC 0x09 0 0 0 ra 0) = .ok (.seta ra) ∧
    ∃ t, exec (.seta ra) s = .next t ∧ Ran s t [] ∧ t.slotP = s.slotP ∧ t.slotN = s.slotN ∧ t.a = s.x ra ∧
      t.flags = ⟨decide (s.x ra = 0), false, false, false⟩

/-! ### Modular commands -/

/-- R151. -/
def Obligations.ModaddResult : Prop :=
  ∀ (ms : Slot) (rd ra rb : Reg) (s : State),
    decode (formatC 0x10 (slotNum ms) 0 rd ra rb) = .ok (.modadd ms rd ra rb) ∧
    ((s.slot ms).v = false → exec (.modadd ms rd ra rb) s = .next (failedState .modInvalid s)) ∧
    ((s.slot ms).v = true → 0 < (s.slot ms).mod → ∃ t, exec (.modadd ms rd ra rb) s = .next t ∧ Ran s t [rd] ∧
      SlotsKept s t ∧ IsResidue (t.x rd) ((s.x ra : Int) + s.x rb) (s.slot ms).mod ∧
      t.flags = ⟨decide (t.x rd = 0), false, false, false⟩)

/-- R152, floored, so that a zero residue is 0 (90 C2). -/
def Obligations.ModsubResult : Prop :=
  ∀ (ms : Slot) (rd ra rb : Reg) (s : State),
    decode (formatC 0x11 (slotNum ms) 0 rd ra rb) = .ok (.modsub ms rd ra rb) ∧
    ((s.slot ms).v = false → exec (.modsub ms rd ra rb) s = .next (failedState .modInvalid s)) ∧
    ((s.slot ms).v = true → 0 < (s.slot ms).mod → ∃ t, exec (.modsub ms rd ra rb) s = .next t ∧ Ran s t [rd] ∧
      SlotsKept s t ∧ IsResidue (t.x rd) ((s.x ra : Int) - s.x rb) (s.slot ms).mod ∧
      t.flags = ⟨decide (t.x rd = 0), false, false, false⟩)

/-- R153: the ordinary residue of the exact product. -/
def Obligations.ModmulResult : Prop :=
  ∀ (ms : Slot) (rd ra rb : Reg) (s : State),
    decode (formatC 0x12 (slotNum ms) 0 rd ra rb) = .ok (.modmul ms rd ra rb) ∧
    ((s.slot ms).v = false → exec (.modmul ms rd ra rb) s = .next (failedState .modInvalid s)) ∧
    ((s.slot ms).v = true → 0 < (s.slot ms).mod → ∃ t, exec (.modmul ms rd ra rb) s = .next t ∧ Ran s t [rd] ∧
      SlotsKept s t ∧ IsResidue (t.x rd) ((s.x ra : Int) * s.x rb) (s.slot ms).mod ∧
      t.flags = ⟨decide (t.x rd = 0), false, false, false⟩)

/-- R154: the double-width operand, negated where S is 1. -/
def Obligations.ModredResult : Prop :=
  ∀ (ms : Slot) (neg : Bool) (rd ra rb : Reg) (s : State),
    decode (formatC 0x13 (slotNum ms) neg.toNat rd ra rb) = .ok (.modred ms neg rd ra rb) ∧
    ((s.slot ms).v = false → exec (.modred ms neg rd ra rb) s = .next (failedState .modInvalid s)) ∧
    ((s.slot ms).v = true → 0 < (s.slot ms).mod → ∃ t, exec (.modred ms neg rd ra rb) s = .next t ∧ Ran s t [rd] ∧
      SlotsKept s t ∧
      IsResidue (t.x rd) ((if neg = true then -1 else 1) * ((s.x ra : Int) * 2 ^ s.width + s.x rb)) (s.slot ms).mod ∧
      t.flags = ⟨decide (t.x rd = 0), false, false, false⟩)

/-- R155 with R16's inverse: the unique inverse, or 0 and NOINV. -/
def Obligations.ModinvResult : Prop :=
  ∀ (ms : Slot) (rd ra : Reg) (s : State),
    decode (formatC 0x14 (slotNum ms) 0 rd ra 0) = .ok (.modinv ms rd ra) ∧
    ((s.slot ms).v = false → exec (.modinv ms rd ra) s = .next (failedState .modInvalid s)) ∧
    ((s.slot ms).v = true → 0 < (s.slot ms).mod → ∃ t, exec (.modinv ms rd ra) s = .next t ∧ Ran s t [rd] ∧
      SlotsKept s t ∧
      (Nat.gcd (s.x ra) (s.slot ms).mod = 1 → t.x rd < (s.slot ms).mod ∧
        s.x ra * t.x rd % (s.slot ms).mod = 1 % (s.slot ms).mod ∧
        t.flags = ⟨decide (t.x rd = 0), false, false, false⟩) ∧
      (Nat.gcd (s.x ra) (s.slot ms).mod ≠ 1 → t.x rd = 0 ∧ t.flags = ⟨true, false, true, false⟩))

/-- R16: `inv` on every integer and modulus. -/
def Obligations.InverseOrNoInverse : Prop :=
  ∀ (a : Int) (m : Nat), 0 < m →
    (Int.gcd a m = 1 → (inv a m).2 = false ∧ (inv a m).1 < m ∧ (m : Int) ∣ a * (inv a m).1 - 1) ∧
    (Int.gcd a m ≠ 1 → inv a m = (0, true))

/-- R156: Barrett reduction with the slot's constants gives the residue of every value below `2^(2k)`. -/
def Obligations.BarrettReductionExact : Prop :=
  ∀ m v : Nat, 0 < m → v < 2 ^ (2 * (ModSlot.load m).k) →
    barrettReduce m (ModSlot.load m).k (ModSlot.load m).mu v = v % m

/-! ### Montgomery commands -/

/-- R171, R170: the Montgomery product, characterised by `v * Rm = a * b` modulo `m`. -/
def Obligations.MontmulResult : Prop :=
  ∀ (ms : Slot) (rd ra rb : Reg) (s : State),
    decode (formatC 0x18 (slotNum ms) 0 rd ra rb) = .ok (.montmul ms rd ra rb) ∧
    ((s.slot ms).v = false → exec (.montmul ms rd ra rb) s = .next (failedState .modInvalid s)) ∧
    ((s.slot ms).v = true → (s.slot ms).odd = false →
      exec (.montmul ms rd ra rb) s = .next (failedState .badMod s)) ∧
    ((s.slot ms).v = true → (s.slot ms).odd = true → (s.slot ms).Inv s.width →
      ∃ t, exec (.montmul ms rd ra rb) s = .next t ∧ Ran s t [rd] ∧ SlotsKept s t ∧ t.x rd < (s.slot ms).mod ∧
        t.x rd * 2 ^ (32 * (((s.slot ms).k + 31) / 32)) % (s.slot ms).mod = s.x ra * s.x rb % (s.slot ms).mod ∧
        t.flags = ⟨decide (t.x rd = 0), false, false, false⟩)

/-- R172. -/
def Obligations.TomontResult : Prop :=
  ∀ (ms : Slot) (rd ra : Reg) (s : State),
    decode (formatC 0x19 (slotNum ms) 0 rd ra 0) = .ok (.tomont ms rd ra) ∧
    ((s.slot ms).v = false → exec (.tomont ms rd ra) s = .next (failedState .modInvalid s)) ∧
    ((s.slot ms).v = true → (s.slot ms).odd = false → exec (.tomont ms rd ra) s = .next (failedState .badMod s)) ∧
    ((s.slot ms).v = true → (s.slot ms).odd = true → (s.slot ms).Inv s.width →
      ∃ t, exec (.tomont ms rd ra) s = .next t ∧ Ran s t [rd] ∧ SlotsKept s t ∧
        t.x rd = s.x ra * 2 ^ (32 * (((s.slot ms).k + 31) / 32)) % (s.slot ms).mod ∧
        t.flags = ⟨decide (t.x rd = 0), false, false, false⟩)

/-- R173, characterised by `v * Rm = a` modulo `m`. -/
def Obligations.FrommontResult : Prop :=
  ∀ (ms : Slot) (rd ra : Reg) (s : State),
    decode (formatC 0x1A (slotNum ms) 0 rd ra 0) = .ok (.frommont ms rd ra) ∧
    ((s.slot ms).v = false → exec (.frommont ms rd ra) s = .next (failedState .modInvalid s)) ∧
    ((s.slot ms).v = true → (s.slot ms).odd = false → exec (.frommont ms rd ra) s = .next (failedState .badMod s)) ∧
    ((s.slot ms).v = true → (s.slot ms).odd = true → (s.slot ms).Inv s.width →
      ∃ t, exec (.frommont ms rd ra) s = .next t ∧ Ran s t [rd] ∧ SlotsKept s t ∧ t.x rd < (s.slot ms).mod ∧
        t.x rd * 2 ^ (32 * (((s.slot ms).k + 31) / 32)) % (s.slot ms).mod = s.x ra % (s.slot ms).mod ∧
        t.flags = ⟨decide (t.x rd = 0), false, false, false⟩)

/-- R174, R173: the domain laws, as runs of commands. The registers `r1`, `r2` hold the Montgomery forms; the
second must not overwrite the first, nor the first the second's source. -/
def Obligations.MontgomeryDomainLaws : Prop :=
  ∀ (ms : Slot) (ra rb r1 r2 r3 r4 : Reg) (s : State), (s.slot ms).v = true → (s.slot ms).odd = true →
    (s.slot ms).Inv s.width → r1 ≠ rb → r1 ≠ r2 →
    (∃ t, runCommands [.tomont ms r1 ra, .frommont ms r4 r1] s = .next t ∧ t.x r4 = s.x ra % (s.slot ms).mod) ∧
    (∃ t, runCommands [.tomont ms r1 ra, .tomont ms r2 rb, .montmul ms r3 r1 r2, .frommont ms r4 r3] s = .next t ∧
      t.x r4 = s.x ra * s.x rb % (s.slot ms).mod) ∧
    (∃ t u, runCommands [.tomont ms r1 ra, .tomont ms r2 rb, .montmul ms r3 r1 r2] s = .next t ∧
      runCommands [.modmul ms r3 ra rb, .tomont ms r3 r3] s = .next u ∧ t.x r3 = u.x r3)

/-! ### Point functions -/

/-- R181, R182: affine addition and doubling on canonical points, case by case; the slope is a field element `lam`
that divides where the inverse exists and is 0 where it does not. -/
def Obligations.AffineFormulas : Prop :=
  (∀ (p a : Nat) (pt qt : APoint), pt.x < p → pt.y < p → qt.x < p → qt.y < p →
    (pt = ⟨0, 0⟩ → aadd p a pt qt = (qt, false)) ∧
    (pt ≠ ⟨0, 0⟩ → qt = ⟨0, 0⟩ → aadd p a pt qt = (pt, false)) ∧
    (pt ≠ ⟨0, 0⟩ → qt ≠ ⟨0, 0⟩ → pt.x = qt.x → pt.y ≠ qt.y → aadd p a pt qt = (⟨0, 0⟩, false)) ∧
    (pt ≠ ⟨0, 0⟩ → pt = qt → aadd p a pt qt = adbl p a pt) ∧
    (pt ≠ ⟨0, 0⟩ → qt ≠ ⟨0, 0⟩ → pt.x ≠ qt.x → ∃ (r : APoint) (ni : Bool) (lam : ZMod p),
      aadd p a pt qt = (r, ni) ∧ r.x < p ∧ r.y < p ∧ (ni = true ↔ Int.gcd ((qt.x : Int) - pt.x) p ≠ 1) ∧
      (ni = false → lam * ((qt.x : ZMod p) - pt.x) = (qt.y : ZMod p) - pt.y) ∧ (ni = true → lam = 0) ∧
      (r.x : ZMod p) = lam ^ 2 - pt.x - qt.x ∧ (r.y : ZMod p) = lam * ((pt.x : ZMod p) - r.x) - pt.y)) ∧
  (∀ (p a : Nat) (pt : APoint), pt.x < p → pt.y < p →
    (pt.y = 0 → adbl p a pt = (⟨0, 0⟩, false)) ∧
    (pt.y ≠ 0 → ∃ (r : APoint) (ni : Bool) (lam : ZMod p),
      adbl p a pt = (r, ni) ∧ r.x < p ∧ r.y < p ∧ (ni = true ↔ Nat.gcd (2 * pt.y) p ≠ 1) ∧
      (ni = false → lam * (2 * (pt.y : ZMod p)) = 3 * (pt.x : ZMod p) ^ 2 + a) ∧ (ni = true → lam = 0) ∧
      (r.x : ZMod p) = lam ^ 2 - 2 * pt.x ∧ (r.y : ZMod p) = lam * ((pt.x : ZMod p) - r.x) - pt.y))

/-- R183: Jacobian doubling, its exact triple modulo `p`. -/
def Obligations.JacobianDoubling : Prop :=
  ∀ (p a : Nat) (pt : JPoint), 0 < p →
    (pt.z = 0 ∨ pt.y = 0 → jdbl p a pt = ⟨1, 1, 0⟩) ∧
    (pt.z ≠ 0 → pt.y ≠ 0 →
      let x : ZMod p := pt.x
      let y : ZMod p := pt.y
      let z : ZMod p := pt.z
      let m : ZMod p := 3 * x ^ 2 + a * z ^ 4
      let s : ZMod p := 4 * x * y ^ 2
      (2 * y * z = 0 → jdbl p a pt = ⟨1, 1, 0⟩) ∧
      (2 * y * z ≠ 0 → ∃ r : JPoint, jdbl p a pt = r ∧ r.x < p ∧ r.y < p ∧ 0 < r.z ∧ r.z < p ∧
        (r.x : ZMod p) = m ^ 2 - 2 * s ∧ (r.y : ZMod p) = m * (s - r.x) - 8 * y ^ 4 ∧
        (r.z : ZMod p) = 2 * y * z))

/-- R184: Jacobian addition, its cases and its exact triple modulo `p`. -/
def Obligations.JacobianAddition : Prop :=
  ∀ (p a : Nat) (pt qt : JPoint), 0 < p →
    (pt.z = 0 → jadd p a pt qt = qt) ∧
    (pt.z ≠ 0 → qt.z = 0 → jadd p a pt qt = pt) ∧
    (pt.z ≠ 0 → qt.z ≠ 0 →
      let z1 : ZMod p := pt.z
      let z2 : ZMod p := qt.z
      let u1 : ZMod p := pt.x * z2 ^ 2
      let s1 : ZMod p := pt.y * z2 ^ 3
      let h : ZMod p := qt.x * z1 ^ 2 - u1
      let r : ZMod p := qt.y * z1 ^ 3 - s1
      (h = 0 → r ≠ 0 → jadd p a pt qt = ⟨1, 1, 0⟩) ∧
      (h = 0 → r = 0 → jadd p a pt qt = jdbl p a pt) ∧
      (h ≠ 0 → z1 * z2 * h = 0 → jadd p a pt qt = ⟨1, 1, 0⟩) ∧
      (h ≠ 0 → z1 * z2 * h ≠ 0 → ∃ q : JPoint, jadd p a pt qt = q ∧ q.x < p ∧ q.y < p ∧ 0 < q.z ∧ q.z < p ∧
        (q.x : ZMod p) = r ^ 2 - h ^ 3 - 2 * (u1 * h ^ 2) ∧
        (q.y : ZMod p) = r * (u1 * h ^ 2 - q.x) - s1 * h ^ 3 ∧ (q.z : ZMod p) = z1 * z2 * h))

/-! ### Point commands -/

/-- R185. -/
def Obligations.PaddaResult : Prop :=
  ∀ (rd ra rb : Reg) (s : State),
    (rd ≤ 14 ∧ ra ≤ 14 ∧ rb ≤ 14 →
      decode (formatC 0x20 0 0 rd ra rb) = .ok (.padda rd ra rb) ∧
      (s.slotP.v = false → exec (.padda rd ra rb) s = .next (failedState .modInvalid s)) ∧
      (s.slotP.v = true → ∃ t r, exec (.padda rd ra rb) s = .next t ∧ Ran s t [rd, rd + 1] ∧ SlotsKept s t ∧
        r = aadd s.slotP.mod (s.a % s.slotP.mod) ⟨s.x ra % s.slotP.mod, s.x (ra + 1) % s.slotP.mod⟩
          ⟨s.x rb % s.slotP.mod, s.x (rb + 1) % s.slotP.mod⟩ ∧
        t.x rd = r.1.x ∧ t.x (rd + 1) = r.1.y ∧
        t.flags = ⟨decide (r.1 = ⟨0, 0⟩), decide (r.1 = ⟨0, 0⟩), r.2, false⟩)) ∧
    (¬ (rd ≤ 14 ∧ ra ≤ 14 ∧ rb ≤ 14) → decode (formatC 0x20 0 0 rd ra rb) = .error .illegalOperand)

/-- R186. -/
def Obligations.PdblaResult : Prop :=
  ∀ (rd ra : Reg) (s : State),
    (rd ≤ 14 ∧ ra ≤ 14 →
      decode (formatC 0x21 0 0 rd ra 0) = .ok (.pdbla rd ra) ∧
      (s.slotP.v = false → exec (.pdbla rd ra) s = .next (failedState .modInvalid s)) ∧
      (s.slotP.v = true → ∃ t r, exec (.pdbla rd ra) s = .next t ∧ Ran s t [rd, rd + 1] ∧ SlotsKept s t ∧
        r = adbl s.slotP.mod (s.a % s.slotP.mod) ⟨s.x ra % s.slotP.mod, s.x (ra + 1) % s.slotP.mod⟩ ∧
        t.x rd = r.1.x ∧ t.x (rd + 1) = r.1.y ∧
        t.flags = ⟨decide (r.1 = ⟨0, 0⟩), decide (r.1 = ⟨0, 0⟩), r.2, false⟩)) ∧
    (¬ (rd ≤ 14 ∧ ra ≤ 14) → decode (formatC 0x21 0 0 rd ra 0) = .error .illegalOperand)

/-- R187; the inputs are canonicalised by `canonJ` (R16). -/
def Obligations.PaddjResult : Prop :=
  ∀ (rd ra rb : Reg) (s : State),
    (rd ≤ 13 ∧ ra ≤ 13 ∧ rb ≤ 13 →
      decode (formatC 0x28 0 0 rd ra rb) = .ok (.paddj rd ra rb) ∧
      (s.slotP.v = false → exec (.paddj rd ra rb) s = .next (failedState .modInvalid s)) ∧
      (s.slotP.v = true → ∃ t r, exec (.paddj rd ra rb) s = .next t ∧ Ran s t [rd, rd + 1, rd + 2] ∧ SlotsKept s t ∧
        r = jadd s.slotP.mod (s.a % s.slotP.mod) (canonJ ⟨s.x ra, s.x (ra + 1), s.x (ra + 2)⟩ s.slotP.mod)
          (canonJ ⟨s.x rb, s.x (rb + 1), s.x (rb + 2)⟩ s.slotP.mod) ∧
        t.x rd = r.x ∧ t.x (rd + 1) = r.y ∧ t.x (rd + 2) = r.z ∧
        t.flags = ⟨decide (r = ⟨1, 1, 0⟩), decide (r = ⟨1, 1, 0⟩), false, false⟩)) ∧
    (¬ (rd ≤ 13 ∧ ra ≤ 13 ∧ rb ≤ 13) → decode (formatC 0x28 0 0 rd ra rb) = .error .illegalOperand)

/-- R188. -/
def Obligations.PdbljResult : Prop :=
  ∀ (rd ra : Reg) (s : State),
    (rd ≤ 13 ∧ ra ≤ 13 →
      decode (formatC 0x29 0 0 rd ra 0) = .ok (.pdblj rd ra) ∧
      (s.slotP.v = false → exec (.pdblj rd ra) s = .next (failedState .modInvalid s)) ∧
      (s.slotP.v = true → ∃ t r, exec (.pdblj rd ra) s = .next t ∧ Ran s t [rd, rd + 1, rd + 2] ∧ SlotsKept s t ∧
        r = jdbl s.slotP.mod (s.a % s.slotP.mod) (canonJ ⟨s.x ra, s.x (ra + 1), s.x (ra + 2)⟩ s.slotP.mod) ∧
        t.x rd = r.x ∧ t.x (rd + 1) = r.y ∧ t.x (rd + 2) = r.z ∧
        t.flags = ⟨decide (r = ⟨1, 1, 0⟩), decide (r = ⟨1, 1, 0⟩), false, false⟩)) ∧
    (¬ (rd ≤ 13 ∧ ra ≤ 13) → decode (formatC 0x29 0 0 rd ra 0) = .error .illegalOperand)

/-- R189. -/
def Obligations.A2jResult : Prop :=
  ∀ (rd ra : Reg) (s : State),
    (rd ≤ 13 ∧ ra ≤ 14 →
      decode (formatC 0x30 0 0 rd ra 0) = .ok (.a2j rd ra) ∧
      (s.slotP.v = false → exec (.a2j rd ra) s = .next (failedState .modInvalid s)) ∧
      (s.slotP.v = true → ∃ t, exec (.a2j rd ra) s = .next t ∧ Ran s t [rd, rd + 1, rd + 2] ∧ SlotsKept s t ∧
        let inf := decide (s.x ra % s.slotP.mod = 0 ∧ s.x (ra + 1) % s.slotP.mod = 0)
        (inf = true → t.x rd = 1 ∧ t.x (rd + 1) = 1 ∧ t.x (rd + 2) = 0) ∧
        (inf = false → t.x rd = s.x ra % s.slotP.mod ∧ t.x (rd + 1) = s.x (ra + 1) % s.slotP.mod ∧
          t.x (rd + 2) = 1 % s.slotP.mod) ∧
        (0 < s.slotP.mod → t.flags = ⟨inf, inf, false, false⟩))) ∧
    (¬ (rd ≤ 13 ∧ ra ≤ 14) → decode (formatC 0x30 0 0 rd ra 0) = .error .illegalOperand)

/-- R190: one inversion of Z; where it fails the result is `(0, 0)` with NOINV. -/
def Obligations.J2aResult : Prop :=
  ∀ (rd ra : Reg) (s : State),
    (rd ≤ 14 ∧ ra ≤ 13 →
      decode (formatC 0x31 0 0 rd ra 0) = .ok (.j2a rd ra) ∧
      (s.slotP.v = false → exec (.j2a rd ra) s = .next (failedState .modInvalid s)) ∧
      (s.slotP.v = true → 0 < s.slotP.mod →
        ∃ t, exec (.j2a rd ra) s = .next t ∧ Ran s t [rd, rd + 1] ∧ SlotsKept s t ∧ t.flags.lt = false ∧
          t.flags.z = decide (t.x rd = 0 ∧ t.x (rd + 1) = 0) ∧ t.flags.inf = t.flags.z ∧
          (s.x (ra + 2) % s.slotP.mod = 0 → t.x rd = 0 ∧ t.x (rd + 1) = 0 ∧ t.flags.noinv = false) ∧
          (s.x (ra + 2) % s.slotP.mod ≠ 0 → Nat.gcd (s.x (ra + 2)) s.slotP.mod ≠ 1 →
            t.x rd = 0 ∧ t.x (rd + 1) = 0 ∧ t.flags.noinv = true) ∧
          (s.x (ra + 2) % s.slotP.mod ≠ 0 → Nat.gcd (s.x (ra + 2)) s.slotP.mod = 1 →
            t.x rd < s.slotP.mod ∧ t.x (rd + 1) < s.slotP.mod ∧ t.flags.noinv = false ∧
            t.x rd * s.x (ra + 2) ^ 2 % s.slotP.mod = s.x ra % s.slotP.mod ∧
            t.x (rd + 1) * s.x (ra + 2) ^ 3 % s.slotP.mod = s.x (ra + 1) % s.slotP.mod))) ∧
    (¬ (rd ≤ 14 ∧ ra ≤ 13) → decode (formatC 0x31 0 0 rd ra 0) = .error .illegalOperand)

/-! ### Scalar multiplication -/

/-- R210, R211: the loop takes the scalar's bits from the most significant down: nothing for 0, and the last
iteration for `2d + b` doubles, adds, and lets the bit `b` select. Over affine points the no-inverse indications
of both candidates accumulate. -/
def Obligations.ScalarLoopByBits : Prop :=
  (∀ (p a : Nat) (pt : JPoint), ladderJ p a 0 pt = ⟨1, 1, 0⟩ ∧
    ∀ (d : Nat) (b : Bool), 0 < 2 * d + b.toNat →
      ladderJ p a (2 * d + b.toNat) pt =
        (let dbl := jdbl p a (ladderJ p a d pt)
         if b = true then jadd p a dbl pt else dbl)) ∧
  (∀ (p a : Nat) (pt : APoint), ladderA p a 0 pt = (⟨0, 0⟩, false) ∧
    ∀ (d : Nat) (b : Bool), 0 < 2 * d + b.toNat →
      ladderA p a (2 * d + b.toNat) pt =
        (let r := ladderA p a d pt
         let dbl := adbl p a r.1
         let add := aadd p a dbl.1 pt
         (if b = true then add.1 else dbl.1, r.2 || dbl.2 || add.2)))

/-- R48, R210: the hidden loop of a PMULA or PMULJ in flight: after `k` iterations the bit index has moved by `k`;
after `bitlen(d)` of them it is done, and the running point is what the completion commits. -/
def Obligations.ScalarLoopHiddenState : Prop :=
  (∀ (s : State) (c : Word) (rd ra rb : Reg), s.engine = .busy c 0 → s.slotP.v = true →
    decode c = .ok (.pmulj rd ra rb) →
    (∀ k, k ≤ bitlen (s.x ra) → ∃ r d e, (engineWork^[k] s).ladderView =
      some (.jacobian (bitlen (s.x ra) - k) r d e)) ∧
    ∃ r d e t, (engineWork^[bitlen (s.x ra)] s).ladderView = some (.jacobian 0 r d e) ∧
      engineWork (engineWork^[bitlen (s.x ra)] s) = engineWork^[bitlen (s.x ra)] s ∧
      engineDone (engineWork^[bitlen (s.x ra)] s) = .next t ∧ t.xj rd = r) ∧
  (∀ (s : State) (c : Word) (rd ra rb : Reg), s.engine = .busy c 0 → s.slotP.v = true →
    decode c = .ok (.pmula rd ra rb) →
    (∀ k, k ≤ bitlen (s.x ra) → ∃ r d e, (engineWork^[k] s).ladderView =
      some (.affine (bitlen (s.x ra) - k) r d e)) ∧
    ∃ r d e t, (engineWork^[bitlen (s.x ra)] s).ladderView = some (.affine 0 r d e) ∧
      engineWork (engineWork^[bitlen (s.x ra)] s) = engineWork^[bitlen (s.x ra)] s ∧
      engineDone (engineWork^[bitlen (s.x ra)] s) = .next t ∧ (t.xa rd, t.flags.noinv) = r)

/-- R211: the scalar is the raw register value. -/
def Obligations.PmulaResult : Prop :=
  ∀ (rd ra rb : Reg) (s : State),
    (rd ≤ 14 ∧ rb ≤ 14 →
      decode (formatC 0x22 0 0 rd ra rb) = .ok (.pmula rd ra rb) ∧
      (s.slotP.v = false → exec (.pmula rd ra rb) s = .next (failedState .modInvalid s)) ∧
      (s.slotP.v = true → ∃ t r, exec (.pmula rd ra rb) s = .next t ∧ Ran s t [rd, rd + 1] ∧ SlotsKept s t ∧
        r = ladderA s.slotP.mod (s.a % s.slotP.mod) (s.x ra)
          ⟨s.x rb % s.slotP.mod, s.x (rb + 1) % s.slotP.mod⟩ ∧
        t.x rd = r.1.x ∧ t.x (rd + 1) = r.1.y ∧
        t.flags = ⟨decide (r.1 = ⟨0, 0⟩), decide (r.1 = ⟨0, 0⟩), r.2, false⟩)) ∧
    (¬ (rd ≤ 14 ∧ rb ≤ 14) → decode (formatC 0x22 0 0 rd ra rb) = .error .illegalOperand)

/-- R212. -/
def Obligations.PmuljResult : Prop :=
  ∀ (rd ra rb : Reg) (s : State),
    (rd ≤ 13 ∧ rb ≤ 13 →
      decode (formatC 0x2A 0 0 rd ra rb) = .ok (.pmulj rd ra rb) ∧
      (s.slotP.v = false → exec (.pmulj rd ra rb) s = .next (failedState .modInvalid s)) ∧
      (s.slotP.v = true → ∃ t r, exec (.pmulj rd ra rb) s = .next t ∧ Ran s t [rd, rd + 1, rd + 2] ∧ SlotsKept s t ∧
        r = ladderJ s.slotP.mod (s.a % s.slotP.mod) (s.x ra)
          (canonJ ⟨s.x rb, s.x (rb + 1), s.x (rb + 2)⟩ s.slotP.mod) ∧
        t.x rd = r.x ∧ t.x (rd + 1) = r.y ∧ t.x (rd + 2) = r.z ∧
        t.flags = ⟨decide (r = ⟨1, 1, 0⟩), decide (r = ⟨1, 1, 0⟩), false, false⟩)) ∧
    (¬ (rd ≤ 13 ∧ rb ≤ 13) → decode (formatC 0x2A 0 0 rd ra rb) = .error .illegalOperand)

/-- R213: for a prime `p > 3` and a curve with `b ≠ 0`, PMULA writes the multiple `d*P` of the curve's group, with no
failed inversion, and only `d mod n` matters for a point of order `n`. -/
def Obligations.PmulaIsGroupMultiple : Prop :=
  ∀ (p : Nat) [Fact p.Prime], 3 < p → ∀ (s : State) (b : ZMod p) (rd ra rb : Reg)
    (q : (curve p ((s.a % p : Nat) : ZMod p) b).Point), b ≠ 0 → rd ≤ 14 → rb ≤ 14 → s.slotP.v = true →
    s.slotP.mod = p → RepresentsA ⟨s.x rb % p, s.x (rb + 1) % p⟩ q →
    ∃ t, exec (.pmula rd ra rb) s = .next t ∧ RepresentsA (t.xa rd) (s.x ra • q) ∧ t.flags.noinv = false ∧
      ∀ n, n • q = 0 → RepresentsA (t.xa rd) ((s.x ra % n) • q)

/-- R213: under the same conditions A2J, PMULJ and J2A lead to the point that PMULA writes. `r` is a register group
that the scalar does not stand in. -/
def Obligations.PmuljAgreesWithPmula : Prop :=
  ∀ (p : Nat) [Fact p.Prime], 3 < p → ∀ (s : State) (b : ZMod p) (rd ra rb r : Reg)
    (q : (curve p ((s.a % p : Nat) : ZMod p) b).Point), b ≠ 0 → rd ≤ 14 → rb ≤ 14 → r ≤ 13 →
    ra ≠ r → ra ≠ r + 1 → ra ≠ r + 2 → s.slotP.v = true → s.slotP.mod = p →
    RepresentsA ⟨s.x rb % p, s.x (rb + 1) % p⟩ q →
    ∃ t u, exec (.pmula rd ra rb) s = .next t ∧
      runCommands [.a2j r rb, .pmulj r ra r, .j2a rd r] s = .next u ∧
      u.xa rd = t.xa rd ∧ u.flags = t.flags ∧ u.flags.noinv = false

/-! ### Hidden and unread state -/

/-- R36: MU shows in no bus access and in no command's outcome. -/
def Obligations.BarrettConstantsUnobservable : Prop :=
  ∀ s s' : State, s.forgetMu = s'.forgetMu →
    (∀ off, s.busRead off = s'.busRead off) ∧
    ∀ (i : Instr) (t : State), exec i s = .next t → ∃ t', exec i s' = .next t' ∧ t.forgetMu = t'.forgetMu

/-- R102, R180, R211: the point commands work over slot P; slot N does not enter. -/
def Obligations.PointCommandsIgnoreSlotN : Prop :=
  ∀ s s' : State, s.forgetSlotN = s'.forgetSlotN → ∀ (i : Instr) (t : State), isPointCommand i = true →
    exec i s = .next t → ∃ t', exec i s' = .next t' ∧ t.forgetSlotN = t'.forgetSlotN ∧
      t.slotN = s.slotN ∧ t'.slotN = s'.slotN
end

