-- ==== Sys2Proof/Laws/Arith.lean ====
section
/-! SUPPORT. What the exact arithmetic says: residues (R12), bit lengths (R11), the no-inverse indication (R16),
canonical points (R180) and the scalar loop (R210). -/

namespace Sys2Proof.Machine

theorem residue_lt (a : Int) {m : Nat} (h : 0 < m) : residue a m < m := by
  have h1 := Int.emod_lt_of_pos a (by exact_mod_cast h : (0 : Int) < m)
  have h2 := Int.emod_nonneg a (by omega : (m : Int) ≠ 0)
  unfold residue
  omega

theorem cast_residue (a : Int) {m : Nat} (h : 0 < m) : (residue a m : Int) = a % m :=
  Int.toNat_of_nonneg (Int.emod_nonneg a (by omega))

/-- The defining property of `a mod m` (R12): `a - r` is divisible by `m`. -/
theorem dvd_sub_residue (a : Int) {m : Nat} (h : 0 < m) : (m : Int) ∣ a - residue a m := by
  rw [cast_residue a h]
  exact Int.dvd_self_sub_emod

/-- The residue is the unique such value (R12). -/
theorem residue_eq {a : Int} {m r : Nat} (hr : r < m) (h : (m : Int) ∣ a - r) : residue a m = r := by
  have hm : 0 < m := by omega
  have : a % m = r := by
    rw [Int.emod_eq_emod_iff_emod_sub_eq_zero.mpr (Int.emod_eq_zero_of_dvd h)]
    exact Int.emod_eq_of_lt (by omega) (by exact_mod_cast hr)
  unfold residue
  omega

theorem residue_natCast (a m : Nat) : residue (a : Int) m = a % m := by
  unfold residue
  exact_mod_cast Int.toNat_natCast (a % m)

theorem residue_one (a : Int) : residue a 1 = 0 := by simp [residue]

@[simp] theorem bitlen_zero : bitlen 0 = 0 := rfl

theorem lt_two_pow_bitlen (v : Nat) : v < 2 ^ bitlen v := by
  unfold bitlen
  split
  next h => simp [h]
  next h => exact Nat.lt_log2_self

theorem two_pow_bitlen_le {v : Nat} (h : v ≠ 0) : 2 ^ (bitlen v - 1) ≤ v := by
  simp only [bitlen, if_neg h, Nat.add_sub_cancel]
  exact Nat.log2_self_le h

/-- A `W`-bit value has at most `W` bits (R262). -/
theorem bitlen_le_of_lt {v w : Nat} (h : v < 2 ^ w) : bitlen v ≤ w := by
  unfold bitlen
  split
  · omega
  next hv => exact (Nat.log2_lt hv).mpr h

/-- The no-inverse indication is raised exactly when `a` and `m` are not coprime (R16). -/
theorem inv_snd (a : Int) (m : Nat) : (inv a m).2 = true ↔ Nat.gcd (residue a m) m ≠ 1 := by
  simp only [inv]
  split <;> simp_all

theorem inv_fst_of_snd {a : Int} {m : Nat} (h : (inv a m).2 = true) : (inv a m).1 = 0 := by
  simp only [inv] at *
  split at h <;> simp_all

theorem inv_lt (a : Int) {m : Nat} (h : 0 < m) : (inv a m).1 < m := by
  simp only [inv]
  split
  · exact residue_lt _ h
  · exact h

theorem canonA_lt (pt : APoint) {p : Nat} (h : 0 < p) : (canonA pt p).x < p ∧ (canonA pt p).y < p :=
  ⟨Nat.mod_lt _ h, Nat.mod_lt _ h⟩

/-- A canonical Jacobian point is `INF_J`, or its coordinates are residues and its Z is not 0 (R16, R180). -/
theorem canonJ_cases (pt : JPoint) {p : Nat} (h : 0 < p) :
    canonJ pt p = infJ ∨
      ((canonJ pt p).x < p ∧ (canonJ pt p).y < p ∧ 0 < (canonJ pt p).z ∧ (canonJ pt p).z < p) := by
  unfold canonJ
  split
  · exact .inl rfl
  next hz => exact .inr ⟨Nat.mod_lt _ h, Nat.mod_lt _ h, Nat.pos_of_ne_zero hz, Nat.mod_lt _ h⟩

/-- The loop runs zero times for `d = 0` (R210). -/
@[simp] theorem ladderAfter_zero {σ : Type} (body : Bool → σ → σ) (start : σ) (d : Nat) :
    ladderAfter body start d 0 = start := rfl

theorem ladderAfter_succ {σ : Type} (body : Bool → σ → σ) (start : σ) (d n : Nat) :
    ladderAfter body start d (n + 1) =
      body (d.testBit (bitlen d - 1 - n)) (ladderAfter body start d n) := rfl

/-- What one iteration keeps, the loop keeps. -/
theorem ladderAfter_induct {σ : Type} {body : Bool → σ → σ} {start : σ} {motive : σ → Prop}
    (base : motive start) (next : ∀ b r, motive r → motive (body b r)) (d n : Nat) :
    motive (ladderAfter body start d n) := by
  induction n with
  | zero => exact base
  | succ n ih => exact next _ _ ih

end Sys2Proof.Machine
end

