-- ==== Sys2Proof/Laws/State.lean ====
section
/-! SUPPORT. One lemma per field per update of State, and reads after writes of registers, point groups and
slots, so that no later proof unfolds a record update. -/

namespace Sys2Proof.Machine

/-! ### `setX` -/

@[simp] theorem width_setX (s : State) (i : Reg) (v : Nat) : (s.setX i v).width = s.width := rfl
@[simp] theorem slotP_setX (s : State) (i : Reg) (v : Nat) : (s.setX i v).slotP = s.slotP := rfl
@[simp] theorem slotN_setX (s : State) (i : Reg) (v : Nat) : (s.setX i v).slotN = s.slotN := rfl
@[simp] theorem a_setX (s : State) (i : Reg) (v : Nat) : (s.setX i v).a = s.a := rfl
@[simp] theorem ie_setX (s : State) (i : Reg) (v : Nat) : (s.setX i v).ie = s.ie := rfl
@[simp] theorem done_setX (s : State) (i : Reg) (v : Nat) : (s.setX i v).done = s.done := rfl
@[simp] theorem err_setX (s : State) (i : Reg) (v : Nat) : (s.setX i v).err = s.err := rfl
@[simp] theorem ovr_setX (s : State) (i : Reg) (v : Nat) : (s.setX i v).ovr = s.ovr := rfl
@[simp] theorem errcode_setX (s : State) (i : Reg) (v : Nat) : (s.setX i v).errcode = s.errcode := rfl
@[simp] theorem flags_setX (s : State) (i : Reg) (v : Nat) : (s.setX i v).flags = s.flags := rfl
@[simp] theorem cmd_setX (s : State) (i : Reg) (v : Nat) : (s.setX i v).cmd = s.cmd := rfl
@[simp] theorem engine_setX (s : State) (i : Reg) (v : Nat) : (s.setX i v).engine = s.engine := rfl
@[simp] theorem pending_setX (s : State) (i : Reg) (v : Nat) : (s.setX i v).pending = s.pending := rfl
@[simp] theorem reply_setX (s : State) (i : Reg) (v : Nat) : (s.setX i v).reply = s.reply := rfl
@[simp] theorem free_setX (s : State) (i : Reg) (v : Nat) : (s.setX i v).free = s.free := rfl

@[simp] theorem x_setX_self (s : State) (i : Reg) (v : Nat) : (s.setX i v).x i = v := by
  simp [State.x, State.setX]

theorem x_setX_ne (s : State) {i j : Reg} (v : Nat) (h : j ≠ i) : (s.setX i v).x j = s.x j := by
  have h' : i.val ≠ j.val := fun e => h (Fin.ext e.symm)
  simp [State.x, State.setX, h']

theorem x_setX (s : State) (i j : Reg) (v : Nat) : (s.setX i v).x j = if j = i then v else s.x j := by
  split
  next h => subst h; exact x_setX_self ..
  next h => exact x_setX_ne s v h

@[simp] theorem slot_setX (s : State) (i : Reg) (v : Nat) (ms : Slot) : (s.setX i v).slot ms = s.slot ms := by
  cases ms <;> rfl

/-! ### Point groups -/

@[simp] theorem width_setXa (s : State) (i : Reg) (pt : APoint) : (s.setXa i pt).width = s.width := rfl
@[simp] theorem slotP_setXa (s : State) (i : Reg) (pt : APoint) : (s.setXa i pt).slotP = s.slotP := rfl
@[simp] theorem slotN_setXa (s : State) (i : Reg) (pt : APoint) : (s.setXa i pt).slotN = s.slotN := rfl
@[simp] theorem a_setXa (s : State) (i : Reg) (pt : APoint) : (s.setXa i pt).a = s.a := rfl
@[simp] theorem ie_setXa (s : State) (i : Reg) (pt : APoint) : (s.setXa i pt).ie = s.ie := rfl
@[simp] theorem done_setXa (s : State) (i : Reg) (pt : APoint) : (s.setXa i pt).done = s.done := rfl
@[simp] theorem err_setXa (s : State) (i : Reg) (pt : APoint) : (s.setXa i pt).err = s.err := rfl
@[simp] theorem ovr_setXa (s : State) (i : Reg) (pt : APoint) : (s.setXa i pt).ovr = s.ovr := rfl
@[simp] theorem errcode_setXa (s : State) (i : Reg) (pt : APoint) : (s.setXa i pt).errcode = s.errcode := rfl
@[simp] theorem flags_setXa (s : State) (i : Reg) (pt : APoint) : (s.setXa i pt).flags = s.flags := rfl
@[simp] theorem cmd_setXa (s : State) (i : Reg) (pt : APoint) : (s.setXa i pt).cmd = s.cmd := rfl
@[simp] theorem engine_setXa (s : State) (i : Reg) (pt : APoint) : (s.setXa i pt).engine = s.engine := rfl
@[simp] theorem pending_setXa (s : State) (i : Reg) (pt : APoint) : (s.setXa i pt).pending = s.pending := rfl
@[simp] theorem reply_setXa (s : State) (i : Reg) (pt : APoint) : (s.setXa i pt).reply = s.reply := rfl
@[simp] theorem free_setXa (s : State) (i : Reg) (pt : APoint) : (s.setXa i pt).free = s.free := rfl

theorem reg_add_one_ne (i : Reg) : i + 1 ≠ i := by decide +revert
theorem reg_add_two_ne (i : Reg) : i + 2 ≠ i := by decide +revert
theorem reg_add_two_ne_add_one (i : Reg) : i + 2 ≠ i + 1 := by decide +revert

/-- Reading any register after writing an affine point. -/
theorem x_setXa (s : State) (i j : Reg) (pt : APoint) :
    (s.setXa i pt).x j = if j = i + 1 then pt.y else if j = i then pt.x else s.x j := by
  simp only [State.setXa, x_setX]

theorem x_setXa_ne (s : State) {i j : Reg} (pt : APoint) (h : j ≠ i) (h1 : j ≠ i + 1) :
    (s.setXa i pt).x j = s.x j := by
  rw [x_setXa, if_neg h1, if_neg h]

/-- An affine point reads back as written, whatever it overlaps (R266). -/
@[simp] theorem xa_setXa (s : State) (i : Reg) (pt : APoint) : (s.setXa i pt).xa i = pt := by
  simp [State.xa, x_setXa, (reg_add_one_ne i).symm]

@[simp] theorem slot_setXa (s : State) (i : Reg) (pt : APoint) (ms : Slot) : (s.setXa i pt).slot ms = s.slot ms := by
  cases ms <;> rfl

@[simp] theorem width_setXj (s : State) (i : Reg) (pt : JPoint) : (s.setXj i pt).width = s.width := rfl
@[simp] theorem slotP_setXj (s : State) (i : Reg) (pt : JPoint) : (s.setXj i pt).slotP = s.slotP := rfl
@[simp] theorem slotN_setXj (s : State) (i : Reg) (pt : JPoint) : (s.setXj i pt).slotN = s.slotN := rfl
@[simp] theorem a_setXj (s : State) (i : Reg) (pt : JPoint) : (s.setXj i pt).a = s.a := rfl
@[simp] theorem ie_setXj (s : State) (i : Reg) (pt : JPoint) : (s.setXj i pt).ie = s.ie := rfl
@[simp] theorem done_setXj (s : State) (i : Reg) (pt : JPoint) : (s.setXj i pt).done = s.done := rfl
@[simp] theorem err_setXj (s : State) (i : Reg) (pt : JPoint) : (s.setXj i pt).err = s.err := rfl
@[simp] theorem ovr_setXj (s : State) (i : Reg) (pt : JPoint) : (s.setXj i pt).ovr = s.ovr := rfl
@[simp] theorem errcode_setXj (s : State) (i : Reg) (pt : JPoint) : (s.setXj i pt).errcode = s.errcode := rfl
@[simp] theorem flags_setXj (s : State) (i : Reg) (pt : JPoint) : (s.setXj i pt).flags = s.flags := rfl
@[simp] theorem cmd_setXj (s : State) (i : Reg) (pt : JPoint) : (s.setXj i pt).cmd = s.cmd := rfl
@[simp] theorem engine_setXj (s : State) (i : Reg) (pt : JPoint) : (s.setXj i pt).engine = s.engine := rfl
@[simp] theorem pending_setXj (s : State) (i : Reg) (pt : JPoint) : (s.setXj i pt).pending = s.pending := rfl
@[simp] theorem reply_setXj (s : State) (i : Reg) (pt : JPoint) : (s.setXj i pt).reply = s.reply := rfl
@[simp] theorem free_setXj (s : State) (i : Reg) (pt : JPoint) : (s.setXj i pt).free = s.free := rfl

/-- Reading any register after writing a Jacobian point. -/
theorem x_setXj (s : State) (i j : Reg) (pt : JPoint) :
    (s.setXj i pt).x j =
      if j = i + 2 then pt.z else if j = i + 1 then pt.y else if j = i then pt.x else s.x j := by
  simp only [State.setXj, x_setX]

theorem x_setXj_ne (s : State) {i j : Reg} (pt : JPoint) (h : j ≠ i) (h1 : j ≠ i + 1) (h2 : j ≠ i + 2) :
    (s.setXj i pt).x j = s.x j := by
  rw [x_setXj, if_neg h2, if_neg h1, if_neg h]

/-- A Jacobian point reads back as written, whatever it overlaps (R266). -/
@[simp] theorem xj_setXj (s : State) (i : Reg) (pt : JPoint) : (s.setXj i pt).xj i = pt := by
  simp [State.xj, x_setXj, (reg_add_one_ne i).symm, (reg_add_two_ne i).symm, (reg_add_two_ne_add_one i).symm]

@[simp] theorem slot_setXj (s : State) (i : Reg) (pt : JPoint) (ms : Slot) : (s.setXj i pt).slot ms = s.slot ms := by
  cases ms <;> rfl

/-! ### Slots -/

@[simp] theorem width_setSlot (s : State) (i : Slot) (m : ModSlot) : (s.setSlot i m).width = s.width := by cases i <;> rfl
@[simp] theorem a_setSlot (s : State) (i : Slot) (m : ModSlot) : (s.setSlot i m).a = s.a := by cases i <;> rfl
@[simp] theorem ie_setSlot (s : State) (i : Slot) (m : ModSlot) : (s.setSlot i m).ie = s.ie := by cases i <;> rfl
@[simp] theorem done_setSlot (s : State) (i : Slot) (m : ModSlot) : (s.setSlot i m).done = s.done := by cases i <;> rfl
@[simp] theorem err_setSlot (s : State) (i : Slot) (m : ModSlot) : (s.setSlot i m).err = s.err := by cases i <;> rfl
@[simp] theorem ovr_setSlot (s : State) (i : Slot) (m : ModSlot) : (s.setSlot i m).ovr = s.ovr := by cases i <;> rfl
@[simp] theorem errcode_setSlot (s : State) (i : Slot) (m : ModSlot) : (s.setSlot i m).errcode = s.errcode := by cases i <;> rfl
@[simp] theorem flags_setSlot (s : State) (i : Slot) (m : ModSlot) : (s.setSlot i m).flags = s.flags := by cases i <;> rfl
@[simp] theorem cmd_setSlot (s : State) (i : Slot) (m : ModSlot) : (s.setSlot i m).cmd = s.cmd := by cases i <;> rfl
@[simp] theorem engine_setSlot (s : State) (i : Slot) (m : ModSlot) : (s.setSlot i m).engine = s.engine := by cases i <;> rfl
@[simp] theorem pending_setSlot (s : State) (i : Slot) (m : ModSlot) : (s.setSlot i m).pending = s.pending := by cases i <;> rfl
@[simp] theorem reply_setSlot (s : State) (i : Slot) (m : ModSlot) : (s.setSlot i m).reply = s.reply := by cases i <;> rfl
@[simp] theorem free_setSlot (s : State) (i : Slot) (m : ModSlot) : (s.setSlot i m).free = s.free := by cases i <;> rfl
@[simp] theorem x_setSlot (s : State) (i : Slot) (m : ModSlot) (r : Reg) : (s.setSlot i m).x r = s.x r := by
  cases i <;> rfl
@[simp] theorem slot_setSlot_self (s : State) (i : Slot) (m : ModSlot) : (s.setSlot i m).slot i = m := by
  cases i <;> rfl
theorem slot_setSlot_ne (s : State) {i j : Slot} (m : ModSlot) (h : j ≠ i) : (s.setSlot i m).slot j = s.slot j := by
  cases i <;> cases j <;> first | rfl | exact absurd rfl h

/-! ### Completion and acceptance -/

@[simp] theorem width_finish (s : State) : (finish s).width = s.width := rfl
@[simp] theorem slotP_finish (s : State) : (finish s).slotP = s.slotP := rfl
@[simp] theorem slotN_finish (s : State) : (finish s).slotN = s.slotN := rfl
@[simp] theorem a_finish (s : State) : (finish s).a = s.a := rfl
@[simp] theorem ie_finish (s : State) : (finish s).ie = s.ie := rfl
@[simp] theorem done_finish (s : State) : (finish s).done = true := rfl
@[simp] theorem err_finish (s : State) : (finish s).err = false := rfl
@[simp] theorem ovr_finish (s : State) : (finish s).ovr = s.ovr := rfl
@[simp] theorem errcode_finish (s : State) : (finish s).errcode = 0#4 := rfl
@[simp] theorem flags_finish (s : State) : (finish s).flags = s.flags := rfl
@[simp] theorem cmd_finish (s : State) : (finish s).cmd = s.cmd := rfl
@[simp] theorem engine_finish (s : State) : (finish s).engine = .idle := rfl
@[simp] theorem pending_finish (s : State) : (finish s).pending = s.pending := rfl
@[simp] theorem reply_finish (s : State) : (finish s).reply = s.reply := rfl
@[simp] theorem free_finish (s : State) : (finish s).free = s.free := rfl

@[simp] theorem width_commit (f : Flags) (s : State) : (commit f s).width = s.width := rfl
@[simp] theorem slotP_commit (f : Flags) (s : State) : (commit f s).slotP = s.slotP := rfl
@[simp] theorem slotN_commit (f : Flags) (s : State) : (commit f s).slotN = s.slotN := rfl
@[simp] theorem a_commit (f : Flags) (s : State) : (commit f s).a = s.a := rfl
@[simp] theorem ie_commit (f : Flags) (s : State) : (commit f s).ie = s.ie := rfl
@[simp] theorem done_commit (f : Flags) (s : State) : (commit f s).done = true := rfl
@[simp] theorem err_commit (f : Flags) (s : State) : (commit f s).err = false := rfl
@[simp] theorem ovr_commit (f : Flags) (s : State) : (commit f s).ovr = s.ovr := rfl
@[simp] theorem errcode_commit (f : Flags) (s : State) : (commit f s).errcode = 0#4 := rfl
@[simp] theorem flags_commit (f : Flags) (s : State) : (commit f s).flags = f := rfl
@[simp] theorem cmd_commit (f : Flags) (s : State) : (commit f s).cmd = s.cmd := rfl
@[simp] theorem engine_commit (f : Flags) (s : State) : (commit f s).engine = .idle := rfl
@[simp] theorem pending_commit (f : Flags) (s : State) : (commit f s).pending = s.pending := rfl
@[simp] theorem reply_commit (f : Flags) (s : State) : (commit f s).reply = s.reply := rfl
@[simp] theorem free_commit (f : Flags) (s : State) : (commit f s).free = s.free := rfl

@[simp] theorem width_failCmd (e : CmdError) (s : State) : (failCmd e s).width = s.width := rfl
@[simp] theorem slotP_failCmd (e : CmdError) (s : State) : (failCmd e s).slotP = s.slotP := rfl
@[simp] theorem slotN_failCmd (e : CmdError) (s : State) : (failCmd e s).slotN = s.slotN := rfl
@[simp] theorem a_failCmd (e : CmdError) (s : State) : (failCmd e s).a = s.a := rfl
@[simp] theorem ie_failCmd (e : CmdError) (s : State) : (failCmd e s).ie = s.ie := rfl
@[simp] theorem done_failCmd (e : CmdError) (s : State) : (failCmd e s).done = true := rfl
@[simp] theorem err_failCmd (e : CmdError) (s : State) : (failCmd e s).err = true := rfl
@[simp] theorem ovr_failCmd (e : CmdError) (s : State) : (failCmd e s).ovr = s.ovr := rfl
@[simp] theorem errcode_failCmd (e : CmdError) (s : State) : (failCmd e s).errcode = e.code := rfl
@[simp] theorem flags_failCmd (e : CmdError) (s : State) : (failCmd e s).flags = s.flags := rfl
@[simp] theorem cmd_failCmd (e : CmdError) (s : State) : (failCmd e s).cmd = s.cmd := rfl
@[simp] theorem engine_failCmd (e : CmdError) (s : State) : (failCmd e s).engine = .idle := rfl
@[simp] theorem pending_failCmd (e : CmdError) (s : State) : (failCmd e s).pending = s.pending := rfl
@[simp] theorem reply_failCmd (e : CmdError) (s : State) : (failCmd e s).reply = s.reply := rfl
@[simp] theorem free_failCmd (e : CmdError) (s : State) : (failCmd e s).free = s.free := rfl

@[simp] theorem width_accept (c : Word) (s : State) : (accept c s).width = s.width := rfl
@[simp] theorem slotP_accept (c : Word) (s : State) : (accept c s).slotP = s.slotP := rfl
@[simp] theorem slotN_accept (c : Word) (s : State) : (accept c s).slotN = s.slotN := rfl
@[simp] theorem a_accept (c : Word) (s : State) : (accept c s).a = s.a := rfl
@[simp] theorem ie_accept (c : Word) (s : State) : (accept c s).ie = s.ie := rfl
@[simp] theorem done_accept (c : Word) (s : State) : (accept c s).done = false := rfl
@[simp] theorem err_accept (c : Word) (s : State) : (accept c s).err = false := rfl
@[simp] theorem ovr_accept (c : Word) (s : State) : (accept c s).ovr = s.ovr := rfl
@[simp] theorem errcode_accept (c : Word) (s : State) : (accept c s).errcode = 0#4 := rfl
@[simp] theorem flags_accept (c : Word) (s : State) : (accept c s).flags = s.flags := rfl
@[simp] theorem cmd_accept (c : Word) (s : State) : (accept c s).cmd = c := rfl
@[simp] theorem engine_accept (c : Word) (s : State) : (accept c s).engine = .busy c 0 := rfl
@[simp] theorem pending_accept (c : Word) (s : State) : (accept c s).pending = s.pending := rfl
@[simp] theorem reply_accept (c : Word) (s : State) : (accept c s).reply = s.reply := rfl
@[simp] theorem free_accept (c : Word) (s : State) : (accept c s).free = s.free := rfl

@[simp] theorem x_finish (s : State) (r : Reg) : (finish s).x r = s.x r := rfl
@[simp] theorem xa_finish (s : State) (r : Reg) : (finish s).xa r = s.xa r := rfl
@[simp] theorem xj_finish (s : State) (r : Reg) : (finish s).xj r = s.xj r := rfl
@[simp] theorem slot_finish (s : State) (ms : Slot) : (finish s).slot ms = s.slot ms := by cases ms <;> rfl
@[simp] theorem x_commit (f : Flags) (s : State) (r : Reg) : (commit f s).x r = s.x r := rfl
@[simp] theorem xa_commit (f : Flags) (s : State) (r : Reg) : (commit f s).xa r = s.xa r := rfl
@[simp] theorem xj_commit (f : Flags) (s : State) (r : Reg) : (commit f s).xj r = s.xj r := rfl
@[simp] theorem slot_commit (f : Flags) (s : State) (ms : Slot) : (commit f s).slot ms = s.slot ms := by cases ms <;> rfl
@[simp] theorem x_failCmd (e : CmdError) (s : State) (r : Reg) : (failCmd e s).x r = s.x r := rfl
@[simp] theorem xa_failCmd (e : CmdError) (s : State) (r : Reg) : (failCmd e s).xa r = s.xa r := rfl
@[simp] theorem xj_failCmd (e : CmdError) (s : State) (r : Reg) : (failCmd e s).xj r = s.xj r := rfl
@[simp] theorem slot_failCmd (e : CmdError) (s : State) (ms : Slot) : (failCmd e s).slot ms = s.slot ms := by cases ms <;> rfl
@[simp] theorem x_accept (c : Word) (s : State) (r : Reg) : (accept c s).x r = s.x r := rfl
@[simp] theorem xa_accept (c : Word) (s : State) (r : Reg) : (accept c s).xa r = s.xa r := rfl
@[simp] theorem xj_accept (c : Word) (s : State) (r : Reg) : (accept c s).xj r = s.xj r := rfl
@[simp] theorem slot_accept (c : Word) (s : State) (ms : Slot) : (accept c s).slot ms = s.slot ms := by cases ms <;> rfl

/-! ### Resets -/

@[simp] theorem width_softReset (s : State) : (softReset s).width = s.width := rfl
@[simp] theorem slotP_softReset (s : State) : (softReset s).slotP = ModSlot.afterReset s.free := rfl
@[simp] theorem slotN_softReset (s : State) : (softReset s).slotN = ModSlot.afterReset (s.free + 2) := rfl
@[simp] theorem a_softReset (s : State) : (softReset s).a = 0 := rfl
@[simp] theorem ie_softReset (s : State) : (softReset s).ie = false := rfl
@[simp] theorem done_softReset (s : State) : (softReset s).done = false := rfl
@[simp] theorem err_softReset (s : State) : (softReset s).err = false := rfl
@[simp] theorem ovr_softReset (s : State) : (softReset s).ovr = false := rfl
@[simp] theorem errcode_softReset (s : State) : (softReset s).errcode = 0#4 := rfl
@[simp] theorem flags_softReset (s : State) : (softReset s).flags = { z := false, inf := false, noinv := false, lt := false } := rfl
@[simp] theorem cmd_softReset (s : State) : (softReset s).cmd = 0#32 := rfl
@[simp] theorem engine_softReset (s : State) : (softReset s).engine = .idle := rfl
@[simp] theorem pending_softReset (s : State) : (softReset s).pending = s.pending := rfl
@[simp] theorem reply_softReset (s : State) : (softReset s).reply = s.reply := rfl
@[simp] theorem free_softReset (s : State) : (softReset s).free = s.free + 4 := rfl

@[simp] theorem width_hardReset (s : State) : (hardReset s).width = s.width := rfl
@[simp] theorem slotP_hardReset (s : State) : (hardReset s).slotP = ModSlot.afterReset s.free := rfl
@[simp] theorem slotN_hardReset (s : State) : (hardReset s).slotN = ModSlot.afterReset (s.free + 2) := rfl
@[simp] theorem a_hardReset (s : State) : (hardReset s).a = 0 := rfl
@[simp] theorem ie_hardReset (s : State) : (hardReset s).ie = false := rfl
@[simp] theorem done_hardReset (s : State) : (hardReset s).done = false := rfl
@[simp] theorem err_hardReset (s : State) : (hardReset s).err = false := rfl
@[simp] theorem ovr_hardReset (s : State) : (hardReset s).ovr = false := rfl
@[simp] theorem errcode_hardReset (s : State) : (hardReset s).errcode = 0#4 := rfl
@[simp] theorem flags_hardReset (s : State) : (hardReset s).flags = { z := false, inf := false, noinv := false, lt := false } := rfl
@[simp] theorem cmd_hardReset (s : State) : (hardReset s).cmd = 0#32 := rfl
@[simp] theorem engine_hardReset (s : State) : (hardReset s).engine = .idle := rfl
@[simp] theorem pending_hardReset (s : State) : (hardReset s).pending = s.pending := rfl
@[simp] theorem reply_hardReset (s : State) : (hardReset s).reply = .none := rfl
@[simp] theorem free_hardReset (s : State) : (hardReset s).free = s.free + 20 := rfl

@[simp] theorem x_softReset (s : State) (r : Reg) : (softReset s).x r = s.x r := rfl
@[simp] theorem x_hardReset (s : State) (r : Reg) :
    (hardReset s).x r = Config.freeValue (s.free + 4 + r.val) % 2 ^ s.width := by
  simp [State.x, hardReset, unspecifiedRegs]
@[simp] theorem v_afterReset (n : Nat) : (ModSlot.afterReset n).v = false := rfl
@[simp] theorem mod_afterReset (n : Nat) : (ModSlot.afterReset n).mod = 0 := rfl
@[simp] theorem k_afterReset (n : Nat) : (ModSlot.afterReset n).k = 0 := rfl
@[simp] theorem odd_afterReset (n : Nat) : (ModSlot.afterReset n).odd = false := rfl

/-! ### The model's own fields and views -/

@[simp] theorem x_pending (s : State) (l : List Event) (r : Reg) : { s with pending := l }.x r = s.x r := rfl
@[simp] theorem x_reply (s : State) (b : BusReply) (r : Reg) : { s with reply := b }.x r = s.x r := rfl
@[simp] theorem busy_finish (s : State) : (finish s).busy = false := rfl
@[simp] theorem busy_commit (f : Flags) (s : State) : (commit f s).busy = false := rfl
@[simp] theorem busy_failCmd (e : CmdError) (s : State) : (failCmd e s).busy = false := rfl
@[simp] theorem busy_accept (c : Word) (s : State) : (accept c s).busy = true := rfl
@[simp] theorem busy_softReset (s : State) : (softReset s).busy = false := rfl
@[simp] theorem busy_hardReset (s : State) : (hardReset s).busy = false := rfl

/-- BUSY and the engine say the same (R48). -/
theorem busy_iff (s : State) : s.busy = true ↔ ∃ c n, s.engine = .busy c n := by
  unfold State.busy
  cases h : s.engine <;> simp

theorem not_busy_iff (s : State) : s.busy = false ↔ s.engine = .idle := by
  unfold State.busy
  cases h : s.engine <;> simp

end Sys2Proof.Machine
end

