-- ==== Sys2Proof/Laws/Exec.lean ====
section
/-! SUPPORT. What a command's completion can do: one inversion lemma per shared operation, and one for `exec`. -/

namespace Sys2Proof.Machine

theorem withSlot_valid {ms : Slot} {s : State} (k : ModSlot → State) (h : (s.slot ms).v = true) :
    withSlot ms s k = .next (k (s.slot ms)) := by
  simp [withSlot, h]

theorem withSlot_invalid {ms : Slot} {s : State} (k : ModSlot → State) (h : (s.slot ms).v = false) :
    withSlot ms s k = .next (failCmd .modInvalid s) := by
  simp [withSlot, h]

/-- Everything `withSlot` can do (R105). -/
theorem withSlot_cases {ms : Slot} {s t : State} {k : ModSlot → State} (h : withSlot ms s k = .next t) :
    ((s.slot ms).v = true ∧ t = k (s.slot ms)) ∨ ((s.slot ms).v = false ∧ t = failCmd .modInvalid s) := by
  cases hv : (s.slot ms).v with
  | true => rw [withSlot_valid k hv] at h; cases h; exact .inl ⟨rfl, rfl⟩
  | false => rw [withSlot_invalid k hv] at h; cases h; exact .inr ⟨rfl, rfl⟩

theorem withOddSlot_odd {ms : Slot} {s : State} (k : ModSlot → State) (h : (s.slot ms).v = true)
    (ho : (s.slot ms).odd = true) : withOddSlot ms s k = .next (k (s.slot ms)) := by
  simp [withOddSlot, withSlot, h, ho]

/-- Everything `withOddSlot` can do (R105, R170). -/
theorem withOddSlot_cases {ms : Slot} {s t : State} {k : ModSlot → State} (h : withOddSlot ms s k = .next t) :
    ((s.slot ms).v = true ∧ (s.slot ms).odd = true ∧ t = k (s.slot ms)) ∨
      ((s.slot ms).v = true ∧ (s.slot ms).odd = false ∧ t = failCmd .badMod s) ∨
      ((s.slot ms).v = false ∧ t = failCmd .modInvalid s) := by
  obtain ⟨hv, rfl⟩ | ⟨hv, rfl⟩ := withSlot_cases h
  · cases ho : (s.slot ms).odd <;> simp [hv]
  · exact .inr (.inr ⟨hv, rfl⟩)

theorem withCurve_valid {s : State} (k : Nat → Nat → State) (h : s.slotP.v = true) :
    withCurve true s k = .next (k s.slotP.mod s.coeff) := by
  simp [withCurve, withSlot, State.slot, h]

/-- Everything `withCurve` can do (R33, R105, R180). -/
theorem withCurve_cases {b : Bool} {s t : State} {k : Nat → Nat → State} (h : withCurve b s k = .next t) :
    (b = true ∧ s.slotP.v = true ∧ t = k s.slotP.mod s.coeff) ∨
      (b = true ∧ s.slotP.v = false ∧ t = failCmd .modInvalid s) ∨ (b = false ∧ t = failCmd .illegalOperand s) := by
  cases b with
  | false => exact .inr (.inr ⟨rfl, by cases h; rfl⟩)
  | true =>
    simp only [withCurve, if_true] at h
    obtain ⟨hv, rfl⟩ | ⟨hv, rfl⟩ := withSlot_cases h
    · exact .inl ⟨rfl, hv, rfl⟩
    · exact .inr (.inl ⟨rfl, hv, rfl⟩)

theorem withSlot_next (ms : Slot) (s : State) (k : ModSlot → State) : ∃ t, withSlot ms s k = .next t := by
  unfold withSlot; split <;> exact ⟨_, rfl⟩

theorem withOddSlot_next (ms : Slot) (s : State) (k : ModSlot → State) : ∃ t, withOddSlot ms s k = .next t :=
  withSlot_next ..

theorem withCurve_next (b : Bool) (s : State) (k : Nat → Nat → State) : ∃ t, withCurve b s k = .next t := by
  unfold withCurve
  split
  · exact withSlot_next ..
  · exact ⟨_, rfl⟩

/-- The writes a successful command makes before its flags: none, registers at `rd`, a slot, or `A`. -/
inductive Writes (s : State) : State → Prop where
  | nothing : Writes s s
  | reg (rd : Reg) (v : Nat) : Writes s (s.setX rd v)
  | affine (rd : Reg) (pt : APoint) : Writes s (s.setXa rd pt)
  | jacobian (rd : Reg) (pt : JPoint) : Writes s (s.setXj rd pt)
  | slot (ms : Slot) (m : Nat) (h : m ≠ 0) : Writes s (s.setSlot ms (ModSlot.load m))
  | coeff (v : Nat) : Writes s { s with a := v }

/-- How a command completes: it fails (R227), it is NOP (R131), or it commits its writes and flags (R226). -/
inductive Completes (s : State) : State → Prop where
  | failed (e : CmdError) : Completes s (failCmd e s)
  | nop : Completes s (finish s)
  | committed (f : Flags) {u : State} (h : Writes s u) : Completes s (commit f u)

theorem completes_withSlot {ms : Slot} {s t : State} {k : ModSlot → State} (hk : ∀ m, Completes s (k m))
    (h : withSlot ms s k = .next t) : Completes s t := by
  obtain ⟨-, rfl⟩ | ⟨-, rfl⟩ := withSlot_cases h
  · exact hk _
  · exact .failed _

theorem completes_withCurve {b : Bool} {s t : State} {k : Nat → Nat → State} (hk : ∀ p a, Completes s (k p a))
    (h : withCurve b s k = .next t) : Completes s t := by
  obtain ⟨-, -, rfl⟩ | ⟨-, -, rfl⟩ | ⟨-, rfl⟩ := withCurve_cases h
  · exact hk _ _
  · exact .failed _
  · exact .failed _

theorem completes_withOddSlot {ms : Slot} {s t : State} {k : ModSlot → State} (hk : ∀ m, Completes s (k m))
    (h : withOddSlot ms s k = .next t) : Completes s t :=
  completes_withSlot (fun m => by split; exacts [hk m, .failed _]) h

theorem completes_writeValue (rd : Reg) (v : Nat) (s : State) : Completes s (writeValue rd v s) :=
  .committed _ (.reg rd v)

theorem completes_writeAffine (rd : Reg) (r : APoint × Bool) (s : State) : Completes s (writeAffine rd r s) :=
  .committed _ (.affine rd r.1)

theorem completes_writeJacobian (rd : Reg) (pt : JPoint) (s : State) : Completes s (writeJacobian rd pt s) :=
  .committed _ (.jacobian rd pt)

/-- Everything a command can do. -/
theorem exec_cases {i : Instr} {s t : State} (h : exec i s = .next t) : Completes s t := by
  cases i with
  | nop => cases h; exact .nop
  | mov rd ra => cases h; exact completes_writeValue ..
  | cmp ra rb => cases h; exact .committed _ .nothing
  | modset ms ra =>
    simp only [exec, execModset] at h
    split at h
    · cases h; exact .failed _
    next hx => cases h; exact .committed _ (.slot ms _ hx)
  | seta ra => cases h; exact .committed _ (.coeff _)
  | modadd ms rd ra rb => simp only [exec, execModadd] at h; exact completes_withSlot (fun _ => completes_writeValue ..) h
  | modsub ms rd ra rb => simp only [exec, execModsub] at h; exact completes_withSlot (fun _ => completes_writeValue ..) h
  | modmul ms rd ra rb => simp only [exec, execModmul] at h; exact completes_withSlot (fun _ => completes_writeValue ..) h
  | modred ms neg rd ra rb => simp only [exec, execModred] at h; exact completes_withSlot (fun _ => completes_writeValue ..) h
  | modinv ms rd ra => simp only [exec, execModinv] at h; exact completes_withSlot (fun _ => .committed _ (.reg rd _)) h
  | montmul ms rd ra rb => simp only [exec, execMontmul] at h; exact completes_withOddSlot (fun _ => completes_writeValue ..) h
  | tomont ms rd ra => simp only [exec, execTomont] at h; exact completes_withOddSlot (fun _ => completes_writeValue ..) h
  | frommont ms rd ra => simp only [exec, execFrommont] at h; exact completes_withOddSlot (fun _ => completes_writeValue ..) h
  | padda rd ra rb => simp only [exec, execPadda] at h; exact completes_withCurve (fun _ _ => completes_writeAffine ..) h
  | pdbla rd ra => simp only [exec, execPdbla] at h; exact completes_withCurve (fun _ _ => completes_writeAffine ..) h
  | pmula rd ra rb => simp only [exec, execPmula] at h; exact completes_withCurve (fun _ _ => completes_writeAffine ..) h
  | paddj rd ra rb => simp only [exec, execPaddj] at h; exact completes_withCurve (fun _ _ => completes_writeJacobian ..) h
  | pdblj rd ra => simp only [exec, execPdblj] at h; exact completes_withCurve (fun _ _ => completes_writeJacobian ..) h
  | pmulj rd ra rb => simp only [exec, execPmulj] at h; exact completes_withCurve (fun _ _ => completes_writeJacobian ..) h
  | a2j rd ra => simp only [exec, execA2j] at h; exact completes_withCurve (fun _ _ => completes_writeJacobian ..) h
  | j2a rd ra => simp only [exec, execJ2a] at h; exact completes_withCurve (fun _ _ => completes_writeAffine ..) h

/-- The EAU stops on no command (R105, R106). -/
theorem exec_next (i : Instr) (s : State) : ∃ t, exec i s = .next t := by
  cases i with
  | nop => exact ⟨_, rfl⟩
  | mov => exact ⟨_, rfl⟩
  | cmp => exact ⟨_, rfl⟩
  | modset ms ra =>
    simp only [exec, execModset]
    split <;> exact ⟨_, rfl⟩
  | seta => exact ⟨_, rfl⟩
  | modadd => simp only [exec, execModadd]; exact withSlot_next ..
  | modsub => simp only [exec, execModsub]; exact withSlot_next ..
  | modmul => simp only [exec, execModmul]; exact withSlot_next ..
  | modred => simp only [exec, execModred]; exact withSlot_next ..
  | modinv => simp only [exec, execModinv]; exact withSlot_next ..
  | montmul => simp only [exec, execMontmul]; exact withOddSlot_next ..
  | tomont => simp only [exec, execTomont]; exact withOddSlot_next ..
  | frommont => simp only [exec, execFrommont]; exact withOddSlot_next ..
  | padda => simp only [exec, execPadda]; exact withCurve_next ..
  | pdbla => simp only [exec, execPdbla]; exact withCurve_next ..
  | pmula => simp only [exec, execPmula]; exact withCurve_next ..
  | paddj => simp only [exec, execPaddj]; exact withCurve_next ..
  | pdblj => simp only [exec, execPdblj]; exact withCurve_next ..
  | pmulj => simp only [exec, execPmulj]; exact withCurve_next ..
  | a2j => simp only [exec, execA2j]; exact withCurve_next ..
  | j2a => simp only [exec, execJ2a]; exact withCurve_next ..

end Sys2Proof.Machine
end

