-- ==== Sys2Proof/Laws/PerInstr.lean ====
section
/-! SUPPORT. The family TableMatch: every command's encoding carries its row's fixed bits, as the match and mask of
spec/opcode_table.json give them. -/

namespace Sys2Proof.Laws

/-- The mask of a command's row in the opcode table. -/
def rowMask : Instr → Word
  | .nop => 0xFFFFFFFF
  | .mov _ _ => 0xFFFF00FF
  | .cmp _ _ => 0xFFFFF00F
  | .modset _ _ => 0xFF7FF0FF
  | .seta _ => 0xFFFFF0FF
  | .modadd _ _ _ _ => 0xFF7F000F
  | .modsub _ _ _ _ => 0xFF7F000F
  | .modmul _ _ _ _ => 0xFF7F000F
  | .modred _ _ _ _ _ => 0xFF3F000F
  | .modinv _ _ _ => 0xFF7F00FF
  | .montmul _ _ _ _ => 0xFF7F000F
  | .tomont _ _ _ => 0xFF7F00FF
  | .frommont _ _ _ => 0xFF7F00FF
  | .padda _ _ _ => 0xFFFF000F
  | .pdbla _ _ => 0xFFFF00FF
  | .pmula _ _ _ => 0xFFFF000F
  | .paddj _ _ _ => 0xFFFF000F
  | .pdblj _ _ => 0xFFFF00FF
  | .pmulj _ _ _ => 0xFFFF000F
  | .a2j _ _ => 0xFFFF00FF
  | .j2a _ _ => 0xFFFF00FF

/-- The match of a command's row in the opcode table. -/
def rowMatch : Instr → Word
  | .nop => 0x00000000
  | .mov _ _ => 0x01000000
  | .cmp _ _ => 0x02000000
  | .modset _ _ => 0x08000000
  | .seta _ => 0x09000000
  | .modadd _ _ _ _ => 0x10000000
  | .modsub _ _ _ _ => 0x11000000
  | .modmul _ _ _ _ => 0x12000000
  | .modred _ _ _ _ _ => 0x13000000
  | .modinv _ _ _ => 0x14000000
  | .montmul _ _ _ _ => 0x18000000
  | .tomont _ _ _ => 0x19000000
  | .frommont _ _ _ => 0x1A000000
  | .padda _ _ _ => 0x20000000
  | .pdbla _ _ => 0x21000000
  | .pmula _ _ _ => 0x22000000
  | .paddj _ _ _ => 0x28000000
  | .pdblj _ _ => 0x29000000
  | .pmulj _ _ _ => 0x2A000000
  | .a2j _ _ => 0x30000000
  | .j2a _ _ => 0x31000000

/-- The fixed bits of an encoding are its row's. -/
def TableMatch.Statement (i : Instr) : Prop := encode i &&& rowMask i = rowMatch i

@[simp] theorem place_zero (lo n : Nat) : place lo 0#n = 0#32 := by simp [place]

/-- A packed word is the OR of its fields, each alone. -/
theorem pack_split (opc : BitVec 8) (ms s : Bool) (rd ra rb : Reg) :
    pack opc ms s rd ra rb =
      pack opc false false 0 0 0 ||| pack 0 ms false 0 0 0 ||| pack 0 false s 0 0 0 ||| pack 0 false false rd 0 0
        ||| pack 0 false false 0 ra 0 ||| pack 0 false false 0 0 rb := by
  simp [pack]

/-- Masking a packed word, field by field. -/
theorem pack_and {opc : BitVec 8} {ms s : Bool} {rd ra rb : Reg} {mask m : Word}
    (h0 : pack opc false false 0 0 0 &&& mask = m) (hms : pack 0 ms false 0 0 0 &&& mask = 0)
    (hs : pack 0 false s 0 0 0 &&& mask = 0) (hrd : pack 0 false false rd 0 0 &&& mask = 0)
    (hra : pack 0 false false 0 ra 0 &&& mask = 0) (hrb : pack 0 false false 0 0 rb &&& mask = 0) :
    pack opc ms s rd ra rb &&& mask = m := by
  rw [pack_split]
  simp only [BitVec.and_or_distrib_right, h0, hms, hs, hrd, hra, hrb]
  simp

theorem TableMatch.nop : TableMatch.Statement (.nop) := by
  simp only [TableMatch.Statement, encode, rowMask, rowMatch]
  exact pack_and (by decide) (by decide) (by decide) (by decide) (by decide) (by decide)
theorem TableMatch.mov (rd ra : Reg) : TableMatch.Statement (.mov rd ra) := by
  simp only [TableMatch.Statement, encode, rowMask, rowMatch]
  exact pack_and (by decide) (by decide) (by decide) (by decide +revert) (by decide +revert) (by decide)
theorem TableMatch.cmp (ra rb : Reg) : TableMatch.Statement (.cmp ra rb) := by
  simp only [TableMatch.Statement, encode, rowMask, rowMatch]
  exact pack_and (by decide) (by decide) (by decide) (by decide) (by decide +revert) (by decide +revert)
theorem TableMatch.modset (ms : Slot) (ra : Reg) : TableMatch.Statement (.modset ms ra) := by
  simp only [TableMatch.Statement, encode, rowMask, rowMatch]
  exact pack_and (by decide) (by cases ms <;> decide) (by decide) (by decide) (by decide +revert) (by decide)
theorem TableMatch.seta (ra : Reg) : TableMatch.Statement (.seta ra) := by
  simp only [TableMatch.Statement, encode, rowMask, rowMatch]
  exact pack_and (by decide) (by decide) (by decide) (by decide) (by decide +revert) (by decide)
theorem TableMatch.modadd (ms : Slot) (rd ra rb : Reg) : TableMatch.Statement (.modadd ms rd ra rb) := by
  simp only [TableMatch.Statement, encode, rowMask, rowMatch]
  exact pack_and (by decide) (by cases ms <;> decide) (by decide) (by decide +revert) (by decide +revert) (by decide +revert)
theorem TableMatch.modsub (ms : Slot) (rd ra rb : Reg) : TableMatch.Statement (.modsub ms rd ra rb) := by
  simp only [TableMatch.Statement, encode, rowMask, rowMatch]
  exact pack_and (by decide) (by cases ms <;> decide) (by decide) (by decide +revert) (by decide +revert) (by decide +revert)
theorem TableMatch.modmul (ms : Slot) (rd ra rb : Reg) : TableMatch.Statement (.modmul ms rd ra rb) := by
  simp only [TableMatch.Statement, encode, rowMask, rowMatch]
  exact pack_and (by decide) (by cases ms <;> decide) (by decide) (by decide +revert) (by decide +revert) (by decide +revert)
theorem TableMatch.modred (ms : Slot) (neg : Bool) (rd ra rb : Reg) : TableMatch.Statement (.modred ms neg rd ra rb) := by
  simp only [TableMatch.Statement, encode, rowMask, rowMatch]
  exact pack_and (by decide) (by cases ms <;> decide) (by decide +revert) (by decide +revert) (by decide +revert) (by decide +revert)
theorem TableMatch.modinv (ms : Slot) (rd ra : Reg) : TableMatch.Statement (.modinv ms rd ra) := by
  simp only [TableMatch.Statement, encode, rowMask, rowMatch]
  exact pack_and (by decide) (by cases ms <;> decide) (by decide) (by decide +revert) (by decide +revert) (by decide)
theorem TableMatch.montmul (ms : Slot) (rd ra rb : Reg) : TableMatch.Statement (.montmul ms rd ra rb) := by
  simp only [TableMatch.Statement, encode, rowMask, rowMatch]
  exact pack_and (by decide) (by cases ms <;> decide) (by decide) (by decide +revert) (by decide +revert) (by decide +revert)
theorem TableMatch.tomont (ms : Slot) (rd ra : Reg) : TableMatch.Statement (.tomont ms rd ra) := by
  simp only [TableMatch.Statement, encode, rowMask, rowMatch]
  exact pack_and (by decide) (by cases ms <;> decide) (by decide) (by decide +revert) (by decide +revert) (by decide)
theorem TableMatch.frommont (ms : Slot) (rd ra : Reg) : TableMatch.Statement (.frommont ms rd ra) := by
  simp only [TableMatch.Statement, encode, rowMask, rowMatch]
  exact pack_and (by decide) (by cases ms <;> decide) (by decide) (by decide +revert) (by decide +revert) (by decide)
theorem TableMatch.padda (rd ra rb : Reg) : TableMatch.Statement (.padda rd ra rb) := by
  simp only [TableMatch.Statement, encode, rowMask, rowMatch]
  exact pack_and (by decide) (by decide) (by decide) (by decide +revert) (by decide +revert) (by decide +revert)
theorem TableMatch.pdbla (rd ra : Reg) : TableMatch.Statement (.pdbla rd ra) := by
  simp only [TableMatch.Statement, encode, rowMask, rowMatch]
  exact pack_and (by decide) (by decide) (by decide) (by decide +revert) (by decide +revert) (by decide)
theorem TableMatch.pmula (rd ra rb : Reg) : TableMatch.Statement (.pmula rd ra rb) := by
  simp only [TableMatch.Statement, encode, rowMask, rowMatch]
  exact pack_and (by decide) (by decide) (by decide) (by decide +revert) (by decide +revert) (by decide +revert)
theorem TableMatch.paddj (rd ra rb : Reg) : TableMatch.Statement (.paddj rd ra rb) := by
  simp only [TableMatch.Statement, encode, rowMask, rowMatch]
  exact pack_and (by decide) (by decide) (by decide) (by decide +revert) (by decide +revert) (by decide +revert)
theorem TableMatch.pdblj (rd ra : Reg) : TableMatch.Statement (.pdblj rd ra) := by
  simp only [TableMatch.Statement, encode, rowMask, rowMatch]
  exact pack_and (by decide) (by decide) (by decide) (by decide +revert) (by decide +revert) (by decide)
theorem TableMatch.pmulj (rd ra rb : Reg) : TableMatch.Statement (.pmulj rd ra rb) := by
  simp only [TableMatch.Statement, encode, rowMask, rowMatch]
  exact pack_and (by decide) (by decide) (by decide) (by decide +revert) (by decide +revert) (by decide +revert)
theorem TableMatch.a2j (rd ra : Reg) : TableMatch.Statement (.a2j rd ra) := by
  simp only [TableMatch.Statement, encode, rowMask, rowMatch]
  exact pack_and (by decide) (by decide) (by decide) (by decide +revert) (by decide +revert) (by decide)
theorem TableMatch.j2a (rd ra : Reg) : TableMatch.Statement (.j2a rd ra) := by
  simp only [TableMatch.Statement, encode, rowMask, rowMatch]
  exact pack_and (by decide) (by decide) (by decide) (by decide +revert) (by decide +revert) (by decide)

end Sys2Proof.Laws
end

