-- ==== Sys2Proof/Laws/Step.lean ====
section
/-! SUPPORT. What the window, the engine and a step can do: one inversion lemma each. -/

namespace Sys2Proof.Machine

/-! ### The register window -/

theorem writeCmd_idle {s : State} (c : Word) (h : s.busy = false) : writeCmd c s = accept c s := by
  simp [writeCmd, h]

theorem writeCmd_busy {s : State} (c : Word) (h : s.busy = true) : writeCmd c s = { s with ovr := true } := by
  simp [writeCmd, h]

theorem writeReg_idle {s : State} (i : Reg) {j : Nat} (v : Word) (hj : j < wordsPerReg s.width) (h : s.busy = false) :
    writeReg i j v s = s.setX i (putWord (s.x i) j v) := by
  simp [writeReg, hj, h]

theorem writeReg_busy {s : State} (i : Reg) {j : Nat} (v : Word) (hj : j < wordsPerReg s.width) (h : s.busy = true) :
    writeReg i j v s = { s with ovr := true } := by
  simp [writeReg, hj, h]

theorem writeReg_above {s : State} (i : Reg) {j : Nat} (v : Word) (hj : wordsPerReg s.width ≤ j) :
    writeReg i j v s = s := by
  simp [writeReg, Nat.not_lt.mpr hj]

/-- Everything a legal write to the window can do (R38, R40, R42, R73, R80, R81). -/
inductive Written (s : State) (v : Word) : State → Prop where
  | ignored : Written s v s
  | dropped (h : s.busy = true) : Written s v { s with ovr := true }
  | softReset (h : v.getLsbD 1 = true) : Written s v (softReset s)
  | ie : Written s v { s with ie := v.getLsbD 0 }
  | status : Written s v (writeStatus v s)
  | accepted (h : s.busy = false) : Written s v (accept v s)
  | reg (i : Reg) (j : Nat) (hj : j < wordsPerReg s.width) (h : s.busy = false) :
      Written s v (s.setX i (putWord (s.x i) j v))

theorem writeLoc_cases (s : State) (v : Word) (l : Loc) : Written s v (s.writeLoc v l) := by
  cases l with
  | ctrl =>
    change Written s v (writeCtrl v s)
    unfold writeCtrl
    split
    next h => exact .softReset h
    next => exact .ie
  | status => exact .status
  | cmd =>
    change Written s v (writeCmd v s)
    cases h : s.busy with
    | true => rw [writeCmd_busy v h]; exact .dropped h
    | false => rw [writeCmd_idle v h]; exact .accepted h
  | regWord i j =>
    change Written s v (writeReg i j v s)
    by_cases hj : j < wordsPerReg s.width
    · cases h : s.busy with
      | true => rw [writeReg_busy i v hj h]; exact .dropped h
      | false => rw [writeReg_idle i v hj h]; exact .reg i j hj h
    · rw [writeReg_above i v (Nat.le_of_not_lt hj)]; exact .ignored
  | _ => exact .ignored

/-- Everything a host access can do. -/
theorem hostAccess_cases {a : Access} {s t : State} (h : hostAccess a s = .next t) :
    a.off < Config.windowSize ∧
      ((a.legal = false ∧ t = { s with reply := .busFault a.off }) ∨
       (a.legal = true ∧ a.kind = .read ∧ t = { s with reply := .data (s.busRead a.off) }) ∨
       (∃ v, a.legal = true ∧ a.kind = .write v ∧ t = { s.busWrite a.off v with reply := .ack })) := by
  unfold hostAccess at h
  split at h
  · cases h
  next hw =>
    refine ⟨Nat.lt_of_not_le hw, ?_⟩
    split at h
    next hl =>
      split at h
      next hk => cases h; exact .inr (.inl ⟨hl, hk, rfl⟩)
      next v hk => cases h; exact .inr (.inr ⟨v, hl, hk, rfl⟩)
    next hl => cases h; exact .inl ⟨by simpa using hl, rfl⟩

theorem hostAccess_next {a : Access} (s : State) (h : a.off < Config.windowSize) : ∃ t, hostAccess a s = .next t := by
  unfold hostAccess
  rw [if_neg (Nat.not_le.mpr h)]
  split
  · split <;> exact ⟨_, rfl⟩
  · exact ⟨_, rfl⟩

/-! ### The engine -/

theorem completeWord_ok {c : Word} {i : Instr} (s : State) (h : decode c = .ok i) : completeWord c s = exec i s := by
  simp [completeWord, h]

theorem completeWord_error {c : Word} {e : CmdError} (s : State) (h : decode c = .error e) :
    completeWord c s = .next (failCmd e s) := by
  simp [completeWord, h]

theorem completeWord_next (c : Word) (s : State) : ∃ t, completeWord c s = .next t := by
  cases h : decode c with
  | ok i => rw [completeWord_ok s h]; exact exec_next i s
  | error e => exact ⟨_, completeWord_error s h⟩

theorem completeWord_cases {c : Word} {s t : State} (h : completeWord c s = .next t) : Completes s t := by
  cases hd : decode c with
  | ok i => rw [completeWord_ok s hd] at h; exact exec_cases h
  | error e => rw [completeWord_error s hd] at h; cases h; exact .failed e

theorem engineDone_busy {c : Word} {n : Nat} {s : State} (h : s.engine = .busy c n) :
    engineDone s = completeWord c s := by
  simp [engineDone, h]

theorem engineDone_idle {s : State} (h : s.engine = .idle) : engineDone s = .next s := by
  simp [engineDone, h]

theorem engineDone_next (s : State) : ∃ t, engineDone s = .next t := by
  cases h : s.engine with
  | idle => exact ⟨_, engineDone_idle h⟩
  | busy c n => rw [engineDone_busy h]; exact completeWord_next c s

/-- Everything the hidden iteration can do: the bit index moves on, or nothing (R48). -/
theorem engineWork_cases (s : State) :
    engineWork s = s ∨
      ∃ c n d, s.engine = .busy c n ∧ s.loopScalar = some d ∧ n < bitlen d ∧
        engineWork s = { s with engine := .busy c (n + 1) } := by
  unfold engineWork
  split
  next c n d he hd =>
    split
    next hn => exact .inr ⟨c, n, d, he, hd, hn, rfl⟩
    next => exact .inl rfl
  next => exact .inl rfl

/-! ### A step -/

theorem step_nil {s : State} (h : s.pending = []) : step s = engineDone s := by
  unfold step; rw [h]

theorem step_cons {s : State} {e : Event} {l : List Event} (h : s.pending = e :: l) :
    step s = perform e { s with pending := l } := by
  unfold step; rw [h]

/-- Only an access outside the window stops the EAU. -/
theorem perform_next (e : Event) (s : State) (h : ∀ a, e = .access a → a.off < Config.windowSize) :
    ∃ t, perform e s = .next t := by
  cases e with
  | access a => exact hostAccess_next s (h a rfl)
  | hwReset => exact ⟨_, rfl⟩
  | engineWork => exact ⟨_, rfl⟩
  | engineDone => exact engineDone_next s

/-- Everything a step can do, on the state with the event taken off `pending`. -/
theorem step_cases {s t : State} (h : step s = .next t) :
    (s.pending = [] ∧ engineDone s = .next t) ∨
    ∃ e l, s.pending = e :: l ∧
      ((∃ a, e = .access a ∧ hostAccess a { s with pending := l } = .next t) ∨
       (e = .hwReset ∧ t = hardReset { s with pending := l }) ∨
       (e = .engineWork ∧ t = engineWork { s with pending := l }) ∨
       (e = .engineDone ∧ engineDone { s with pending := l } = .next t)) := by
  cases hp : s.pending with
  | nil => rw [step_nil hp] at h; exact .inl ⟨rfl, h⟩
  | cons e l =>
    rw [step_cons hp] at h
    refine .inr ⟨e, l, rfl, ?_⟩
    cases e with
    | access a => exact .inl ⟨a, rfl, h⟩
    | hwReset => cases h; exact .inr (.inl ⟨rfl, rfl⟩)
    | engineWork => cases h; exact .inr (.inr (.inl ⟨rfl, rfl⟩))
    | engineDone => exact .inr (.inr (.inr ⟨rfl, h⟩))

/-- `withFetchWord` makes the next step run the word (log 14). -/
theorem step_withFetchWord (s : State) (nbits w : Nat) :
    step (s.withFetchWord nbits w) =
      completeWord (tableWord nbits w) { accept (tableWord nbits w) s with pending := s.pending } := rfl

end Sys2Proof.Machine
end

