-- ==== Sys2Proof/Machine/Script.lean ====
section
/-! DEFINITION. Host script notation (30_encoding.md R110), as lists of events; a script describes host bus
activity, not EAU commands. Control flow (`if`, labels, `stop`) is the host's. -/

namespace Sys2Proof.Machine

/-- The offset of word `j` of `Ri` (R72). -/
def regOffset (i : Reg) (j : Nat) : Nat := 0x400 + 0x80 * i.val + 4 * j

def busReadEvent (off : Nat) : Event := .access { off := off, size := .word, kind := .read }
def busWriteEvent (off : Nat) (v : Word) : Event := .access { off := off, size := .word, kind := .write v }

/-- `wr rI = v`: the `NW` bus writes that load `x[I]`. -/
def scriptWr (width : Nat) (i : Reg) (v : Nat) : List Event :=
  (List.range (wordsPerReg width)).map fun j => busWriteEvent (regOffset i j) (BitVec.ofNat 32 (v / 2 ^ (32 * j)))

/-- `cmd`: a bus write of the command's word to CMD. -/
def scriptCmd (i : Instr) : List Event := [busWriteEvent 0x018 (encode i)]

/-- `wait`: the host polls STATUS until DONE, so the completion comes first (R83), and one read sees DONE. -/
def scriptWait : List Event := [.engineDone, busReadEvent 0x010]

/-- `rdreg rI`: the register's words. -/
def scriptRdreg (width : Nat) (i : Reg) : List Event :=
  (List.range (wordsPerReg width)).map fun j => busReadEvent (regOffset i j)

def scriptRdflags : List Event := [busReadEvent 0x014]
def scriptRdstatus : List Event := [busReadEvent 0x010]

end Sys2Proof.Machine
end

