-- ==== Sys2Proof/Tests/Slice0.lean ====
section
/-! SUPPORT. The model's own tests. Expected values are those of spec/95_test_vectors.md (the section is named at each
test) or are worked out by hand from the rule named; none is the model's own answer. Then, for every statement that has
hypotheses, a concrete state and operands that meet them, clause by clause. -/

namespace Sys2Proof.Tests

open Sys2Proof Sys2Proof.Machine

/-! ### Helpers -/

/-- Slot P loaded with `p`, `A = a`. -/
def overP (p a : Nat) : State := { State.reset with slotP := ModSlot.load p, a := a }

/-- Curve T1 of 95: `y^2 = x^3 + 2x + 2` over 17, its group of order 19. -/
def t1 : State := { overP 17 2 with slotN := ModSlot.load 19 }

/-- Registers written beforehand. -/
def withRegs (s : State) (l : List (Reg × Nat)) : State := l.foldl (fun s e => s.setX e.1 e.2) s

/-- The state after an accepted command word completes. -/
def after (s : State) (w : Nat) : Option State :=
  match step (s.withFetchWord 32 w) with
  | .next t => some t
  | .fault _ => none
  | .refused _ => none

/-- What a row of 95's tables lists: the registers, the FLAGS word and ERRCODE. -/
def row (s : State) (w : Nat) (l : List Reg) : Option (List Nat × Word × BitVec 4) :=
  (after s w).map fun t => (l.map t.x, t.busRead 0x014, t.errcode)

/-- STATUS, FLAGS and `irq` after the events, one step each. -/
def statusAfter (s : State) (l : List Event) : Option (Word × Word × Bool) :=
  match Sys2Proof.core.run l.length { s with pending := l } with
  | .next t => some (State.busRead t 0x010, State.busRead t 0x014, State.irq t)
  | .fault _ => none
  | .refused _ => none

/-- The word `w` in flight, and what comes next. -/
def inFlight (s : State) (w : Word) (l : List Event) : State := { accept w s with pending := l }

/-- All the bits of an operand register (W = 576). -/
def allOnes : Nat := 2 ^ 576 - 1

/-! ### WellFormed: an ill-formed term for each check, which the check refuses -/

theorem test_wf_affine_base : Reg.affineBase 15 = false ∧ Reg.affineBase 14 = true := by decide
theorem test_wf_jacobian_base : Reg.jacobianBase 14 = false ∧ Reg.jacobianBase 13 = true := by decide
theorem test_wf_padda : Instr.wf (.padda 15 0 0) = false ∧ Instr.wf (.padda 0 15 0) = false ∧
    Instr.wf (.padda 0 0 15) = false := by decide
theorem test_wf_pdbla : Instr.wf (.pdbla 15 0) = false ∧ Instr.wf (.pdbla 0 15) = false := by decide
theorem test_wf_pmula : Instr.wf (.pmula 15 0 0) = false ∧ Instr.wf (.pmula 0 0 15) = false ∧
    Instr.wf (.pmula 14 15 0) = true := by decide
theorem test_wf_paddj : Instr.wf (.paddj 14 0 0) = false ∧ Instr.wf (.paddj 0 14 0) = false ∧
    Instr.wf (.paddj 0 0 14) = false := by decide
theorem test_wf_pdblj : Instr.wf (.pdblj 14 0) = false ∧ Instr.wf (.pdblj 0 14) = false := by decide
theorem test_wf_pmulj : Instr.wf (.pmulj 14 0 0) = false ∧ Instr.wf (.pmulj 0 0 14) = false ∧
    Instr.wf (.pmulj 13 15 0) = true := by decide
theorem test_wf_a2j : Instr.wf (.a2j 14 0) = false ∧ Instr.wf (.a2j 0 15) = false ∧
    Instr.wf (.a2j 13 14) = true := by decide
theorem test_wf_j2a : Instr.wf (.j2a 15 0) = false ∧ Instr.wf (.j2a 0 14) = false ∧
    Instr.wf (.j2a 14 13) = true := by decide

/-! ### Decoding: words written out from R100 and R104 -/

theorem test_decode_control :
    decodeTableWord 32 0x00000000 = some .nop ∧ decodeTableWord 32 0x0100A500 = some (.mov 10 5) ∧
    decodeTableWord 32 0x02000A50 = some (.cmp 10 5) ∧ decodeTableWord 32 0x08000C00 = some (.modset .p 12) ∧
    decodeTableWord 32 0x08800C00 = some (.modset .n 12) ∧ decodeTableWord 32 0x09000C00 = some (.seta 12) := by decide

theorem test_decode_modular :
    decodeTableWord 32 0x100031C0 = some (.modadd .p 3 1 12) ∧ decodeTableWord 32 0x118031C0 = some (.modsub .n 3 1 12) ∧
    decodeTableWord 32 0x12003120 = some (.modmul .p 3 1 2) ∧ decodeTableWord 32 0x12803120 = some (.modmul .n 3 1 2) ∧
    decodeTableWord 32 0x13405120 = some (.modred .p true 5 1 2) ∧
    decodeTableWord 32 0x13805120 = some (.modred .n false 5 1 2) ∧
    decodeTableWord 32 0x14803100 = some (.modinv .n 3 1) := by decide

theorem test_decode_montgomery :
    decodeTableWord 32 0x18803120 = some (.montmul .n 3 1 2) ∧ decodeTableWord 32 0x19004100 = some (.tomont .p 4 1) ∧
    decodeTableWord 32 0x1A805400 = some (.frommont .n 5 4) := by decide

theorem test_decode_point :
    decodeTableWord 32 0x2000E120 = some (.padda 14 1 2) ∧ decodeTableWord 32 0x2100E100 = some (.pdbla 14 1) ∧
    decodeTableWord 32 0x2800D120 = some (.paddj 13 1 2) ∧ decodeTableWord 32 0x2900D100 = some (.pdblj 13 1) ∧
    decodeTableWord 32 0x3000DE00 = some (.a2j 13 14) ∧ decodeTableWord 32 0x3100ED00 = some (.j2a 14 13) := by decide

theorem test_decode_scalar :
    decodeTableWord 32 0x2200EF10 = some (.pmula 14 15 1) ∧ decodeTableWord 32 0x2A00A940 = some (.pmulj 10 9 4) := by
  decide

/-- 95 section 2.1: state P = 17, N invalid, every register 1; the words and what STATUS reports. -/
def decodeRow (w : Nat) : Option (BitVec 4) :=
  (after { overP 17 0 with regs := Vector.ofFn fun _ => 1 } w).map fun t => t.errcode

theorem test_decode_outcomes_a :
    [0x00000000, 0x00000001, 0x00001000, 0x01001000, 0x01001010, 0x01801000, 0x03000000, 0xFF000000, 0x0300000F,
      0x12013120, 0x12403120, 0x12803120, 0x1280312F].map decodeRow =
    [0, 2, 2, 0, 2, 2, 1, 1, 1, 2, 2, 3, 2].map some := by decide +kernel

theorem test_decode_outcomes_b :
    [0x13405120, 0x2000E000, 0x2000F000, 0x2800D000, 0x2800E000, 0x20800000, 0x2200EF00, 0x3100E000, 0x31000E00,
      0x19804100, 0x08800100, 0x09000000, 0x09001000].map decodeRow =
    [0, 0, 2, 0, 2, 2, 0, 0, 2, 3, 0, 0, 2].map some := by decide +kernel

/-- R108's syntax and R109's expansions, as 95 writes them. -/
theorem test_assembly :
    Instr.asm (.modred .p true 5 1 2) = "MODRED.p.neg r5, r1, r2" ∧ Instr.asm (.pmulj 10 9 4) = "PMULJ r10, r9, r4" ∧
    Instr.asm (.modset .n 0) = "MODSET.n r0" ∧ encode (pseudoModsqr .p 1 1) = 0x12001110#32 ∧
    encode (pseudoModneg .p 3 2 0) = 0x11003020#32 ∧ encode (pseudoModrdc .p 1 1 0) = 0x10001100#32 ∧
    encode (pseudoMontsqr .p 3 1) = 0x18003110#32 := by decide +kernel

/-! ### The commands (95 sections 1.2 and 2.2 to 2.6) -/

theorem test_nop : row (overP 17 2) 0x00000000 [4] = some ([5], 0x0#32, 0#4) := by decide +kernel
theorem test_mov : row (withRegs State.reset [(0, 0)]) 0x01001000 [1] = some ([0], 0x1#32, 0#4) := by decide +kernel
theorem test_cmp_less : row (withRegs State.reset [(0, 0), (1, allOnes)]) 0x02000010 [] = some ([], 0x8#32, 0#4) := by
  decide +kernel
theorem test_cmp_equal : row (withRegs State.reset [(1, 5), (2, 5)]) 0x02000120 [] = some ([], 0x1#32, 0#4) := by
  decide +kernel
theorem test_modset : (after (withRegs State.reset [(0, 97)]) 0x08000000).map
    (fun t => (t.slotP, t.busRead 0x01C, t.busRead 0x010)) =
      some (⟨97, true, 7, 168, 32, true⟩, 0x00000007#32, 0x00050002#32) := by decide +kernel
theorem test_modset_zero : (after (withRegs t1 [(0, 0)]) 0x08000000).map
    (fun t => (t.slotP.mod, t.errcode, t.busRead 0x010)) = some (17, 4#4, 0x000F0406#32) := by decide +kernel
theorem test_seta : (after (withRegs (overP 17 0) [(0, 19)]) 0x09000000).map
    (fun t => (t.a, t.coeff, t.busRead 0xD00, t.busRead 0x014)) = some (19, 2, 19#32, 0x0#32) := by decide +kernel
theorem test_modadd : row (withRegs (overP 101 0) [(1, allOnes), (2, allOnes)]) 0x10003120 [3] =
    some ([59], 0x0#32, 0#4) := by decide +kernel
theorem test_modadd_invalid : row (withRegs State.reset [(1, 1), (2, 2)]) 0x10003120 [3] =
    some ([4], 0x0#32, 3#4) := by decide +kernel
theorem test_modsub : row (withRegs (overP 97 0) [(1, 3), (2, 10)]) 0x11003120 [3] = some ([90], 0x0#32, 0#4) := by
  decide +kernel
theorem test_modsub_multiple : row (withRegs (overP 97 0) [(1, 5), (2, 102)]) 0x11003120 [3] =
    some ([0], 0x1#32, 0#4) := by decide +kernel
theorem test_modmul : row (withRegs (overP 101 0) [(1, allOnes), (2, allOnes)]) 0x12003120 [3] =
    some ([37], 0x0#32, 0#4) := by decide +kernel
theorem test_modmul_slot_n : row (withRegs t1 [(1, 18), (2, 18)]) 0x12803120 [3] = some ([1], 0x0#32, 0#4) := by
  decide +kernel
theorem test_modred : row (withRegs (overP 97 0) [(1, 1), (2, 5)]) 0x13005120 [5] = some ([6], 0x0#32, 0#4) := by
  decide +kernel
theorem test_modred_neg : row (withRegs (overP 97 0) [(1, 1), (2, 5)]) 0x13405120 [5] =
    some ([91], 0x0#32, 0#4) := by decide +kernel
theorem test_modinv : row (withRegs (overP 97 0) [(1, 3)]) 0x14003100 [3] = some ([65], 0x0#32, 0#4) := by
  decide +kernel
theorem test_modinv_none : row (withRegs (overP 100 0) [(1, 10)]) 0x14003100 [3] = some ([0], 0x5#32, 0#4) := by
  decide +kernel
theorem test_montmul : row (withRegs (overP 97 0) [(1, 78), (2, 51)]) 0x18003120 [3] =
    some ([61], 0x0#32, 0#4) := by decide +kernel
theorem test_tomont : row (withRegs (overP 97 0) [(1, 5)]) 0x19004100 [4] = some ([78], 0x0#32, 0#4) := by
  decide +kernel
theorem test_tomont_even : row (withRegs (overP 96 0) [(0, 5)]) 0x19001000 [1] = some ([2], 0x0#32, 5#4) := by
  decide +kernel
theorem test_frommont : row (withRegs (overP 97 0) [(4, 61)]) 0x1A005400 [5] = some ([35], 0x0#32, 0#4) := by
  decide +kernel
theorem test_paddj : row (withRegs t1 [(0, 22), (1, 18), (2, 18), (3, 7), (4, 7), (5, 2)]) 0x28006030 [6, 7, 8] =
    some ([11, 12, 8], 0x0#32, 0#4) := by decide +kernel
theorem test_paddj_infinite : row (withRegs t1 [(0, 1), (1, 1), (2, 0), (3, 2), (4, 5), (5, 34)]) 0x28006030 [6, 7, 8] =
    some ([1, 1, 0], 0x3#32, 0#4) := by decide +kernel
theorem test_pdblj : row (withRegs t1 [(0, 7), (1, 7), (2, 2)]) 0x29003000 [3, 4, 5] =
    some ([6, 5, 11], 0x0#32, 0#4) := by decide +kernel
theorem test_pdblj_order_two : row (withRegs (overP 97 2) [(0, 30), (1, 0), (2, 1)]) 0x29000000 [0, 1, 2] =
    some ([1, 1, 0], 0x3#32, 0#4) := by decide +kernel
theorem test_a2j : row (withRegs t1 [(2, 6), (3, 3)]) 0x30001200 [1, 2, 3] = some ([6, 3, 1], 0x0#32, 0#4) := by
  decide +kernel
theorem test_a2j_infinite : row (withRegs (overP 1 0) [(8, 5), (9, 1)]) 0x30000800 [0, 1, 2] =
    some ([1, 1, 0], 0x3#32, 0#4) := by decide +kernel
theorem test_j2a : row (withRegs t1 [(3, 7), (4, 7), (5, 2)]) 0x31003300 [3, 4] = some ([6, 3], 0x0#32, 0#4) := by
  decide +kernel
theorem test_j2a_noinv : row (withRegs (overP 15 0) [(3, 1), (4, 1), (5, 3)]) 0x31008300 [8, 9] =
    some ([0, 0], 0x7#32, 0#4) := by decide +kernel
theorem test_pmula : row (withRegs t1 [(9, 7), (0, 5), (1, 1)]) 0x22004900 [4, 5] = some ([0, 6], 0x0#32, 0#4) := by
  decide +kernel
theorem test_pmula_noinv : row (withRegs (overP 15 0) [(9, 2), (0, 1), (1, 3)]) 0x22004900 [4, 5] =
    some ([13, 12], 0x4#32, 0#4) := by decide +kernel
theorem test_pmulj : row (withRegs t1 [(9, 18), (0, 5), (1, 1), (2, 1)]) 0x2A00A900 [10, 11, 12] =
    some ([6, 6, 12], 0x0#32, 0#4) := by decide +kernel
theorem test_pmulj_order : row (withRegs t1 [(9, 19), (0, 5), (1, 1), (2, 1)]) 0x2A00A900 [10, 11, 12] =
    some ([1, 1, 0], 0x3#32, 0#4) := by decide +kernel
theorem test_padda : row (withRegs t1 [(0, 5), (1, 1), (2, 6), (3, 3)]) 0x20001020 [1, 2] =
    some ([10, 6], 0x0#32, 0#4) := by decide +kernel
theorem test_padda_noinv : row (withRegs (overP 15 0) [(0, 1), (1, 3), (2, 4), (3, 5)]) 0x20004020 [4, 5] =
    some ([10, 12], 0x4#32, 0#4) := by decide +kernel
theorem test_pdbla : row (withRegs t1 [(0, 10), (1, 6)]) 0x21000000 [0, 1] = some ([16, 13], 0x0#32, 0#4) := by
  decide +kernel
theorem test_pdbla_order_two : row (withRegs (overP 97 2) [(0, 30), (1, 0)]) 0x21002000 [2, 3] =
    some ([0, 0], 0x3#32, 0#4) := by decide +kernel

/-! ### The hidden loop (95 section 2.6, the trace of `d = 5`) -/

/-- PMULJ r10, r9, r0 with `d = 5` in flight, `n` iterations done. -/
def loopAt (n : Nat) : State := { withRegs t1 [(9, 5), (0, 5), (1, 1), (2, 1)] with engine := .busy 0x2A00A900#32 n }

theorem test_ladder_trace :
    (loopAt 0).ladderView = some (.jacobian 3 ⟨1, 1, 0⟩ ⟨1, 1, 0⟩ ⟨5, 1, 1⟩) ∧
    (loopAt 1).ladderView = some (.jacobian 2 ⟨5, 1, 1⟩ ⟨7, 7, 2⟩ ⟨11, 5, 9⟩) ∧
    (loopAt 2).ladderView = some (.jacobian 1 ⟨7, 7, 2⟩ ⟨6, 5, 11⟩ ⟨16, 3, 10⟩) := by decide +kernel

theorem test_ladder_work : engineWork (loopAt 1) = loopAt 2 ∧ engineWork (loopAt 3) = loopAt 3 ∧
    (loopAt 3).willCommit.map (fun t => t.xj 10) = some ⟨16, 3, 10⟩ := by decide +kernel

/-! ### The protocol (95 section 2.8) -/

/-- The start of 95's sequence: P = 17, N = 19, IE = 1, x[1] = 16, x[2] = 1. -/
def protocolStart : State := { withRegs t1 [(1, 16), (2, 1)] with ie := true }

/-- Its steps 1 to 14. -/
def protocol : List Event :=
  [writeEvent 0x018 0x10003120, readEvent 0x580, writeEvent 0x480 5, writeEvent 0x018 0, .engineDone,
    writeEvent 0x010 0x8, writeEvent 0x010 0x2] ++
  [writeEvent 0x018 0x03000000, .engineDone, readEvent 0x018, writeEvent 0x018 0x02000120, writeEvent 0x00C 0x2,
    writeEvent 0x00C 0x1, .access ⟨0x010, .half, .read⟩]

theorem test_protocol_first :
    [1, 2, 3, 4, 5, 6, 7].map (fun k => statusAfter protocolStart (protocol.take k)) =
      [(0x000F0001#32, 0x0#32, false), (0x000F0001#32, 0x0#32, false), (0x000F0009#32, 0x0#32, false),
        (0x000F0009#32, 0x0#32, false), (0x000F000A#32, 0x1#32, true), (0x000F0002#32, 0x1#32, true),
        (0x000F0000#32, 0x1#32, false)].map some := by decide +kernel

theorem test_protocol_second :
    [8, 9, 10, 11].map (fun k => statusAfter protocolStart (protocol.take k)) =
      [(0x000F0001#32, 0x1#32, false), (0x000F0106#32, 0x1#32, true), (0x000F0106#32, 0x1#32, true),
        (0x000F0001#32, 0x1#32, false)].map some := by decide +kernel

/-- Step 12 is the soft reset; only fields that no free value enters are read. -/
theorem test_soft_reset : (match step { protocolStart with pending := [writeEvent 0x00C 0x2] } with
    | .next t => decide (t.busRead 0x010 = 0#32 ∧ t.busRead 0x014 = 0#32 ∧ t.busRead 0x01C = 0#32 ∧ t.a = 0 ∧
        t.ie = false ∧ t.x 1 = 16 ∧ t.busRead 0x008 = 0x00100240#32)
    | _ => false) = true := by decide

/-- Step 14: a 16-bit access. -/
theorem test_bus_fault : step { t1 with pending := [.access ⟨0x010, .half, .read⟩] } =
    .next { t1 with reply := .busFault 0x010 } := by rfl

/-- R72, R73, R75: word 1 of R2 is bits 63 to 32; word 17 is the last, and word 18 ignores a write. -/
theorem test_register_words :
    (withRegs t1 [(2, 0x1122334455667788)]).busRead 0x504 = 0x11223344#32 ∧
    ((withRegs t1 [(2, 0x1122334455667788)]).busWrite 0x500 0xAABBCCDD).x 2 = 0x11223344AABBCCDD ∧
    ((withRegs t1 [(2, 0)]).busWrite 0x544 0x1).x 2 = 2 ^ 544 ∧ (t1.busWrite 0x548 0x1) = t1 := by decide +kernel

/-- R72: the windows onto the slots and `A`. -/
theorem test_windows : t1.busRead 0xC00 = 17#32 ∧ t1.busRead 0xC80 = 19#32 ∧ t1.busRead 0xD00 = 2#32 ∧
    t1.busRead 0xC48 = 0#32 ∧ t1.busRead 0x01C = 0x00050005#32 := by decide +kernel

/-- R110: `wr r0 = 17` writes its 18 words, then `MODSET.p r0` runs (95 section 3.1, steps 1 and 2). -/
theorem test_script : (match Sys2Proof.core.run 21 { State.reset with
      pending := scriptWr 576 0 17 ++ scriptCmd (.modset .p 0) ++ scriptWait } with
    | .next t => decide (State.slotP t = ModSlot.load 17 ∧ State.reply t = .data 0x00050002#32)
    | _ => false) = true := by decide +kernel

/-! ### Witnesses: the hypotheses of each statement, met together -/

/-- The invariant of a machine in the middle of its work: T1 with MODADD in flight. -/
def working : State := inFlight t1 0x10003120#32 [.engineDone]

/-- An empty slot's invariant. -/
theorem reset_slot_inv (w : Nat) : ModSlot.Inv w ModSlot.reset :=
  ⟨Nat.two_pow_pos w, fun h => (by cases h), fun _ => ⟨rfl, rfl, rfl⟩⟩

theorem slot_inv_17 : ModSlot.Inv 576 (ModSlot.load 17) :=
  ⟨by decide +kernel, fun _ => by decide +kernel, fun h => (by cases h)⟩

theorem slot_inv_19 : ModSlot.Inv 576 (ModSlot.load 19) :=
  ⟨by decide +kernel, fun _ => by decide +kernel, fun h => (by cases h)⟩

theorem working_inv : working.Inv where
  width := by decide
  regs := by decide +kernel
  coeff := by decide +kernel
  slotP := slot_inv_17
  slotN := slot_inv_19
  errcode := by decide
  err := by decide
  inFlight := by
    intro c n h
    cases h
    decide

theorem witness_DecodeInvertsEncode : Instr.wf (.padda 14 14 14) = true ∧ Instr.wf (.j2a 14 13) = true := by decide

theorem witness_EncodeInvertsDecode : decode 0x2000E000#32 = .ok (.padda 14 0 0) := by decide

/-- An unassigned opcode, a legal word, an illegal field. -/
theorem witness_DecodeFollowsOpcodeTable : opcodeRow (wordField 0x03000000#32 24 8) = none ∧
    (∃ r, opcodeRow (wordField 0x2000E000#32 24 8) = some r ∧ fieldsLegal r 0x2000E000#32 = true) ∧
    (∃ r, opcodeRow (wordField 0x2000F000#32 24 8) = some r ∧ fieldsLegal r 0x2000F000#32 = false) :=
  ⟨by decide, ⟨_, rfl, by decide⟩, ⟨_, rfl, by decide⟩⟩

theorem witness_StepRunsDecodedCommand : working.engine = .busy 0x10003120#32 0 ∧
    decode 0x10003120#32 = .ok (.modadd .p 3 1 2) ∧ working.pending = [.engineDone] ∧
    (inFlight t1 0x10003120#32 []).pending = [] := by decide

/-- Success, and each of the five errors in flight. -/
theorem witness_CommandChecksInOrder : working.engine = .busy 0x10003120#32 0 ∧ working.pending = [.engineDone] ∧
    commandError 0x10003120#32 t1 = none ∧ commandError 0x0300000F#32 t1 = some .illegalOpcode ∧
    commandError 0x1280312F#32 State.reset = some .illegalOperand ∧
    commandError 0x19804100#32 State.reset = some .modInvalid ∧
    commandError 0x08000000#32 (withRegs t1 [(0, 0)]) = some .divZero ∧
    commandError 0x19001000#32 (overP 96 0) = some .badMod := by decide +kernel

theorem witness_AcceptanceLatchesOperands :
    ({ t1 with pending := [writeEvent 0x018 0x2A00A900] } : State).busy = false ∧
    (∃ t, step (inFlight t1 0x2A00A900#32 [.engineWork]) = .next t ∧ t.busy = true) := ⟨by decide, _, rfl, by decide⟩

theorem witness_CmdRegister : ({ t1 with pending := [writeEvent 0x018 0x2A00A900] } : State).busy = false ∧
    (inFlight t1 0#32 [writeEvent 0x018 0]).busy = true ∧
    (∃ t, step { t1 with pending := [writeEvent 0x018 0x2A00A900] } = .next t ∧ t.cmd ≠ t1.cmd) ∧
    ∃ t, step { accept 0x2A00A900 t1 with pending := [.hwReset] } = .next t ∧ t.cmd ≠ (accept 0x2A00A900 t1).cmd :=
  ⟨by decide, by decide, ⟨_, rfl, by decide⟩, _, rfl, by decide⟩

theorem witness_BusyEngineCompletes : (inFlight t1 0#32 [.engineWork, writeEvent 0x018 0, readEvent 0xFFC]).busy = true ∧
    ∀ e ∈ [Event.engineWork, writeEvent 0x018 0, readEvent 0xFFC], quietEvent e := by
  refine ⟨by decide, ?_⟩
  intro e he
  simp only [List.mem_cons, List.not_mem_nil, or_false] at he
  obtain rfl | rfl | rfl := he <;> simp [quietEvent, IsReset, writeEvent, readEvent]

theorem witness_StepKeepsInvariant : ∃ t, working.Inv ∧ step working = .next t := ⟨_, working_inv, rfl⟩

/-- A completion that succeeds, and one that fails. -/
theorem witness_CommandFrame : (∃ t, exec (.modadd .p 3 1 2) t1 = .next t ∧ (3 : Reg) ∈ commandDests (.modadd .p 3 1 2) ∧
    (4 : Reg) ∉ commandDests (.modadd .p 3 1 2)) ∧ ∃ t, exec (.modadd .p 3 1 2) State.reset = .next t ∧ t.err = true :=
  ⟨⟨_, rfl, by decide, by decide⟩, _, rfl, by decide⟩

/-- MODSET.n r0 changes slot N, SETA r0 changes `A`, and the next event is no reset. -/
theorem witness_SlotsWrittenOnlyByModset :
    (∃ t, step (inFlight t1 0x08800000#32 []) = .next t ∧ t.slot .n ≠ t1.slot .n) ∧
    (∃ t, step (inFlight t1 0x09000000#32 []) = .next t ∧ t.a ≠ t1.a) ∧
    (∀ e, (inFlight t1 0x08800000#32 []).pending.head? = some e → ¬ IsReset e) :=
  ⟨⟨_, rfl, by decide +kernel⟩, ⟨_, rfl, by decide⟩, fun _ h => (by cases h)⟩

/-- Every clause at a boundary: CMD, the first and the last operand word, CTRL with and without SRST, STATUS with DONE
0 (a command is in flight), a read-only offset. -/
theorem witness_AccessesWhileBusy : (inFlight t1 0#32 []).busy = true ∧ (inFlight t1 0#32 []).done = false ∧
    (0x400 ≤ 0x400 ∧ 0x400 < 0xC00 ∧ 0x400 % 0x80 / 4 < t1.width / 32) ∧
    (0x400 ≤ 0xBC4 ∧ 0xBC4 < 0xC00 ∧ 0xBC4 % 0x80 / 4 < t1.width / 32) ∧
    (1#32).getLsbD 1 = false ∧ (2#32).getLsbD 1 = true ∧ ¬ (0x400 ≤ 0xFFC ∧ 0xFFC < 0xC00) ∧
    0xFFC < 0x1000 ∧ 0xFFC % 4 = 0 := by decide

theorem witness_BusFaultChangesNothing : 0xFFF < 0x1000 ∧ 0xFFF % 4 ≠ 0 ∧ AccessSize.half ≠ .word ∧
    ({ t1 with pending := [.access ⟨0xFFF, .word, .read⟩] } : State).pending = [.access ⟨0xFFF, .word, .read⟩] := by
  decide

theorem witness_AccessesAreIdempotent : 0xFFC < 0x1000 ∧ 0xFFC % 4 = 0 ∧ 0xFFC ≠ 0x018 ∧
    ¬ (0x00C = 0x00C ∧ (1#32).getLsbD 1 = true) ∧
    ({ t1 with pending := [readEvent 0xFFC] } : State).pending = readEvent 0xFFC :: [] := by decide

theorem witness_ReservedAndReadOnly : (0x020 % 4 = 0 ∧ 0x3FC % 4 = 0 ∧ 0xD80 % 4 = 0 ∧ 0xFFC % 4 = 0) ∧
    (0x020 ≤ 0x3FC ∧ 0x3FC < 0x400) ∧ (0xD80 ≤ 0xFFC ∧ 0xFFC < 0x1000) ∧
    ({ t1 with pending := [writeEvent 0xFFC 1] } : State).pending = writeEvent 0xFFC 1 :: [] := by decide

/-- The last word of a register, the first word past it, and the last one of its 128 bytes. -/
theorem witness_OperandRegisterWords : 17 < t1.width / 32 ∧ t1.width / 32 ≤ 18 ∧ 31 < 32 ∧ t1.busy = false ∧
    ({ t1 with pending := [writeEvent (0x400 + 0x80 * 15 + 4 * 17) 1] } : State).pending =
      writeEvent (0x400 + 0x80 * 15 + 4 * 17) 1 :: [] := by decide

theorem witness_ReadOnlyValueWindows : 17 < t1.width / 32 ∧ t1.width / 32 ≤ 18 ∧
    ({ t1 with pending := [writeEvent (0xD00 + 4 * 31) 1] } : State).pending =
      writeEvent (0xD00 + 4 * 31) 1 :: [] := by decide

theorem witness_StatusLayout : (∃ t, step working = .next t ∧ working.errcode.toNat ≤ 5) ∧
    ({ t1 with pending := [writeEvent 0x010 2] } : State).pending = writeEvent 0x010 2 :: [] :=
  ⟨⟨_, rfl, by decide⟩, rfl⟩

theorem witness_ControlRegister : ({ t1 with pending := [writeEvent 0x00C 1] } : State).pending = writeEvent 0x00C 1 :: [] ∧
    (1#32).getLsbD 1 = false ∧ (2#32).getLsbD 1 = true := by decide

/-- A command that succeeds and one that fails. -/
theorem witness_FlagsRegister : (∃ t, exec (.modinv .p 3 1) t1 = .next t ∧ t.err = false) ∧
    ∃ t, exec (.modinv .p 3 1) State.reset = .next t ∧ t.err = true :=
  ⟨⟨_, rfl, by decide⟩, _, rfl, by decide⟩

theorem witness_KbitsRegister : t1.slotP.k < 2 ^ 16 ∧ t1.slotN.k < 2 ^ 16 ∧
    ({ t1 with pending := [writeEvent 0x01C 1] } : State).pending = writeEvent 0x01C 1 :: [] := by decide

theorem witness_IdentificationRegisters : Config.legalWidth 64 = true ∧ Config.legalWidth 1024 = true ∧
    (∃ t, step t1 = .next t) ∧
    ({ t1 with pending := [writeEvent 0x008 1] } : State).pending = writeEvent 0x008 1 :: [] :=
  ⟨by decide, by decide, ⟨_, rfl⟩, rfl⟩

/-- Each clause: a completion, W1C, an acceptance, masking, the two resets. -/
theorem witness_InterruptLine : (∃ t, step working = .next t ∧ working.engine = .busy 0x10003120#32 0) ∧
    (∃ t, step { t1 with pending := [writeEvent 0x010 2] } = .next t) ∧
    (∃ t, step { t1 with pending := [writeEvent 0x018 0] } = .next t ∧ t1.busy = false) ∧
    (∃ t, step { t1 with pending := [writeEvent 0x00C 0] } = .next t) ∧
    IsReset .hwReset ∧ IsReset (writeEvent 0x00C 2) :=
  ⟨⟨_, rfl, rfl⟩, ⟨_, rfl⟩, ⟨_, rfl, rfl⟩, ⟨_, rfl⟩, .inl rfl, .inr ⟨2, by decide, rfl⟩⟩

theorem witness_HardwareResetValues : (inFlight t1 0#32 [.hwReset]).pending = .hwReset :: [] ∧
    (inFlight t1 0#32 [.hwReset]).busy = true := by decide

/-- Both kinds of CTRL write, and a busy step that ends the command: a completion and a reset. -/
theorem witness_SoftResetKeepsRegisters :
    (inFlight t1 0#32 [writeEvent 0x00C 2]).pending = writeEvent 0x00C 2 :: [] ∧ (2#32).getLsbD 1 = true ∧
    (1#32).getLsbD 1 = false ∧ (∃ t, step working = .next t ∧ working.busy = true ∧ t.busy = false) ∧
    ∃ t, step (inFlight t1 0#32 [writeEvent 0x00C 2]) = .next t ∧ t.busy = false :=
  ⟨rfl, by decide, by decide, ⟨_, rfl, by decide, by decide⟩, _, rfl, by decide⟩

theorem witness_NopCompletes : decode 0x00000000#32 = .ok .nop := by decide

/-- A zero register and one that is not. -/
theorem witness_ModsetLoadsSlot : (withRegs State.reset [(0, 0)]).x 0 = 0 ∧ State.reset.x 0 ≠ 0 := by decide

/-- Slot P not valid after reset, and valid with a non-zero modulus in T1; so for slot N. -/
theorem witness_ModaddResult : (State.reset.slot .p).v = false ∧ (t1.slot .p).v = true ∧ 0 < (t1.slot .p).mod := by decide
theorem witness_ModsubResult : (State.reset.slot .n).v = false ∧ (t1.slot .n).v = true ∧ 0 < (t1.slot .n).mod := by decide
theorem witness_ModmulResult : (State.reset.slot .p).v = false ∧ (t1.slot .p).v = true ∧ 0 < (t1.slot .p).mod := by decide
theorem witness_ModredResult : (State.reset.slot .p).v = false ∧ (t1.slot .p).v = true ∧ 0 < (t1.slot .p).mod := by decide

/-- Beside the slot's hypotheses, an invertible operand, one that is not, and the modulus 1. -/
theorem witness_ModinvResult : (State.reset.slot .p).v = false ∧ ((overP 100 0).slot .p).v = true ∧
    0 < ((overP 100 0).slot .p).mod ∧ Nat.gcd ((overP 100 0).x 2) 100 = 1 ∧ Nat.gcd ((overP 100 0).x 1) 100 ≠ 1 ∧
    Nat.gcd 5 1 = 1 := by decide

theorem witness_InverseOrNoInverse : 0 < 100 ∧ Int.gcd (-3) 100 = 1 ∧ Int.gcd (-10) 100 ≠ 1 ∧ Int.gcd 0 1 = 1 := by decide

/-- The largest value below `2^(2k)`, and the smallest modulus. -/
theorem witness_BarrettReductionExact : 0 < 97 ∧ 2 ^ 14 - 1 < 2 ^ (2 * (ModSlot.load 97).k) ∧ 0 < 1 ∧
    3 < 2 ^ (2 * (ModSlot.load 1).k) := by decide

/-- Not valid; valid and even; valid and odd, with the invariant. -/
theorem witness_MontmulResult : (State.reset.slot .p).v = false ∧
    (((overP 96 0).slot .p).v = true ∧ ((overP 96 0).slot .p).odd = false) ∧
    (t1.slot .p).v = true ∧ (t1.slot .p).odd = true ∧ (t1.slot .p).Inv t1.width :=
  ⟨rfl, by decide, by decide, by decide, slot_inv_17⟩

theorem witness_TomontResult : (State.reset.slot .n).v = false ∧
    (((overP 96 0).slot .p).v = true ∧ ((overP 96 0).slot .p).odd = false) ∧
    (t1.slot .n).v = true ∧ (t1.slot .n).odd = true ∧ (t1.slot .n).Inv t1.width :=
  ⟨rfl, by decide, by decide, by decide, slot_inv_19⟩

theorem witness_FrommontResult : (State.reset.slot .p).v = false ∧
    (((overP 96 0).slot .p).v = true ∧ ((overP 96 0).slot .p).odd = false) ∧
    (t1.slot .p).v = true ∧ (t1.slot .p).odd = true ∧ (t1.slot .p).Inv t1.width :=
  ⟨rfl, by decide, by decide, by decide, slot_inv_17⟩

theorem witness_MontgomeryDomainLaws : (t1.slot .p).v = true ∧ (t1.slot .p).odd = true ∧ (t1.slot .p).Inv t1.width ∧
    (3 : Reg) ≠ 1 ∧ (3 : Reg) ≠ 4 := ⟨rfl, by decide, slot_inv_17, by decide, by decide⟩

/-- The five cases of addition and the two of doubling, over 17. -/
theorem witness_AffineFormulas : (5 < 17 ∧ 1 < 17 ∧ 6 < 17 ∧ 3 < 17 ∧ 16 < 17) ∧ (⟨5, 1⟩ : APoint) ≠ ⟨0, 0⟩ ∧
    (⟨6, 3⟩ : APoint) ≠ ⟨0, 0⟩ ∧ (⟨5, 1⟩ : APoint).x = (⟨5, 16⟩ : APoint).x ∧ (⟨5, 1⟩ : APoint).y ≠ (⟨5, 16⟩ : APoint).y ∧
    (⟨5, 1⟩ : APoint).x ≠ (⟨6, 3⟩ : APoint).x ∧ (⟨5, 0⟩ : APoint).y = 0 ∧ (⟨5, 1⟩ : APoint).y ≠ 0 := by decide

/-- The cases of doubling: over 17, and over 4, where `2*y*z` is 0 for `y = z = 2`. -/
theorem witness_JacobianDoubling : 0 < 17 ∧ ((⟨5, 1, 1⟩ : JPoint).z ≠ 0 ∧ (⟨5, 1, 1⟩ : JPoint).y ≠ 0) ∧
    (2 * (1 : ZMod 17) * 1 ≠ 0) ∧ (2 * (2 : ZMod 4) * 2 = 0) ∧ (⟨5, 0, 1⟩ : JPoint).y = 0 := by decide

/-- The cases of addition over 17: `h = 0` with either `r`, and `h` not 0; and over 8 `z1*z2*h = 0` with `h = 4`. -/
theorem witness_JacobianAddition : 0 < 17 ∧
    ((5 : ZMod 17) * 1 - 5 * 1 = 0 ∧ (16 : ZMod 17) * 1 - 1 * 1 ≠ 0) ∧ ((5 : ZMod 17) * 2 ^ 2 - 3 * 1 ^ 2 = 0 ∧
    (1 : ZMod 17) * 2 ^ 3 - 8 * 1 ^ 3 = 0) ∧ ((7 : ZMod 17) * 1 ^ 2 - 5 * 2 ^ 2 ≠ 0) ∧
    ((1 : ZMod 8) * 2 ^ 2 - 0 * 2 ^ 2 ≠ 0 ∧ (2 : ZMod 8) * 2 * (1 * 2 ^ 2 - 0 * 2 ^ 2) = 0) := by decide

/-- Bases in range at their bounds and one out of range; slot P not valid and valid. -/
theorem witness_PaddaResult : ((14 : Reg) ≤ 14 ∧ (0 : Reg) ≤ 14) ∧ ¬ ((15 : Reg) ≤ 14) ∧ State.reset.slotP.v = false ∧
    t1.slotP.v = true := by decide
theorem witness_PdblaResult : ((14 : Reg) ≤ 14 ∧ (0 : Reg) ≤ 14) ∧ ¬ ((15 : Reg) ≤ 14) ∧ State.reset.slotP.v = false ∧
    t1.slotP.v = true := by decide
theorem witness_PaddjResult : ((13 : Reg) ≤ 13 ∧ (0 : Reg) ≤ 13) ∧ ¬ ((14 : Reg) ≤ 13) ∧ State.reset.slotP.v = false ∧
    t1.slotP.v = true := by decide
theorem witness_PdbljResult : ((13 : Reg) ≤ 13 ∧ (0 : Reg) ≤ 13) ∧ ¬ ((14 : Reg) ≤ 13) ∧ State.reset.slotP.v = false ∧
    t1.slotP.v = true := by decide
theorem witness_A2jResult : ((13 : Reg) ≤ 13 ∧ (14 : Reg) ≤ 14) ∧ ¬ ((15 : Reg) ≤ 14) ∧ State.reset.slotP.v = false ∧
    t1.slotP.v = true ∧ 0 < t1.slotP.mod := by decide

/-- The same, with an operand for each of the three cases of Z, over 15. -/
theorem witness_J2aResult : ((14 : Reg) ≤ 14 ∧ (13 : Reg) ≤ 13) ∧ ¬ ((14 : Reg) ≤ 13) ∧ State.reset.slotP.v = false ∧
    (overP 15 0).slotP.v = true ∧ 0 < (overP 15 0).slotP.mod ∧ (overP 15 0).x 14 % 15 = 0 ∧
    ((overP 15 0).x 2 % 15 ≠ 0 ∧ Nat.gcd ((overP 15 0).x 2) 15 ≠ 1) ∧
    ((overP 15 0).x 1 % 15 ≠ 0 ∧ Nat.gcd ((overP 15 0).x 1) 15 = 1) := by decide

theorem witness_ScalarLoopByBits : 0 < 2 * 0 + true.toNat ∧ 0 < 2 * 1 + false.toNat := by decide

/-- A PMULJ and a PMULA in flight, slot P valid. -/
theorem witness_ScalarLoopHiddenState : (loopAt 0).engine = .busy 0x2A00A900#32 0 ∧ (loopAt 0).slotP.v = true ∧
    decode 0x2A00A900#32 = .ok (.pmulj 10 9 0) ∧ decode 0x22004900#32 = .ok (.pmula 4 9 0) ∧
    3 ≤ bitlen ((loopAt 0).x 9) := by decide

theorem witness_PmulaResult : ((14 : Reg) ≤ 14 ∧ (0 : Reg) ≤ 14) ∧ ¬ ((15 : Reg) ≤ 14) ∧ State.reset.slotP.v = false ∧
    t1.slotP.v = true := by decide
theorem witness_PmuljResult : ((13 : Reg) ≤ 13 ∧ (0 : Reg) ≤ 13) ∧ ¬ ((14 : Reg) ≤ 13) ∧ State.reset.slotP.v = false ∧
    t1.slotP.v = true := by decide

theorem prime_17 : Nat.Prime 17 := by norm_num

/-- T1 with G = (5, 1) in R0, R1. -/
def t1G : State := withRegs t1 [(0, 5), (1, 1)]

/-- (5, 1) is on T1 and nonsingular. -/
theorem nonsingular_G : (curve 17 ((t1G.a % 17 : Nat) : ZMod 17) 2).Nonsingular
    ((t1G.x 0 % 17 : Nat) : ZMod 17) ((t1G.x (0 + 1) % 17 : Nat) : ZMod 17) := by
  rw [WeierstrassCurve.Affine.nonsingular_iff, WeierstrassCurve.Affine.equation_iff]
  decide

/-- The hypotheses of `PmulaIsGroupMultiple` at G of T1, `b = 2`. -/
theorem witness_PmulaIsGroupMultiple : ∃ (_ : Fact (Nat.Prime 17))
    (q : (curve 17 ((t1G.a % 17 : Nat) : ZMod 17) 2).Point), 3 < 17 ∧ (2 : ZMod 17) ≠ 0 ∧ (4 : Reg) ≤ 14 ∧
      (0 : Reg) ≤ 14 ∧ t1G.slotP.v = true ∧ t1G.slotP.mod = 17 ∧
      RepresentsA ⟨t1G.x 0 % 17, t1G.x (0 + 1) % 17⟩ q :=
  ⟨⟨prime_17⟩, .some _ _ nonsingular_G, by decide, by decide, by decide, by decide, by decide, by decide,
    .inr ⟨by decide, by decide, nonsingular_G, rfl⟩⟩

/-- The same, with the register group 6 to 8 that the scalar in R9 does not stand in. -/
theorem witness_PmuljAgreesWithPmula : ∃ (_ : Fact (Nat.Prime 17))
    (q : (curve 17 ((t1G.a % 17 : Nat) : ZMod 17) 2).Point), 3 < 17 ∧ (2 : ZMod 17) ≠ 0 ∧ (4 : Reg) ≤ 14 ∧
      (0 : Reg) ≤ 14 ∧ (6 : Reg) ≤ 13 ∧ (9 : Reg) ≠ 6 ∧ (9 : Reg) ≠ 6 + 1 ∧ (9 : Reg) ≠ 6 + 2 ∧
      t1G.slotP.v = true ∧ t1G.slotP.mod = 17 ∧ RepresentsA ⟨t1G.x 0 % 17, t1G.x (0 + 1) % 17⟩ q :=
  ⟨⟨prime_17⟩, .some _ _ nonsingular_G, by decide, by decide, by decide, by decide, by decide, by decide, by decide,
    by decide, by decide, by decide, .inr ⟨by decide, by decide, nonsingular_G, rfl⟩⟩

/-- Two states that differ in MU alone, and a command that completes. -/
theorem witness_BarrettConstantsUnobservable :
    t1.forgetMu = State.forgetMu { t1 with slotP := { t1.slotP with mu := 7 } } ∧
    t1 ≠ { t1 with slotP := { t1.slotP with mu := 7 } } ∧ ∃ t, exec (.modmul .p 3 1 2) t1 = .next t :=
  ⟨by decide, by decide, _, rfl⟩

/-- Two states that differ in slot N alone, and a point command that completes. -/
theorem witness_PointCommandsIgnoreSlotN : t1.forgetSlotN = (overP 17 2).forgetSlotN ∧ t1 ≠ overP 17 2 ∧
    isPointCommand (.padda 4 0 2) = true ∧ ∃ t, exec (.padda 4 0 2) t1 = .next t :=
  ⟨by decide, by decide, rfl, _, rfl⟩

end Sys2Proof.Tests
end

section
/-! What the helper `inv` computes (00_scope.md R16): the remainders of the extended Euclidean algorithm keep
their Bezout congruences, and its fuel never runs out. -/

namespace Sys2Proof.Machine

/-- Euclid's invariant `t * r = remainder (mod m)`, carried to the last remainder, which is the gcd. -/
theorem euclid_mul_modEq_gcd {m r : Int} (fuel r0 r1 : Nat) (t0 t1 : Int) (hfuel : r1 < fuel)
    (h0 : t0 * r ≡ r0 [ZMOD m]) (h1 : t1 * r ≡ r1 [ZMOD m]) :
    euclid fuel r0 r1 t0 t1 * r ≡ (Nat.gcd r0 r1 : Nat) [ZMOD m] := by
  induction fuel generalizing r0 r1 t0 t1 with
  | zero => exact absurd hfuel (Nat.not_lt_zero r1)
  | succ fuel ih =>
    unfold euclid
    split
    next hr => simpa [hr] using h0
    next hr =>
      have hlt : r0 % r1 < r1 := Nat.mod_lt _ (Nat.pos_of_ne_zero hr)
      have hrem : (t0 - ((r0 / r1 : Nat) : Int) * t1) * r ≡ (r0 % r1 : Nat) [ZMOD m] := by
        have hsub := h0.sub (h1.mul_left ((r0 / r1 : Nat) : Int))
        have hdiv : (r0 : Int) - ((r0 / r1 : Nat) : Int) * r1 = (r0 % r1 : Nat) := by
          push_cast
          rw [Int.emod_def, mul_comm]
        rw [hdiv] at hsub
        rwa [sub_mul, mul_assoc]
      have hgcd : Nat.gcd r1 (r0 % r1) = Nat.gcd r0 r1 := by
        rw [Nat.gcd_comm, ← Nat.gcd_rec, Nat.gcd_comm]
      rw [← hgcd]
      exact ih r1 (r0 % r1) t1 _ (by omega) h1 hrem

theorem gcd_residue (a : Int) {m : Nat} (hm : 0 < m) : Nat.gcd (residue a m) m = Int.gcd a m := by
  rw [← Int.gcd_natCast_natCast, cast_residue a hm, Int.gcd_emod]

theorem residue_modEq (a : Int) {m : Nat} (hm : 0 < m) : (residue a m : Int) ≡ a [ZMOD m] := by
  rw [cast_residue a hm]
  exact Int.mod_modEq a m

/-- Where `a` and `m` share a factor `inv` is 0 with the no-inverse indication. -/
theorem inv_of_gcd_ne_one {a : Int} {m : Nat} (hm : 0 < m) (h : Int.gcd a m ≠ 1) : inv a m = (0, true) := by
  simp only [inv, gcd_residue a hm, if_neg h]

theorem inv_snd_of_gcd_eq_one {a : Int} {m : Nat} (hm : 0 < m) (h : Int.gcd a m = 1) : (inv a m).2 = false := by
  simp only [inv, gcd_residue a hm, if_pos h]

/-- Where `a` and `m` are coprime `inv` is an inverse of `a` modulo `m`. -/
theorem mul_inv_modEq_one {a : Int} {m : Nat} (hm : 0 < m) (h : Int.gcd a m = 1) :
    a * (inv a m).1 ≡ 1 [ZMOD m] := by
  have hr : residue a m < m + 1 := Nat.lt_succ_of_lt (residue_lt a hm)
  have hbezout := euclid_mul_modEq_gcd (m := m) (m + 1) m (residue a m) 0 1 hr
    (by simp [Int.ModEq]) (by rw [one_mul])
  rw [Nat.gcd_comm, gcd_residue a hm, h] at hbezout
  simp only [inv, gcd_residue a hm, if_pos h]
  calc a * (residue (euclid (m + 1) m (residue a m) 0 1) m : Int)
      ≡ residue a m * euclid (m + 1) m (residue a m) 0 1 [ZMOD m] :=
        (residue_modEq a hm).symm.mul (residue_modEq _ hm)
    _ ≡ 1 [ZMOD m] := by simpa [mul_comm] using hbezout

/-- Settles O38: by the Bezout congruence of the extended Euclidean algorithm. -/
theorem inverseOrNoInverse : Obligations.InverseOrNoInverse := by
  intro a m hm
  refine ⟨fun h => ⟨inv_snd_of_gcd_eq_one hm h, inv_lt a hm, ?_⟩, inv_of_gcd_ne_one hm⟩
  exact (mul_inv_modEq_one hm h).symm.dvd

end Sys2Proof.Machine
end

section
/-! The invariant (00_scope.md R7, R12; 10_state.md R32 to R40; 60_exceptions.md R225), in two halves: the values,
which a command can only replace by values that fit, and the status, which every completion sets as a whole. -/

namespace Sys2Proof.Machine

/-! ### The two halves -/

/-- The half of `State.Inv` about W, the registers, the slots and `A`. -/
structure State.ValuesFit (s : State) : Prop where
  width : Config.legalWidth s.width = true
  regs : ∀ i : Reg, s.x i < 2 ^ s.width
  coeff : s.a < 2 ^ s.width
  slotP : s.slotP.Inv s.width
  slotN : s.slotN.Inv s.width

/-- The half of `State.Inv` about STATUS, CMD and the engine. -/
structure State.StatusOk (s : State) : Prop where
  errcode : s.errcode.toNat ≤ 5
  err : s.err = true ↔ s.errcode ≠ 0#4
  inFlight : ∀ c n, s.engine = .busy c n → s.done = false ∧ s.err = false ∧ s.cmd = c ∧ n ≤ s.width

theorem State.inv_iff (s : State) : s.Inv ↔ s.ValuesFit ∧ s.StatusOk where
  mp h := ⟨⟨h.width, h.regs, h.coeff, h.slotP, h.slotN⟩, ⟨h.errcode, h.err, h.inFlight⟩⟩
  mpr := fun ⟨hv, hs⟩ => ⟨hv.width, hv.regs, hv.coeff, hv.slotP, hv.slotN, hs.errcode, hs.err, hs.inFlight⟩

/-- `ValuesFit` reads nothing but W, the registers, the slots and `A`. -/
theorem State.ValuesFit.congr {s t : State} (h : s.ValuesFit) (hw : t.width = s.width) (hr : t.regs = s.regs)
    (hp : t.slotP = s.slotP) (hn : t.slotN = s.slotN) (ha : t.a = s.a) : t.ValuesFit := by
  obtain ⟨width, regs, coeff, slotP, slotN⟩ := h
  refine ⟨hw ▸ width, fun i => ?_, ?_, ?_, ?_⟩
  · simpa [State.x, hr, hw] using regs i
  · rwa [ha, hw]
  · rwa [hp, hw]
  · rwa [hn, hw]

/-- With an idle engine the status half speaks of ERR and ERRCODE alone. -/
theorem State.StatusOk.of_idle {s : State} (he : s.engine = .idle) (h0 : s.errcode.toNat ≤ 5)
    (h : s.err = true ↔ s.errcode ≠ 0#4) : s.StatusOk :=
  ⟨h0, h, fun c n hb => by rw [he] at hb; cases hb⟩

/-- A legal build has at least one value bit. -/
theorem State.ValuesFit.one_lt_two_pow {s : State} (h : s.ValuesFit) : 1 < 2 ^ s.width := by
  have hw := h.width
  simp only [Config.legalWidth, Bool.and_eq_true, decide_eq_true_eq] at hw
  exact Nat.one_lt_two_pow (by omega)

theorem State.ValuesFit.slot {s : State} (h : s.ValuesFit) (ms : Slot) : (s.slot ms).Inv s.width := by
  cases ms
  · exact h.slotP
  · exact h.slotN

/-! ### The writes -/

theorem State.ValuesFit.setX {s : State} (h : s.ValuesFit) (rd : Reg) {v : Nat} (hv : v < 2 ^ s.width) :
    (s.setX rd v).ValuesFit := by
  refine ⟨h.width, fun i => ?_, h.coeff, h.slotP, h.slotN⟩
  rw [x_setX]
  split
  · exact hv
  · exact h.regs i

theorem State.ValuesFit.setXa {s : State} (h : s.ValuesFit) (rd : Reg) {pt : APoint} (hx : pt.x < 2 ^ s.width)
    (hy : pt.y < 2 ^ s.width) : (s.setXa rd pt).ValuesFit :=
  (h.setX rd hx).setX (rd + 1) hy

theorem State.ValuesFit.setXj {s : State} (h : s.ValuesFit) (rd : Reg) {pt : JPoint} (hx : pt.x < 2 ^ s.width)
    (hy : pt.y < 2 ^ s.width) (hz : pt.z < 2 ^ s.width) : (s.setXj rd pt).ValuesFit :=
  ((h.setX rd hx).setX (rd + 1) hy).setX (rd + 2) hz

theorem State.ValuesFit.setSlot {s : State} (h : s.ValuesFit) (ms : Slot) {m : ModSlot} (hm : m.Inv s.width) :
    (s.setSlot ms m).ValuesFit := by
  cases ms
  · exact ⟨h.width, h.regs, h.coeff, hm, h.slotN⟩
  · exact ⟨h.width, h.regs, h.coeff, h.slotP, hm⟩

theorem State.ValuesFit.setA {s : State} (h : s.ValuesFit) {v : Nat} (hv : v < 2 ^ s.width) :
    State.ValuesFit { s with a := v } :=
  ⟨h.width, h.regs, hv, h.slotP, h.slotN⟩

theorem State.ValuesFit.commit {s : State} (h : s.ValuesFit) (f : Flags) : (commit f s).ValuesFit :=
  h.congr rfl rfl rfl rfl rfl

theorem State.ValuesFit.failCmd {s : State} (h : s.ValuesFit) (e : CmdError) : (failCmd e s).ValuesFit :=
  h.congr rfl rfl rfl rfl rfl

/-- MODSET's constants are the modulus's own (R36, R134). -/
theorem ModSlot.inv_load {w m : Nat} (h0 : m ≠ 0) (h : m < 2 ^ w) : (ModSlot.load m).Inv w where
  bound := h
  valid _ := ⟨Nat.pos_of_ne_zero h0, rfl, rfl, rfl, rfl⟩
  invalid hv := by cases hv

/-- A cleared slot meets the invariant whatever its hidden constants are (R36, R50). -/
theorem ModSlot.inv_of_cleared {w : Nat} {m : ModSlot} (hv : m.v = false) (hmod : m.mod = 0) (hk : m.k = 0)
    (hodd : m.odd = false) : m.Inv w where
  bound := hmod ▸ Nat.two_pow_pos w
  valid h := by rw [hv] at h; cases h
  invalid _ := ⟨hmod, hk, hodd⟩

theorem ModSlot.Inv.mod_pos {w : Nat} {m : ModSlot} (h : m.Inv w) (hv : m.v = true) : 0 < m.mod := (h.valid hv).1

/-! ### The point functions give canonical points (R180) -/

/-- Both coordinates are residues mod `p`. -/
def APoint.Below (p : Nat) (pt : APoint) : Prop := pt.x < p ∧ pt.y < p

/-- `INF_J`, or all coordinates are residues mod `p`: only the sentinel's ones need not be below `p = 1` (log 17). -/
def JPoint.Below (p : Nat) (pt : JPoint) : Prop := pt = infJ ∨ (pt.x < p ∧ pt.y < p ∧ pt.z < p)

section
variable {p : Nat} (hp : 0 < p)
include hp

theorem below_infA : infA.Below p := ⟨hp, hp⟩

theorem below_residuesA (a b : Int) : APoint.Below p ⟨residue a p, residue b p⟩ :=
  ⟨residue_lt a hp, residue_lt b hp⟩

theorem below_residuesJ (a b c : Int) : JPoint.Below p ⟨residue a p, residue b p, residue c p⟩ :=
  .inr ⟨residue_lt a hp, residue_lt b hp, residue_lt c hp⟩

theorem below_canonA (pt : APoint) : (canonA pt p).Below p := canonA_lt pt hp

theorem below_canonJ (pt : JPoint) : (canonJ pt p).Below p :=
  (canonJ_cases pt hp).imp_right fun ⟨hx, hy, _, hz⟩ => ⟨hx, hy, hz⟩

theorem below_adbl (a : Nat) (pt : APoint) : (adbl p a pt).1.Below p := by
  unfold adbl
  split
  · exact below_infA hp
  · exact below_residuesA hp _ _

theorem below_aadd (a : Nat) {pt qt : APoint} (hpt : pt.Below p) (hqt : qt.Below p) :
    (aadd p a pt qt).1.Below p := by
  unfold aadd
  split
  · exact hqt
  split
  · exact hpt
  split
  · exact below_infA hp
  split
  · exact below_adbl hp a pt
  · exact below_residuesA hp _ _

theorem below_jdbl (a : Nat) (pt : JPoint) : (jdbl p a pt).Below p := by
  simp only [jdbl]
  split
  · exact .inl rfl
  split
  · exact .inl rfl
  · exact below_residuesJ hp _ _ _

theorem below_jadd (a : Nat) {pt qt : JPoint} (hpt : pt.Below p) (hqt : qt.Below p) : (jadd p a pt qt).Below p := by
  simp only [jadd]
  split
  · exact hqt
  split
  · exact hpt
  split
  · exact .inl rfl
  split
  · exact below_jdbl hp a pt
  split
  · exact .inl rfl
  · exact below_residuesJ hp _ _ _

theorem below_toJacobian {pt : APoint} (hpt : pt.Below p) : (toJacobian p pt).Below p := by
  unfold toJacobian
  split
  · exact .inl rfl
  · exact .inr ⟨hpt.1, hpt.2, Nat.mod_lt _ hp⟩

theorem below_toAffine (pt : JPoint) : (toAffine p pt).1.Below p := by
  simp only [toAffine]
  split
  · exact below_infA hp
  · exact below_residuesA hp _ _

theorem below_ladderA (a d : Nat) {pt : APoint} (hpt : pt.Below p) : (ladderA p a d pt).1.Below p := by
  refine ladderAfter_induct (motive := fun r : APoint × Bool => r.1.Below p) (below_infA hp) (fun b r _ => ?_) d _
  cases b
  · exact below_adbl hp a r.1
  · exact below_aadd hp a (below_adbl hp a r.1) hpt

theorem below_ladderJ (a d : Nat) {pt : JPoint} (hpt : pt.Below p) : (ladderJ p a d pt).Below p := by
  refine ladderAfter_induct (motive := JPoint.Below p) (.inl rfl) (fun b r _ => ?_) d _
  cases b
  · exact below_jdbl hp a r
  · exact below_jadd hp a (below_jdbl hp a r) hpt

end

/-! ### Commands keep the values half -/

section
variable {s : State} (h : s.ValuesFit)
include h

theorem valuesFit_writeValue (rd : Reg) {v : Nat} (hv : v < 2 ^ s.width) : (writeValue rd v s).ValuesFit :=
  (h.setX rd hv).commit _

theorem valuesFit_writeAffine (rd : Reg) {r : APoint × Bool} (hr : r.1.Below s.slotP.mod) :
    (writeAffine rd r s).ValuesFit :=
  (h.setXa rd (hr.1.trans h.slotP.bound) (hr.2.trans h.slotP.bound)).commit _

theorem valuesFit_writeJacobian (rd : Reg) {pt : JPoint} (hpt : pt.Below s.slotP.mod) :
    (writeJacobian rd pt s).ValuesFit := by
  refine State.ValuesFit.commit ?_ _
  obtain rfl | ⟨hx, hy, hz⟩ := hpt
  · exact h.setXj rd h.one_lt_two_pow h.one_lt_two_pow (Nat.two_pow_pos _)
  · exact h.setXj rd (hx.trans h.slotP.bound) (hy.trans h.slotP.bound) (hz.trans h.slotP.bound)

/-- A command over a slot keeps the values half where it does so with a non-zero `W`-bit modulus. -/
theorem valuesFit_withSlot {ms : Slot} {k : ModSlot → State} {t : State} (ht : withSlot ms s k = .next t)
    (hk : ∀ m : ModSlot, 0 < m.mod → m.mod < 2 ^ s.width → (k m).ValuesFit) :
    t.ValuesFit := by
  obtain ⟨hv, rfl⟩ | ⟨-, rfl⟩ := withSlot_cases ht
  · exact hk _ ((h.slot ms).mod_pos hv) (h.slot ms).bound
  · exact h.failCmd _

theorem valuesFit_withOddSlot {ms : Slot} {k : ModSlot → State} {t : State} (ht : withOddSlot ms s k = .next t)
    (hk : ∀ m : ModSlot, 0 < m.mod → m.mod < 2 ^ s.width → (k m).ValuesFit) :
    t.ValuesFit := by
  refine valuesFit_withSlot h ht fun m h0 hm => ?_
  split
  · exact hk m h0 hm
  · exact h.failCmd _

theorem valuesFit_withCurve {b : Bool} {k : Nat → Nat → State} {t : State} (ht : withCurve b s k = .next t)
    (hk : ∀ a, 0 < s.slotP.mod → (k s.slotP.mod a).ValuesFit) : t.ValuesFit := by
  obtain ⟨-, hv, rfl⟩ | ⟨-, -, rfl⟩ | ⟨-, rfl⟩ := withCurve_cases ht
  · exact hk _ (h.slotP.mod_pos hv)
  · exact h.failCmd _
  · exact h.failCmd _

/-- A field or Montgomery command that writes a residue. -/
theorem valuesFit_writeResidue (rd : Reg) (a : Int) {m : Nat} (h0 : 0 < m) (hm : m < 2 ^ s.width) :
    (writeValue rd (residue a m) s).ValuesFit :=
  valuesFit_writeValue h rd ((residue_lt _ h0).trans hm)

theorem valuesFit_exec {i : Instr} {t : State} (ht : exec i s = .next t) : t.ValuesFit := by
  cases i with
  | nop => cases ht; exact h.congr rfl rfl rfl rfl rfl
  | mov rd ra => cases ht; exact valuesFit_writeValue h rd (h.regs ra)
  | cmp ra rb => cases ht; exact h.commit _
  | modset ms ra =>
    simp only [exec, execModset] at ht
    split at ht
    · cases ht; exact h.failCmd _
    next hx => cases ht; exact (h.setSlot ms (ModSlot.inv_load hx (h.regs ra))).commit _
  | seta ra => cases ht; exact (h.setA (h.regs ra)).commit _
  | modadd ms rd ra rb =>
    simp only [exec, execModadd] at ht
    exact valuesFit_withSlot h ht fun _ => valuesFit_writeResidue h rd _
  | modsub ms rd ra rb =>
    simp only [exec, execModsub] at ht
    exact valuesFit_withSlot h ht fun _ => valuesFit_writeResidue h rd _
  | modmul ms rd ra rb =>
    simp only [exec, execModmul] at ht
    exact valuesFit_withSlot h ht fun _ => valuesFit_writeResidue h rd _
  | modred ms neg rd ra rb =>
    simp only [exec, execModred] at ht
    exact valuesFit_withSlot h ht fun _ => valuesFit_writeResidue h rd _
  | modinv ms rd ra =>
    simp only [exec, execModinv] at ht
    exact valuesFit_withSlot h ht fun m h0 hm => (h.setX rd ((inv_lt _ h0).trans hm)).commit _
  | montmul ms rd ra rb =>
    simp only [exec, execMontmul] at ht
    exact valuesFit_withOddSlot h ht fun _ => valuesFit_writeResidue h rd _
  | tomont ms rd ra =>
    simp only [exec, execTomont] at ht
    exact valuesFit_withOddSlot h ht fun _ => valuesFit_writeResidue h rd _
  | frommont ms rd ra =>
    simp only [exec, execFrommont] at ht
    exact valuesFit_withOddSlot h ht fun _ => valuesFit_writeResidue h rd _
  | padda rd ra rb =>
    simp only [exec, execPadda] at ht
    exact valuesFit_withCurve h ht fun a hp =>
      valuesFit_writeAffine h rd (below_aadd hp a (below_canonA hp _) (below_canonA hp _))
  | pdbla rd ra =>
    simp only [exec, execPdbla] at ht
    exact valuesFit_withCurve h ht fun a hp => valuesFit_writeAffine h rd (below_adbl hp a _)
  | pmula rd ra rb =>
    simp only [exec, execPmula] at ht
    exact valuesFit_withCurve h ht fun a hp => valuesFit_writeAffine h rd (below_ladderA hp a _ (below_canonA hp _))
  | paddj rd ra rb =>
    simp only [exec, execPaddj] at ht
    exact valuesFit_withCurve h ht fun a hp =>
      valuesFit_writeJacobian h rd (below_jadd hp a (below_canonJ hp _) (below_canonJ hp _))
  | pdblj rd ra =>
    simp only [exec, execPdblj] at ht
    exact valuesFit_withCurve h ht fun a hp => valuesFit_writeJacobian h rd (below_jdbl hp a _)
  | pmulj rd ra rb =>
    simp only [exec, execPmulj] at ht
    exact valuesFit_withCurve h ht fun a hp => valuesFit_writeJacobian h rd (below_ladderJ hp a _ (below_canonJ hp _))
  | a2j rd ra =>
    simp only [exec, execA2j] at ht
    exact valuesFit_withCurve h ht fun _ hp => valuesFit_writeJacobian h rd (below_toJacobian hp (below_canonA hp _))
  | j2a rd ra =>
    simp only [exec, execJ2a] at ht
    exact valuesFit_withCurve h ht fun _ hp => valuesFit_writeAffine h rd (below_toAffine hp _)

end

/-! ### Completions -/

theorem cmdErrorCode_ne_zero (e : CmdError) : e.code ≠ 0#4 := by cases e <;> decide

theorem cmdErrorCode_le_five (e : CmdError) : e.code.toNat ≤ 5 := by cases e <;> decide

/-- Every completion leaves the engine idle, and ERR exactly with a code (R226, R227). -/
theorem Completes.statusOk {s t : State} (h : Completes s t) : t.StatusOk := by
  cases h with
  | failed e => exact .of_idle rfl (cmdErrorCode_le_five e) (by simp [cmdErrorCode_ne_zero])
  | nop => exact .of_idle rfl (by simp) (by simp)
  | committed f hw => exact .of_idle rfl (by simp) (by simp)

theorem inv_completeWord {c : Word} {s t : State} (h : s.Inv) (ht : completeWord c s = .next t) : t.Inv := by
  obtain ⟨hv, -⟩ := s.inv_iff.mp h
  refine t.inv_iff.mpr ⟨?_, (completeWord_cases ht).statusOk⟩
  cases hd : decode c with
  | ok i => rw [completeWord_ok s hd] at ht; exact valuesFit_exec hv ht
  | error e => rw [completeWord_error s hd] at ht; cases ht; exact hv.failCmd e

theorem inv_engineDone {s t : State} (h : s.Inv) (ht : engineDone s = .next t) : t.Inv := by
  cases he : s.engine with
  | idle => rw [engineDone_idle he] at ht; cases ht; exact h
  | busy c n => rw [engineDone_busy he] at ht; exact inv_completeWord h ht

/-! ### The hidden iteration -/

/-- The loop's scalar is an operand register's raw value (R211, R212). -/
theorem loopScalar_eq_some {s : State} {d : Nat} (h : s.loopScalar = some d) : ∃ ra, d = s.x ra := by
  unfold State.loopScalar at h
  split at h
  · split at h
    next rd ra rb _ => cases h; exact ⟨ra, rfl⟩
    next rd ra rb _ => cases h; exact ⟨ra, rfl⟩
    next => cases h
  · cases h

/-- The loop's iterations are at most the scalar's bits, which are at most `W` (R262). -/
theorem inv_engineWork {s : State} (h : s.Inv) : (engineWork s).Inv := by
  obtain hs | ⟨c, n, d, he, hd, hn, hs⟩ := engineWork_cases s <;> rw [hs]
  · exact h
  · obtain ⟨hv, hst⟩ := s.inv_iff.mp h
    obtain ⟨hdone, herr, hcmd, -⟩ := hst.inFlight c n he
    obtain ⟨ra, rfl⟩ := loopScalar_eq_some hd
    have hbits : bitlen (s.x ra) ≤ s.width := bitlen_le_of_lt (hv.regs ra)
    refine (State.inv_iff _).mpr ⟨hv.congr rfl rfl rfl rfl rfl, hst.errcode, hst.err, fun c' n' hb => ?_⟩
    cases hb
    exact ⟨hdone, herr, hcmd, Nat.le_trans hn hbits⟩

/-! ### Resets -/

theorem inv_softReset {s : State} (h : s.Inv) : (softReset s).Inv :=
  (State.inv_iff _).mpr
    ⟨⟨h.width, h.regs, Nat.two_pow_pos _,
      ModSlot.inv_of_cleared rfl rfl rfl rfl, ModSlot.inv_of_cleared rfl rfl rfl rfl⟩,
      .of_idle rfl (by simp) (by simp)⟩

theorem inv_hardReset {s : State} (h : s.Inv) : (hardReset s).Inv := by
  refine (State.inv_iff _).mpr
    ⟨⟨h.width, fun i => ?_, Nat.two_pow_pos _,
      ModSlot.inv_of_cleared rfl rfl rfl rfl, ModSlot.inv_of_cleared rfl rfl rfl rfl⟩,
      .of_idle rfl (by simp) (by simp)⟩
  rw [x_hardReset, width_hardReset]
  exact Nat.mod_lt _ (Nat.two_pow_pos _)

/-! ### Host accesses -/

/-- A `W`-bit value stays one when a word below `NW` is replaced (R73). -/
theorem putWord_lt {width v j : Nat} (w : Word) (hj : j < wordsPerReg width) (hv : v < 2 ^ width) :
    putWord v j w < 2 ^ width := by
  have hle : 32 * (j + 1) ≤ width := by unfold wordsPerReg at hj; omega
  have hlow : v % 2 ^ (32 * j) < 2 ^ (32 * j) := Nat.mod_lt _ (Nat.two_pow_pos _)
  have hword : (w.toNat + 1) * 2 ^ (32 * j) ≤ 2 ^ (32 * (j + 1)) := by
    rw [Nat.mul_succ, Nat.pow_add, Nat.mul_comm (2 ^ (32 * j))]
    exact Nat.mul_le_mul_right _ w.isLt
  have hsplit : 2 ^ width = 2 ^ (width - 32 * (j + 1)) * 2 ^ (32 * (j + 1)) := by
    rw [← Nat.pow_add, Nat.sub_add_cancel hle]
  have hhigh : (v / 2 ^ (32 * (j + 1)) + 1) * 2 ^ (32 * (j + 1)) ≤ 2 ^ width := by
    rw [hsplit] at hv ⊢
    exact Nat.mul_le_mul_right _ (Nat.div_lt_of_lt_mul (by rwa [Nat.mul_comm]))
  rw [Nat.add_mul, Nat.one_mul] at hword hhigh
  unfold putWord
  omega

theorem inv_accept {s : State} (h : s.Inv) (c : Word) : (accept c s).Inv := by
  obtain ⟨hv, -⟩ := s.inv_iff.mp h
  refine (State.inv_iff _).mpr ⟨hv.congr rfl rfl rfl rfl rfl, by simp, by simp, fun c' n hb => ?_⟩
  cases hb
  exact ⟨rfl, rfl, rfl, Nat.zero_le _⟩

/-- W1C cannot set DONE (R40). -/
theorem inv_writeStatus {s : State} (h : s.Inv) (v : Word) : (writeStatus v s).Inv := by
  obtain ⟨hv, hst⟩ := s.inv_iff.mp h
  refine (State.inv_iff _).mpr ⟨hv.congr rfl rfl rfl rfl rfl, hst.errcode, hst.err, fun c n hb => ?_⟩
  obtain ⟨hdone, hrest⟩ := hst.inFlight c n hb
  exact ⟨by simp [writeStatus, hdone], hrest⟩

/-- The invariant says nothing of IE, OVR, the events to come and the bus port's answer. -/
theorem State.Inv.setUnconstrained {s : State} (h : s.Inv) (ie ovr : Bool) (l : List Event) (r : BusReply) :
    State.Inv { s with ie := ie, ovr := ovr, pending := l, reply := r } :=
  ⟨h.width, h.regs, h.coeff, h.slotP, h.slotN, h.errcode, h.err, h.inFlight⟩

theorem State.Inv.setReply {s : State} (h : s.Inv) (r : BusReply) : State.Inv { s with reply := r } :=
  h.setUnconstrained _ _ _ r

theorem State.Inv.setPending {s : State} (h : s.Inv) (l : List Event) : State.Inv { s with pending := l } :=
  h.setUnconstrained _ _ l _

theorem Written.inv {s t : State} {v : Word} (hw : Written s v t) (h : s.Inv) : t.Inv := by
  cases hw with
  | ignored => exact h
  | dropped _ => exact h.setUnconstrained _ true _ _
  | softReset _ => exact inv_softReset h
  | ie => exact h.setUnconstrained (v.getLsbD 0) _ _ _
  | status => exact inv_writeStatus h v
  | accepted _ => exact inv_accept h v
  | reg i j hj _ =>
    obtain ⟨hv, hst⟩ := s.inv_iff.mp h
    exact (State.inv_iff _).mpr ⟨hv.setX i (putWord_lt v hj (hv.regs i)), hst.errcode, hst.err, hst.inFlight⟩

theorem inv_hostAccess {a : Access} {s t : State} (h : s.Inv) (ht : hostAccess a s = .next t) : t.Inv := by
  obtain ⟨-, ⟨-, rfl⟩ | ⟨-, -, rfl⟩ | ⟨v, -, -, rfl⟩⟩ := hostAccess_cases ht
  · exact h.setReply _
  · exact h.setReply _
  · exact ((writeLoc_cases s v _).inv h).setReply _

/-! ### Steps and reset -/

/-- Settles O11, event by event. -/
theorem stepKeepsInvariant : Obligations.StepKeepsInvariant := by
  intro s t h ht
  obtain ⟨-, hd⟩ | ⟨e, l, -, ⟨a, -, ha⟩ | ⟨-, rfl⟩ | ⟨-, rfl⟩ | ⟨-, hd⟩⟩ := step_cases ht
  · exact inv_engineDone h hd
  · exact inv_hostAccess (h.setPending l) ha
  · exact inv_hardReset (h.setPending l)
  · exact inv_engineWork (h.setPending l)
  · exact inv_engineDone (h.setPending l) hd

/-- Settles O10: the power-on registers are at most 16, and the slots, `A` and the status are clear. -/
theorem resetMeetsInvariant : Obligations.ResetMeetsInvariant := by
  refine State.reset.inv_iff.mpr
    ⟨⟨rfl, fun i => ?_, Nat.two_pow_pos _,
      ModSlot.inv_of_cleared rfl rfl rfl rfl, ModSlot.inv_of_cleared rfl rfl rfl rfl⟩,
      .of_idle rfl (by decide) (by decide)⟩
  have hx : State.reset.x i = i.val + 1 := by simp [State.x, State.reset, State.resetOf, Config.powerOnReg]
  have hw : 2 ^ 5 ≤ 2 ^ State.reset.width := Nat.pow_le_pow_right (by decide) (by decide)
  omega

end Sys2Proof.Machine
end

section
/-! What a completed command did (10_state.md R31 to R37, R41; 60_exceptions.md R226, R227): it failed and wrote
STATUS alone, or it met its own row of the tables of destinations and flags. -/

namespace Sys2Proof.Machine

/-! ### Any command -/

theorem Writes.commandKeeps {s u : State} (h : Writes s u) : CommandKeeps s u := by
  cases h with
  | nothing => exact ⟨rfl, rfl, rfl, rfl, rfl, rfl, rfl⟩
  | reg rd v => exact ⟨rfl, rfl, rfl, rfl, rfl, rfl, rfl⟩
  | affine rd pt => exact ⟨rfl, rfl, rfl, rfl, rfl, rfl, rfl⟩
  | jacobian rd pt => exact ⟨rfl, rfl, rfl, rfl, rfl, rfl, rfl⟩
  | slot ms m h0 => constructor <;> simp
  | coeff v => exact ⟨rfl, rfl, rfl, rfl, rfl, rfl, rfl⟩

/-- No completion writes W, IE, OVR, CMD or the model's own fields. -/
theorem Completes.commandKeeps {s t : State} (h : Completes s t) : CommandKeeps s t := by
  cases h with
  | failed e => exact ⟨rfl, rfl, rfl, rfl, rfl, rfl, rfl⟩
  | nop => exact ⟨rfl, rfl, rfl, rfl, rfl, rfl, rfl⟩
  | committed f hw =>
    obtain ⟨hwidth, hie, hovr, hcmd, hpending, hreply, hfree⟩ := hw.commandKeeps
    exact ⟨hwidth, hie, hovr, hcmd, hpending, hreply, hfree⟩

theorem Completes.done {s t : State} (h : Completes s t) : t.done = true := by
  cases h <;> rfl

/-- A completion with ERR is a failed one (R227). -/
theorem Completes.failed_of_err {s t : State} (h : Completes s t) (he : t.err = true) : ∃ e, t = failCmd e s := by
  cases h with
  | failed e => exact ⟨e, rfl⟩
  | nop => cases he
  | committed f hw => cases he

/-! ### A command that succeeds -/

@[simp] theorem x_writeValue_self (rd : Reg) (v : Nat) (s : State) : (writeValue rd v s).x rd = v := x_setX_self s rd v

@[simp] theorem flags_writeValue (rd : Reg) (v : Nat) (s : State) : (writeValue rd v s).flags = valueFlags v := rfl

@[simp] theorem xa_writeAffine_self (rd : Reg) (r : APoint × Bool) (s : State) : (writeAffine rd r s).xa rd = r.1 :=
  xa_setXa s rd r.1

@[simp] theorem flags_writeAffine (rd : Reg) (r : APoint × Bool) (s : State) :
    (writeAffine rd r s).flags = affineFlags r := rfl

/-- An affine result and its no-inverse indication both read back. -/
theorem xa_noinv_writeAffine (rd : Reg) (r : APoint × Bool) (s : State) :
    ((writeAffine rd r s).xa rd, (writeAffine rd r s).flags.noinv) = r := by
  rw [xa_writeAffine_self]; rfl

@[simp] theorem xj_writeJacobian_self (rd : Reg) (pt : JPoint) (s : State) : (writeJacobian rd pt s).xj rd = pt :=
  xj_setXj s rd pt

@[simp] theorem flags_writeJacobian (rd : Reg) (pt : JPoint) (s : State) :
    (writeJacobian rd pt s).flags = jacobianFlags pt := rfl

/-- The command `i` went through: `t` differs from `s` in its destination group, in the slot of a MODSET and in the `A`
of a SETA at most, and FLAGS hold what R41's table gives them. -/
structure Commits (i : Instr) (s t : State) : Prop where
  err : t.err = false
  regs : ∀ r, r ∉ commandDests i → t.x r = s.x r
  slot : ∀ ms, (∀ ra, i ≠ .modset ms ra) → t.slot ms = s.slot ms
  coeff : (∀ ra, i ≠ .seta ra) → t.a = s.a
  flags : FlagRule i s t t.flags

section
variable {i : Instr} {rd : Reg} {s : State}

/-- A command whose flags are Z of the value written. -/
theorem commits_writeValue {v : Nat} (hd : commandDests i = [rd])
    (hf : ∀ t f, FlagRule i s t f = (f = ⟨decide (t.x rd = 0), false, false, false⟩)) :
    Commits i s (writeValue rd v s) where
  err := rfl
  regs r hr := by
    rw [hd, List.mem_singleton] at hr
    exact x_setX_ne s v hr
  slot ms _ := by simp [writeValue]
  coeff _ := rfl
  flags := by rw [hf, x_writeValue_self]; rfl

/-- A command that writes an affine point; its NOINV is left to its own statement. -/
theorem commits_writeAffine {r : APoint × Bool} (hd : commandDests i = [rd, rd + 1])
    (hf : ∀ t f, FlagRule i s t f = (f.z = decide (t.xa rd = ⟨0, 0⟩) ∧ f.inf = f.z ∧ f.lt = false)) :
    Commits i s (writeAffine rd r s) where
  err := rfl
  regs j hj := by
    simp only [hd, List.mem_cons, List.not_mem_nil, or_false, not_or] at hj
    exact x_setXa_ne s _ hj.1 hj.2
  slot ms _ := by simp [writeAffine]
  coeff _ := rfl
  flags := by rw [hf, xa_writeAffine_self]; exact ⟨rfl, rfl, rfl⟩

theorem commits_writeJacobian {pt : JPoint} (hd : commandDests i = [rd, rd + 1, rd + 2])
    (hf : ∀ t f, FlagRule i s t f =
      (f.z = decide (t.xj rd = ⟨1, 1, 0⟩) ∧ f.inf = f.z ∧ f.noinv = false ∧ f.lt = false)) :
    Commits i s (writeJacobian rd pt s) where
  err := rfl
  regs j hj := by
    simp only [hd, List.mem_cons, List.not_mem_nil, or_false, not_or] at hj
    obtain ⟨h0, h1, h2⟩ := hj
    exact x_setXj_ne s _ h0 h1 h2
  slot ms _ := by simp [writeJacobian]
  coeff _ := rfl
  flags := by rw [hf, xj_writeJacobian_self]; exact ⟨rfl, rfl, rfl, rfl⟩

end

/-- MODINV's NOINV is R16's no-inverse indication: operand and modulus share a factor. -/
theorem inv_natCast_snd (a m : Nat) : (inv (a : Int) m).2 = decide (Nat.gcd a m ≠ 1) := by
  rw [Bool.eq_iff_iff, inv_snd, decide_eq_true_iff, residue_natCast, ← Nat.gcd_rec, Nat.gcd_comm]

theorem commits_modinv (ms : Slot) (rd ra : Reg) (s : State) :
    Commits (.modinv ms rd ra) s (commit (inverseFlags (inv (s.x ra : Int) (s.slot ms).mod))
      (s.setX rd (inv (s.x ra : Int) (s.slot ms).mod).1)) where
  err := rfl
  regs r hr := x_setX_ne s _ (List.ne_of_not_mem_cons hr)
  slot o _ := by simp
  coeff _ := rfl
  flags := by simp [FlagRule, inverseFlags, inv_natCast_snd]

theorem exec_modset_zero {ms : Slot} {ra : Reg} {s : State} (h : s.x ra = 0) :
    exec (.modset ms ra) s = .next (failCmd .divZero s) := by
  simp only [exec, execModset, if_pos h]

theorem exec_modset_ne_zero {ms : Slot} {ra : Reg} {s : State} (h : s.x ra ≠ 0) :
    exec (.modset ms ra) s = .next (commit clearFlags (s.setSlot ms (ModSlot.load (s.x ra)))) := by
  simp only [exec, execModset, if_neg h]

theorem commits_modset (ms : Slot) (ra : Reg) (s : State) :
    Commits (.modset ms ra) s (commit clearFlags (s.setSlot ms (ModSlot.load (s.x ra)))) where
  err := rfl
  regs r _ := by simp
  slot o h := by
    have ho : o ≠ ms := fun e => h ra (by rw [e])
    rw [slot_commit, slot_setSlot_ne s _ ho]
  coeff _ := by simp
  flags := rfl

theorem commits_seta (ra : Reg) (s : State) :
    Commits (.seta ra) s (commit (valueFlags (s.x ra)) { s with a := s.x ra }) where
  err := rfl
  regs _ _ := rfl
  slot ms _ := by cases ms <;> rfl
  coeff h := absurd rfl (h ra)
  flags := rfl

/-! ### Both endings -/

/-- `t` is a failed completion of `s`, or satisfies `P`. -/
def FailedOr (s : State) (P : State → Prop) (t : State) : Prop := (∃ e, t = failCmd e s) ∨ P t

theorem failedOr_withSlot {ms : Slot} {s t : State} {k : ModSlot → State} {P : State → Prop}
    (h : withSlot ms s k = .next t) (hk : P (k (s.slot ms))) : FailedOr s P t := by
  obtain ⟨-, rfl⟩ | ⟨-, rfl⟩ := withSlot_cases h
  · exact .inr hk
  · exact .inl ⟨_, rfl⟩

theorem failedOr_withOddSlot {ms : Slot} {s t : State} {k : ModSlot → State} {P : State → Prop}
    (h : withOddSlot ms s k = .next t) (hk : P (k (s.slot ms))) : FailedOr s P t := by
  obtain ⟨-, -, rfl⟩ | ⟨-, -, rfl⟩ | ⟨-, rfl⟩ := withOddSlot_cases h
  · exact .inr hk
  · exact .inl ⟨_, rfl⟩
  · exact .inl ⟨_, rfl⟩

theorem failedOr_withCurve {b : Bool} {s t : State} {k : Nat → Nat → State} {P : State → Prop}
    (h : withCurve b s k = .next t) (hk : P (k s.slotP.mod s.coeff)) : FailedOr s P t := by
  obtain ⟨-, -, rfl⟩ | ⟨-, -, rfl⟩ | ⟨-, rfl⟩ := withCurve_cases h
  · exact .inr hk
  · exact .inl ⟨_, rfl⟩
  · exact .inl ⟨_, rfl⟩

/-- Everything the command `i` can do, with its own destinations and flags. -/
theorem exec_failedOr_commits {i : Instr} {s t : State} (h : exec i s = .next t) :
    FailedOr s (Commits i s) t := by
  cases i with
  | nop => cases h; exact .inr ⟨rfl, fun _ _ => rfl, fun ms _ => slot_finish s ms, fun _ => rfl, rfl⟩
  | mov rd ra => cases h; exact .inr (commits_writeValue rfl fun _ _ => rfl)
  | cmp ra rb => cases h; exact .inr ⟨rfl, fun _ _ => rfl, fun ms _ => slot_commit _ s ms, fun _ => rfl, rfl⟩
  | modset ms ra =>
    by_cases hx : s.x ra = 0
    · rw [exec_modset_zero hx] at h; cases h; exact .inl ⟨_, rfl⟩
    · rw [exec_modset_ne_zero hx] at h; cases h; exact .inr (commits_modset ms ra s)
  | seta ra => cases h; exact .inr (commits_seta ra s)
  | modadd ms rd ra rb =>
    simp only [exec, execModadd] at h
    exact failedOr_withSlot h (commits_writeValue rfl fun _ _ => rfl)
  | modsub ms rd ra rb =>
    simp only [exec, execModsub] at h
    exact failedOr_withSlot h (commits_writeValue rfl fun _ _ => rfl)
  | modmul ms rd ra rb =>
    simp only [exec, execModmul] at h
    exact failedOr_withSlot h (commits_writeValue rfl fun _ _ => rfl)
  | modred ms neg rd ra rb =>
    simp only [exec, execModred] at h
    exact failedOr_withSlot h (commits_writeValue rfl fun _ _ => rfl)
  | modinv ms rd ra =>
    simp only [exec, execModinv] at h
    exact failedOr_withSlot h (commits_modinv ms rd ra s)
  | montmul ms rd ra rb =>
    simp only [exec, execMontmul] at h
    exact failedOr_withOddSlot h (commits_writeValue rfl fun _ _ => rfl)
  | tomont ms rd ra =>
    simp only [exec, execTomont] at h
    exact failedOr_withOddSlot h (commits_writeValue rfl fun _ _ => rfl)
  | frommont ms rd ra =>
    simp only [exec, execFrommont] at h
    exact failedOr_withOddSlot h (commits_writeValue rfl fun _ _ => rfl)
  | padda rd ra rb =>
    simp only [exec, execPadda] at h
    exact failedOr_withCurve h (commits_writeAffine rfl fun _ _ => rfl)
  | pdbla rd ra =>
    simp only [exec, execPdbla] at h
    exact failedOr_withCurve h (commits_writeAffine rfl fun _ _ => rfl)
  | pmula rd ra rb =>
    simp only [exec, execPmula] at h
    exact failedOr_withCurve h (commits_writeAffine rfl fun _ _ => rfl)
  | paddj rd ra rb =>
    simp only [exec, execPaddj] at h
    exact failedOr_withCurve h (commits_writeJacobian rfl fun _ _ => rfl)
  | pdblj rd ra =>
    simp only [exec, execPdblj] at h
    exact failedOr_withCurve h (commits_writeJacobian rfl fun _ _ => rfl)
  | pmulj rd ra rb =>
    simp only [exec, execPmulj] at h
    exact failedOr_withCurve h (commits_writeJacobian rfl fun _ _ => rfl)
  | a2j rd ra =>
    simp only [exec, execA2j] at h
    exact failedOr_withCurve h (commits_writeJacobian rfl fun _ _ => rfl)
  | j2a rd ra =>
    simp only [exec, execJ2a] at h
    exact failedOr_withCurve h (commits_writeAffine rfl fun _ _ => rfl)

/-- Settles O12: a failed completion writes STATUS alone, and a successful one is framed by its destinations. -/
theorem commandFrame : Obligations.CommandFrame := by
  intro i s t h
  have hkeeps : CommandKeeps s t := (exec_cases h).commandKeeps
  have hfailed : t.err = true → t.regs = s.regs ∧ t.slotP = s.slotP ∧ t.slotN = s.slotN ∧ t.a = s.a ∧
      t.flags = s.flags := fun he => by
    obtain ⟨e, rfl⟩ := (exec_cases h).failed_of_err he
    exact ⟨rfl, rfl, rfl, rfl, rfl⟩
  obtain ⟨e, rfl⟩ | hc := exec_failedOr_commits h
  · exact ⟨fun _ _ => rfl, fun ms _ => slot_failCmd e s ms, fun _ => rfl, fun _ => rfl, hfailed, hkeeps⟩
  · refine ⟨hc.regs, hc.slot, hc.coeff, ?_, hfailed, hkeeps⟩
    rintro rfl
    exact hc.flags

end Sys2Proof.Machine
end

section
/-! MU is unobservable (10_state.md R36): reads and commands on a state give, but for MU, what they give on the state
with its MU forgotten. -/

namespace Sys2Proof.Machine

/-- A slot but for its MU. -/
def ModSlot.forgetMu (m : ModSlot) : ModSlot := { m with mu := 0 }

@[simp] theorem slot_forgetMu (s : State) (ms : Slot) : s.forgetMu.slot ms = (s.slot ms).forgetMu := by
  cases ms <;> rfl

theorem readLoc_forgetMu (s : State) (l : Loc) : s.forgetMu.readLoc l = s.readLoc l := by
  cases l with
  | modWord ms j => cases ms <;> rfl
  | _ => rfl

/-- Two results that are states equal but for MU. -/
def SameButMu (r r' : Result) : Prop := ∃ t t', r = .next t ∧ r' = .next t' ∧ t.forgetMu = t'.forgetMu

theorem SameButMu.of_next {t t' : State} (h : t.forgetMu = t'.forgetMu) : SameButMu (.next t) (.next t') :=
  ⟨t, t', rfl, rfl, h⟩

theorem withSlot_forgetMu {ms : Slot} {s : State} {k k' : ModSlot → State}
    (hk : ∀ m, (k' m.forgetMu).forgetMu = (k m).forgetMu) :
    SameButMu (withSlot ms s.forgetMu k') (withSlot ms s k) := by
  cases hv : (s.slot ms).v with
  | true =>
    rw [withSlot_valid k hv, withSlot_valid k' (by rwa [slot_forgetMu]), slot_forgetMu]
    exact .of_next (hk _)
  | false =>
    rw [withSlot_invalid k hv, withSlot_invalid k' (by rwa [slot_forgetMu])]
    exact .of_next rfl

theorem withOddSlot_forgetMu {ms : Slot} {s : State} {k k' : ModSlot → State}
    (hk : ∀ m, (k' m.forgetMu).forgetMu = (k m).forgetMu) :
    SameButMu (withOddSlot ms s.forgetMu k') (withOddSlot ms s k) :=
  withSlot_forgetMu fun m => by
    cases ho : m.odd with
    | true => simpa [ModSlot.forgetMu, ho] using hk m
    | false => simp [ModSlot.forgetMu, ho]; rfl

theorem withCurve_forgetMu {b : Bool} {s : State} {k k' : Nat → Nat → State}
    (hk : ∀ p a, (k' p a).forgetMu = (k p a).forgetMu) :
    SameButMu (withCurve b s.forgetMu k') (withCurve b s k) := by
  cases b with
  | true =>
    exact withSlot_forgetMu (k := fun m => k m.mod s.coeff) (k' := fun m => k' m.mod s.coeff) fun _ => hk _ _
  | false => exact .of_next rfl

theorem exec_forgetMu (i : Instr) (s : State) : SameButMu (exec i s.forgetMu) (exec i s) := by
  cases i with
  | nop => exact .of_next rfl
  | mov => exact .of_next rfl
  | cmp => exact .of_next rfl
  | modset ms ra =>
    by_cases hx : s.x ra = 0
    · rw [exec_modset_zero hx, exec_modset_zero (s := s.forgetMu) hx]
      exact .of_next rfl
    · rw [exec_modset_ne_zero hx, exec_modset_ne_zero (s := s.forgetMu) hx]
      exact .of_next (by cases ms <;> rfl)
  | seta => exact .of_next rfl
  | modadd => simp only [exec, execModadd]; exact withSlot_forgetMu fun _ => rfl
  | modsub => simp only [exec, execModsub]; exact withSlot_forgetMu fun _ => rfl
  | modmul => simp only [exec, execModmul]; exact withSlot_forgetMu fun _ => rfl
  | modred => simp only [exec, execModred]; exact withSlot_forgetMu fun _ => rfl
  | modinv => simp only [exec, execModinv]; exact withSlot_forgetMu fun _ => rfl
  | montmul => simp only [exec, execMontmul]; exact withOddSlot_forgetMu fun _ => rfl
  | tomont => simp only [exec, execTomont]; exact withOddSlot_forgetMu fun _ => rfl
  | frommont => simp only [exec, execFrommont]; exact withOddSlot_forgetMu fun _ => rfl
  | padda => simp only [exec, execPadda]; exact withCurve_forgetMu fun _ _ => rfl
  | pdbla => simp only [exec, execPdbla]; exact withCurve_forgetMu fun _ _ => rfl
  | pmula => simp only [exec, execPmula]; exact withCurve_forgetMu fun _ _ => rfl
  | paddj => simp only [exec, execPaddj]; exact withCurve_forgetMu fun _ _ => rfl
  | pdblj => simp only [exec, execPdblj]; exact withCurve_forgetMu fun _ _ => rfl
  | pmulj => simp only [exec, execPmulj]; exact withCurve_forgetMu fun _ _ => rfl
  | a2j => simp only [exec, execA2j]; exact withCurve_forgetMu fun _ _ => rfl
  | j2a => simp only [exec, execJ2a]; exact withCurve_forgetMu fun _ _ => rfl

/-- Settles O59: both states answer as their common state without MU does. -/
theorem barrettConstantsUnobservable : Obligations.BarrettConstantsUnobservable := by
  intro s s' h
  refine ⟨fun off => ?_, fun i t ht => ?_⟩
  · rw [State.busRead, ← readLoc_forgetMu, h, readLoc_forgetMu, ← State.busRead]
  · obtain ⟨u, t1, hu, ht1, hut⟩ := exec_forgetMu i s
    obtain ⟨u', t', hu', ht', hut'⟩ := exec_forgetMu i s'
    rw [ht] at ht1
    rw [h, hu'] at hu
    cases ht1
    cases hu
    exact ⟨t', ht', hut.symm.trans hut'⟩

end Sys2Proof.Machine
end

section
/-! The status and identification registers bit by bit (10_state.md R38 to R47). -/

namespace Sys2Proof.Machine

/-! ### Fields of a word put together from placed parts -/

theorem getLsbD_place {n : Nat} (lo : Nat) (b : BitVec n) (k : Nat) :
    (place lo b).getLsbD k = (decide (k < 32) && decide (lo ≤ k) && b.getLsbD (k - lo)) := by
  by_cases hk : k < 32
  · simp [place, hk, ← decide_not]
  · simp [place, hk]

theorem getElem_place {n : Nat} (lo : Nat) (b : BitVec n) (k : Nat) (h : k < 32) :
    (place lo b)[k] = (decide (lo ≤ k) && b.getLsbD (k - lo)) := by
  rw [← BitVec.getLsbD_eq_getElem, getLsbD_place, decide_eq_true h, Bool.true_and]

theorem testBit_wordField (c : Word) (lo len k : Nat) :
    (wordField c lo len).testBit k = (decide (k < len) && c.getLsbD (lo + k)) := by
  rw [wordField, Nat.testBit_mod_two_pow, Nat.testBit_div_two_pow, BitVec.testBit_toNat, Nat.add_comm]

theorem wordField_or (a b : Word) (lo len : Nat) :
    wordField (a ||| b) lo len = wordField a lo len ||| wordField b lo len := by
  refine Nat.eq_of_testBit_eq fun k => ?_
  simp only [Nat.testBit_or, testBit_wordField, BitVec.getLsbD_or, Bool.and_or_distrib_left]

/-- A field that a placed part does not reach. -/
theorem wordField_place_disjoint {n lo : Nat} (b : BitVec n) {fieldLo len : Nat}
    (h : lo + n ≤ fieldLo ∨ fieldLo + len ≤ lo) : wordField (place lo b) fieldLo len = 0 := by
  refine Nat.eq_of_testBit_eq fun k => ?_
  rw [testBit_wordField, getLsbD_place, Nat.zero_testBit]
  obtain h | h := h
  · simp [BitVec.getLsbD_of_ge b (fieldLo + k - lo) (by omega)]
  · by_cases hk : k < len
    · simp [show ¬ lo ≤ fieldLo + k by omega]
    · simp [hk]

/-- The field that holds a placed part. -/
theorem wordField_place {n lo : Nat} (b : BitVec n) {len : Nat} (hn : n ≤ len) (h : lo + n ≤ 32) :
    wordField (place lo b) lo len = b.toNat := by
  refine Nat.eq_of_testBit_eq fun k => ?_
  rw [testBit_wordField, getLsbD_place, BitVec.testBit_toNat, Nat.add_sub_cancel_left]
  by_cases hk : k < n
  · simp [show k < len by omega, show lo + k < 32 by omega]
  · simp [BitVec.getLsbD_of_ge b k (by omega)]

/-! ### The registers -/

theorem busRead_param (s : State) : s.busRead 0x008 = paramWord s := rfl
theorem busRead_ctrl (s : State) : s.busRead 0x00C = ctrlWord s := rfl
theorem busRead_status (s : State) : s.busRead 0x010 = statusWord s := rfl
theorem busRead_flags (s : State) : s.busRead 0x014 = flagsWord s := rfl
theorem busRead_cmd (s : State) : s.busRead 0x018 = s.cmd := rfl
theorem busRead_kbits (s : State) : s.busRead 0x01C = kbitsWord s := rfl

/-- R40. -/
theorem statusWord_layout (s : State) :
    (statusWord s).getLsbD 0 = s.busy ∧ (statusWord s).getLsbD 1 = s.done ∧ (statusWord s).getLsbD 2 = s.err ∧
    (statusWord s).getLsbD 3 = s.ovr ∧ wordField (statusWord s) 4 4 = 0 ∧
    wordField (statusWord s) 8 4 = s.errcode.toNat ∧ wordField (statusWord s) 12 4 = 0 ∧
    (statusWord s).getLsbD 16 = s.slotP.v ∧ (statusWord s).getLsbD 17 = s.slotN.v ∧
    (statusWord s).getLsbD 18 = (s.slotP.v && s.slotP.odd) ∧
    (statusWord s).getLsbD 19 = (s.slotN.v && s.slotN.odd) ∧ wordField (statusWord s) 20 12 = 0 := by
  simp [statusWord, getElem_place, wordField_or, wordField_place, wordField_place_disjoint]

/-- R41. -/
theorem flagsWord_layout (s : State) :
    (flagsWord s).getLsbD 0 = s.flags.z ∧ (flagsWord s).getLsbD 1 = s.flags.inf ∧
    (flagsWord s).getLsbD 2 = s.flags.noinv ∧ (flagsWord s).getLsbD 3 = s.flags.lt ∧
    wordField (flagsWord s) 4 28 = 0 := by
  simp [flagsWord, getElem_place, wordField_or, wordField_place_disjoint]

/-- R38. -/
theorem ctrlWord_layout (s : State) : (ctrlWord s).getLsbD 0 = s.ie ∧ wordField (ctrlWord s) 1 31 = 0 := by
  simp [ctrlWord, getElem_place, wordField_place_disjoint]

/-- R47. -/
theorem paramWord_layout (s : State) : wordField (paramWord s) 0 16 = s.width % 2 ^ 16 ∧
    wordField (paramWord s) 16 8 = 16 ∧ wordField (paramWord s) 16 16 = 16 ∧ wordField (paramWord s) 24 8 = 0 := by
  simp [paramWord, wordField_or, wordField_place, wordField_place_disjoint, Config.nreg]

/-- R44. -/
theorem kbitsWord_layout (s : State) : wordField (kbitsWord s) 0 16 = (kbitsHalf s.slotP).toNat ∧
    wordField (kbitsWord s) 16 16 = (kbitsHalf s.slotN).toNat := by
  simp [kbitsWord, wordField_or, wordField_place, wordField_place_disjoint]

theorem kbitsHalf_toNat {m : ModSlot} (h : m.k < 2 ^ 16) : (kbitsHalf m).toNat = if m.v = true then m.k else 0 := by
  unfold kbitsHalf
  split
  · rw [BitVec.toNat_ofNat, Nat.mod_eq_of_lt h]
  · rfl

/-- Settles O22: a failed command writes no flag, and a successful one meets its row of R41's table. -/
theorem flagsRegister : Obligations.FlagsRegister := by
  refine ⟨flagsWord_layout, rfl, fun i s t h => ⟨fun he => ?_, fun he => ?_⟩⟩
  · obtain ⟨e, rfl⟩ := (exec_cases h).failed_of_err he
    exact flags_failCmd e s
  · obtain ⟨e, rfl⟩ | hc := exec_failedOr_commits h
    · cases he
    · exact hc.flags

/-! ### What a reset leaves there -/

/-- `ResetValues` reads neither the operand registers nor the model's own fields. -/
theorem ResetValues.setUnread {s : State} (h : ResetValues s) (regs : Vector Nat 16) (l : List Event) (r : BusReply)
    (n : Nat) : ResetValues { s with regs := regs, pending := l, reply := r, free := n } :=
  { h with }

/-- R253, with R50's values. -/
theorem resetValues_softReset (s : State) : ResetValues (softReset s) where
  modP := rfl
  modN := rfl
  validP := rfl
  validN := rfl
  oddP := rfl
  oddN := rfl
  bitsP := rfl
  bitsN := rfl
  coeff := rfl
  ctrl := by simp [busRead_ctrl, ctrlWord]
  status := by simp [busRead_status, statusWord]
  flags := by simp [busRead_flags, flagsWord]
  cmd := rfl
  kbits := by simp [busRead_kbits, kbitsWord, kbitsHalf]
  id := rfl
  version := rfl
  param := by
    obtain ⟨-, -, hnreg, -⟩ := paramWord_layout (softReset s)
    exact hnreg
  engine := rfl
  irq := rfl

end Sys2Proof.Machine
end

section
/-! What a step is, sorted by what the host can see of it (20_memory.md R72 to R82; 60_exceptions.md R225 to R227;
70_reset_and_hazards.md R250 to R253), and the statements about the registers of 10_state.md that follow. -/

namespace Sys2Proof.Machine

/-! ### Host writes as steps -/

/-- A 32-bit write to an aligned offset of the window reaches it (R71, R76). -/
theorem step_writeEvent {s : State} {off : Nat} {v : Word} {rest : List Event} (hoff : off < 0x1000)
    (halign : off % 4 = 0) (hp : s.pending = writeEvent off v :: rest) :
    step s = .next { ({ s with pending := rest } : State).busWrite off v with reply := .ack } := by
  have hlegal : Access.legal { off := off, size := .word, kind := .write v } = true := by simp [Access.legal, halign]
  rw [step_cons hp]
  simp only [writeEvent, perform, hostAccess, Config.windowSize, if_neg (Nat.not_le.mpr hoff), hlegal, if_true]

theorem step_write_ctrl {s : State} {v : Word} {rest : List Event} (hp : s.pending = writeEvent 0x00C v :: rest) :
    step s = .next { writeCtrl v { s with pending := rest } with reply := .ack } :=
  step_writeEvent (by decide) (by decide) hp

theorem step_write_status {s : State} {v : Word} {rest : List Event} (hp : s.pending = writeEvent 0x010 v :: rest) :
    step s = .next { writeStatus v { s with pending := rest } with reply := .ack } :=
  step_writeEvent (by decide) (by decide) hp

theorem step_write_cmd {s : State} {c : Word} {rest : List Event} (hp : s.pending = writeEvent 0x018 c :: rest) :
    step s = .next { writeCmd c { s with pending := rest } with reply := .ack } :=
  step_writeEvent (by decide) (by decide) hp

theorem writeCtrl_ie {v : Word} (s : State) (h : v.getLsbD 1 = false) :
    writeCtrl v s = { s with ie := v.getLsbD 0 } := by
  simp only [writeCtrl, h, Bool.false_eq_true, if_false]

theorem writeCtrl_softReset {v : Word} (s : State) (h : v.getLsbD 1 = true) : writeCtrl v s = softReset s := by
  simp only [writeCtrl, h, if_true]

theorem step_hwReset {s : State} {rest : List Event} (hp : s.pending = .hwReset :: rest) :
    step s = .next (hardReset { s with pending := rest }) :=
  step_cons hp

/-- The two resets as steps. -/
theorem step_reset {s t : State} {e : Event} {rest : List Event} (hp : s.pending = e :: rest) (he : IsReset e)
    (h : step s = .next t) :
    t = hardReset { s with pending := rest } ∨ t = { softReset { s with pending := rest } with reply := .ack } := by
  obtain rfl | ⟨v, hv, rfl⟩ := he
  · rw [step_hwReset hp] at h
    cases h
    exact .inl rfl
  · rw [step_write_ctrl hp, writeCtrl_softReset _ hv] at h
    cases h
    exact .inr rfl

/-! ### The map of the window, backwards -/

theorem off_of_loc_ctrl {off : Nat} (halign : off % 4 = 0) (h : Loc.ofOffset off = .ctrl) : off = 0x00C := by
  grind [Loc.ofOffset]

theorem off_of_loc_cmd {off : Nat} (halign : off % 4 = 0) (h : Loc.ofOffset off = .cmd) : off = 0x018 := by
  grind [Loc.ofOffset]

/-! ### Everything a step can do -/

/-- What a step leaves that is no completion, acceptance or reset. -/
structure Untouched (s t : State) : Prop where
  width : t.width = s.width
  slotP : t.slotP = s.slotP
  slotN : t.slotN = s.slotN
  a : t.a = s.a
  errcode : t.errcode = s.errcode
  cmd : t.cmd = s.cmd

theorem Untouched.refl (s : State) : Untouched s s := ⟨rfl, rfl, rfl, rfl, rfl, rfl⟩

theorem untouched_writeReg (i : Reg) (j : Nat) (v : Word) (s : State) : Untouched s (writeReg i j v s) := by
  unfold writeReg
  split
  · split <;> exact ⟨rfl, rfl, rfl, rfl, rfl, rfl⟩
  · exact .refl s

theorem untouched_engineWork (s : State) : Untouched s (engineWork s) := by
  obtain hs | ⟨c, n, d, -, -, -, hs⟩ := engineWork_cases s <;> rw [hs]
  · exact .refl s
  · exact ⟨rfl, rfl, rfl, rfl, rfl, rfl⟩

/-- Of all writes only SRST resets and only CMD accepts. -/
theorem busWrite_cases (s : State) {off : Nat} (v : Word) (halign : off % 4 = 0) :
    (off = 0x00C ∧ v.getLsbD 1 = true ∧ s.busWrite off v = softReset s) ∨
      (off = 0x018 ∧ s.busy = false ∧ s.busWrite off v = accept v s) ∨ Untouched s (s.busWrite off v) := by
  rw [State.busWrite]
  cases hl : Loc.ofOffset off with
  | ctrl =>
    change _ ∨ _ ∨ Untouched s (writeCtrl v s)
    cases hv : v.getLsbD 1 with
    | true => exact .inl ⟨off_of_loc_ctrl halign hl, rfl, writeCtrl_softReset s hv⟩
    | false => rw [writeCtrl_ie s hv]; exact .inr (.inr ⟨rfl, rfl, rfl, rfl, rfl, rfl⟩)
  | cmd =>
    change _ ∨ _ ∨ Untouched s (writeCmd v s)
    cases hb : s.busy with
    | true => rw [writeCmd_busy v hb]; exact .inr (.inr ⟨rfl, rfl, rfl, rfl, rfl, rfl⟩)
    | false => exact .inr (.inl ⟨off_of_loc_cmd halign hl, rfl, writeCmd_idle v hb⟩)
  | status => exact .inr (.inr ⟨rfl, rfl, rfl, rfl, rfl, rfl⟩)
  | regWord i j => exact .inr (.inr (untouched_writeReg i j v s))
  | _ => exact .inr (.inr (.refl s))

/-- A step completes the command in flight, resets, accepts a command, or leaves all that only these change. -/
inductive Stepped (s t : State) : Prop where
  | completed (c : Word) (n : Nat) (rest : List Event) (he : s.engine = .busy c n)
      (h : completeWord c { s with pending := rest } = .next t)
  | reset (e : Event) (rest : List Event) (hp : s.pending = e :: rest) (he : IsReset e)
  | accepted (c : Word) (rest : List Event) (hp : s.pending = writeEvent 0x018 c :: rest) (hb : s.busy = false)
      (h : t = { accept c { s with pending := rest } with reply := .ack })
  | other (h : Untouched s t)

theorem stepped_engineDone {s t : State} {rest : List Event} (h : engineDone { s with pending := rest } = .next t) :
    Stepped s t := by
  cases he : s.engine with
  | idle =>
    rw [engineDone_idle (s := { s with pending := rest }) he] at h
    cases h
    exact .other ⟨rfl, rfl, rfl, rfl, rfl, rfl⟩
  | busy c n =>
    rw [engineDone_busy (s := { s with pending := rest }) he] at h
    exact .completed c n rest he h

theorem stepped_hostAccess {s t : State} {a : Access} {rest : List Event} (hp : s.pending = .access a :: rest)
    (h : hostAccess a { s with pending := rest } = .next t) : Stepped s t := by
  obtain ⟨-, ⟨-, rfl⟩ | ⟨-, -, rfl⟩ | ⟨v, hlegal, hk, rfl⟩⟩ := hostAccess_cases h
  · exact .other ⟨rfl, rfl, rfl, rfl, rfl, rfl⟩
  · exact .other ⟨rfl, rfl, rfl, rfl, rfl, rfl⟩
  · obtain ⟨off, size, kind⟩ := a
    simp only [Access.legal, Bool.and_eq_true, decide_eq_true_eq] at hlegal hk
    obtain ⟨rfl, halign⟩ := hlegal
    subst hk
    obtain ⟨rfl, hv, -⟩ | ⟨rfl, hb, hw⟩ | hu := busWrite_cases { s with pending := rest } v halign
    · exact .reset _ rest hp (.inr ⟨v, hv, rfl⟩)
    · exact .accepted v rest hp hb (by rw [hw])
    · exact .other ⟨hu.width, hu.slotP, hu.slotN, hu.a, hu.errcode, hu.cmd⟩

theorem stepped_of_step {s t : State} (h : step s = .next t) : Stepped s t := by
  obtain ⟨-, hd⟩ | ⟨e, l, hp, ⟨a, rfl, ha⟩ | ⟨rfl, -⟩ | ⟨-, rfl⟩ | ⟨-, hd⟩⟩ := step_cases h
  · exact stepped_engineDone (rest := s.pending) hd
  · exact stepped_hostAccess hp ha
  · exact .reset _ l hp (.inl rfl)
  · obtain ⟨hwidth, hslotP, hslotN, ha, herrcode, hcmd⟩ := untouched_engineWork { s with pending := l }
    exact .other ⟨hwidth, hslotP, hslotN, ha, herrcode, hcmd⟩
  · exact stepped_engineDone hd

/-! ### CMD, the slots and `A`, STATUS -/

/-- Settles O8: the writes by their two cases, and everything that changes CMD by the kinds of step. -/
theorem cmdRegister : Obligations.CmdRegister := by
  refine ⟨fun s c rest hb hp => ?_, fun s c rest hb hp => ?_, busRead_cmd, fun s t h hne => ?_, rfl⟩
  · rw [step_write_cmd hp, writeCmd_idle (s := { s with pending := rest }) c hb]
    exact ⟨_, rfl, rfl, rfl⟩
  · rw [step_write_cmd hp, writeCmd_busy (s := { s with pending := rest }) c hb]
  · cases stepped_of_step h with
    | completed c n rest _ hc => exact absurd (completeWord_cases hc).commandKeeps.cmd hne
    | reset e rest hp he => exact .inr ⟨e, rest, hp, he⟩
    | accepted c rest hp hb ht => exact .inl ⟨c, rest, hb, hp, by rw [ht]; rfl⟩
    | other hu => exact absurd hu.cmd hne

/-- A MODSET that changes a slot succeeded, and that slot holds its operand (R134). -/
theorem modset_of_slot_ne {i : Instr} {s t : State} {ms : Slot} (h : exec i s = .next t)
    (hne : t.slot ms ≠ s.slot ms) : ∃ ra, i = .modset ms ra ∧ t.done = true ∧ t.err = false ∧
      (t.slot ms).v = true ∧ (t.slot ms).mod = s.x ra := by
  obtain ⟨-, hslot, -⟩ := commandFrame i s t h
  obtain ⟨ra, rfl⟩ : ∃ ra, i = .modset ms ra := by_contra fun hi => hne (hslot ms fun ra e => hi ⟨ra, e⟩)
  by_cases hx : s.x ra = 0
  · rw [exec_modset_zero hx] at h
    cases h
    exact absurd (slot_failCmd _ s ms) hne
  · rw [exec_modset_ne_zero hx] at h
    cases h
    refine ⟨ra, rfl, rfl, rfl, ?_⟩
    rw [slot_commit, slot_setSlot_self]
    exact ⟨rfl, rfl⟩

/-- A command that changes `A` is a SETA (R135). -/
theorem seta_of_coeff_ne {i : Instr} {s t : State} (h : exec i s = .next t) (hne : t.a ≠ s.a) :
    ∃ ra, i = .seta ra ∧ t.done = true ∧ t.a = s.x ra := by
  obtain ⟨-, -, hcoeff, -⟩ := commandFrame i s t h
  obtain ⟨ra, rfl⟩ : ∃ ra, i = .seta ra := by_contra fun hi => hne (hcoeff fun ra e => hi ⟨ra, e⟩)
  cases h
  exact ⟨ra, rfl, rfl, rfl⟩

/-- A completion runs the decoded command, or fails with the decoder's error (R105). -/
theorem exec_of_completeWord {c : Word} {s t : State} (h : completeWord c s = .next t) :
    (∃ i, decode c = .ok i ∧ exec i s = .next t) ∨ ∃ e, t = failCmd e s := by
  cases hd : decode c with
  | ok i => rw [completeWord_ok s hd] at h; exact .inl ⟨i, rfl, h⟩
  | error e => rw [completeWord_error s hd] at h; cases h; exact .inr ⟨e, rfl⟩

/-- Settles O13: of the kinds of step only a completion is left, and of the commands only MODSET and SETA. -/
theorem slotsWrittenOnlyByModset : Obligations.SlotsWrittenOnlyByModset := by
  intro s t h hnoreset
  cases stepped_of_step h with
  | completed c n rest he hc =>
    obtain ⟨i, hd, hx⟩ | ⟨e, rfl⟩ := exec_of_completeWord hc
    · refine ⟨fun ms hne => ?_, fun hne => ?_⟩
      · have hslot : ({ s with pending := rest } : State).slot ms = s.slot ms := by cases ms <;> rfl
        obtain ⟨ra, rfl, hdone, herr, hv, hmod⟩ := modset_of_slot_ne hx (by rwa [hslot])
        exact ⟨c, n, ra, he, hd, hdone, herr, hv, hmod⟩
      · obtain ⟨ra, rfl, hdone, ha⟩ := seta_of_coeff_ne hx hne
        exact ⟨c, n, ra, he, hd, hdone, ha⟩
    · exact ⟨fun ms hne => absurd (by cases ms <;> rfl) hne, fun hne => absurd rfl hne⟩
  | reset e rest hp he => exact absurd he (hnoreset e (by rw [hp]; rfl))
  | accepted c rest hp hb ht =>
    subst ht
    exact ⟨fun ms hne => absurd (by cases ms <;> rfl) hne, fun hne => absurd rfl hne⟩
  | other hu =>
    refine ⟨fun ms hne => absurd ?_ hne, fun hne => absurd hu.a hne⟩
    cases ms
    · exact hu.slotP
    · exact hu.slotN

/-- Settles O20: the layout, the W1C write, and the five codes a completion can leave. -/
theorem statusLayout : Obligations.StatusLayout := by
  refine ⟨statusWord_layout, fun s v rest hp => step_write_status hp, rfl, fun s t h h5 => ?_⟩
  cases stepped_of_step h with
  | completed c n rest _ hc => exact (completeWord_cases hc).statusOk.errcode
  | reset e rest hp he => obtain rfl | rfl := step_reset hp he h <;> simp
  | accepted c rest hp hb ht => subst ht; simp
  | other hu => rwa [hu.errcode]

/-! ### CTRL, KBITS, the identification registers and the interrupt line -/

/-- Settles O21: the two kinds of write to CTRL, each as one step. -/
theorem controlRegister : Obligations.ControlRegister := by
  refine ⟨ctrlWord_layout, fun s v rest hp => ⟨fun hv => ?_, fun hv => ?_⟩, fun _ => rfl, rfl⟩
  · rw [step_write_ctrl hp, writeCtrl_ie _ hv]
  · rw [step_write_ctrl hp, writeCtrl_softReset _ hv]
    exact ⟨_, rfl, (resetValues_softReset _).setUnread _ _ _ _, rfl⟩

/-- Settles O23: each half of KBITS is its slot's. -/
theorem kbitsRegister : Obligations.KbitsRegister := by
  refine ⟨fun s hP hN => ?_, fun s v rest hp => step_writeEvent (by decide) (by decide) hp, rfl⟩
  rw [busRead_kbits, ← kbitsHalf_toNat hP, ← kbitsHalf_toNat hN]
  exact kbitsWord_layout s

theorem width_of_step {s t : State} (h : step s = .next t) : t.width = s.width := by
  cases stepped_of_step h with
  | completed c n rest _ hc => exact (completeWord_cases hc).commandKeeps.width
  | reset e rest hp he => obtain rfl | rfl := step_reset hp he h <;> simp
  | accepted c rest hp hb ht => subst ht; rfl
  | other hu => exact hu.width

/-- Settles O24: PARAM shows W, which no step changes. -/
theorem identificationRegisters : Obligations.IdentificationRegisters := by
  refine ⟨fun _ => ⟨rfl, rfl⟩, fun s hw => ?_, by decide, fun s t h => ?_, fun s off v rest hoff hp => ?_⟩
  · obtain ⟨hW, hnreg, -, htop⟩ := paramWord_layout s
    simp only [Config.legalWidth, Bool.and_eq_true, decide_eq_true_eq] at hw
    rw [Nat.mod_eq_of_lt (by omega)] at hW
    exact ⟨hW, hnreg, htop⟩
  · rw [busRead_param, busRead_param, paramWord, paramWord, width_of_step h]
  · obtain rfl | rfl | rfl := hoff <;> exact step_writeEvent (by decide) (by decide) hp

/-- Settles O25: IE and DONE after each kind of event. -/
theorem interruptLine : Obligations.InterruptLine := by
  refine ⟨fun s => Bool.and_eq_true_iff, rfl, fun s t c n rest he hp h => ?_, fun s t v rest hp hv h => ?_,
    fun s t v rest hb hp h => ?_, fun s t v rest hp hv h => ?_, fun s t e rest hp he h => ?_⟩
  · rw [step_cons hp, perform, engineDone_busy (s := { s with pending := rest }) he] at h
    have hc := completeWord_cases h
    rw [State.irq, hc.done, hc.commandKeeps.ie, Bool.and_true]
  · rw [step_write_status hp] at h
    cases h
    simp [State.irq, writeStatus, hv]
  · rw [step_write_cmd hp, writeCmd_idle (s := { s with pending := rest }) v hb] at h
    cases h
    simp [State.irq]
  · rw [step_write_ctrl hp, writeCtrl_ie _ hv] at h
    cases h
    rfl
  · obtain rfl | rfl := step_reset hp he h <;> simp [State.irq]

end Sys2Proof.Machine
end

section
/-! A word that decodes names operands in their classes (30_encoding.md R101, R105), and the hidden state of the scalar
loop in flight (10_state.md R48; 44_scalar.md R210). -/

namespace Sys2Proof.Machine

/-! ### Well-formed operands -/

/-- A row of R104's table that accepts a word has checked its fields. -/
theorem checked_eq_ok {c : Word} {rd ra rb : FieldClass} {msAllowed sAllowed : Bool} {i j : Instr}
    (h : checked c rd ra rb msAllowed sAllowed i = .ok j) :
    i = j ∧ rd.admits (fieldRd c) = true ∧ ra.admits (fieldRa c) = true ∧ rb.admits (fieldRb c) = true := by
  unfold checked at h
  split at h
  · cases h
  split at h
  · cases h
  next hadm =>
    simp only [Bool.not_eq_true', Bool.not_eq_false, Bool.and_eq_true] at hadm
    obtain ⟨⟨hrd, hra⟩, hrb⟩ := hadm
    split at h
    · cases h
    split at h
    · cases h
    · cases h; exact ⟨rfl, hrd, hra, hrb⟩

/-- Each row's classes are the checks of its command (R101, R104); the last case is an unassigned opcode. -/
theorem wf_of_decode {c : Word} {i : Instr} (h : decode c = .ok i) : i.wf = true := by
  simp only [decode] at h
  split at h
  case h_22 => cases h
  all_goals
    obtain ⟨rfl, hrd, hra, hrb⟩ := checked_eq_ok h
    simp_all [Instr.wf, FieldClass.admits]

/-! ### The iterations -/

theorem inFlight_of_decode {s : State} {c : Word} {n : Nat} {i : Instr} (he : s.engine = .busy c n)
    (hd : decode c = .ok i) : s.inFlight = some i := by
  simp only [State.inFlight, he, hd]

/-- The scalar does not depend on how far the loop is. -/
theorem loopScalar_setBitsDone {s : State} {c : Word} {n : Nat} (he : s.engine = .busy c n) (k : Nat) :
    State.loopScalar { s with engine := .busy c k } = s.loopScalar := by
  simp only [State.loopScalar, State.inFlight, he]
  rfl

theorem engineWork_of_lt {s : State} {c : Word} {n d : Nat} (he : s.engine = .busy c n) (hd : s.loopScalar = some d)
    (hn : n < bitlen d) : engineWork s = { s with engine := .busy c (n + 1) } := by
  simp only [engineWork, he, hd, if_pos hn]

theorem engineWork_of_le {s : State} {c : Word} {n d : Nat} (he : s.engine = .busy c n) (hd : s.loopScalar = some d)
    (hn : bitlen d ≤ n) : engineWork s = s := by
  simp only [engineWork, he, hd, if_neg (Nat.not_lt.mpr hn)]

/-- Up to the scalar's last bit the hidden iterations do nothing but count (R48, log 11). -/
theorem iterate_engineWork {s : State} {c : Word} {d k : Nat} (he : s.engine = .busy c 0)
    (hd : s.loopScalar = some d) (hk : k ≤ bitlen d) : engineWork^[k] s = { s with engine := .busy c k } := by
  induction k with
  | zero => rw [← he]; rfl
  | succ k ih =>
    rw [Function.iterate_succ_apply', ih (Nat.le_of_succ_le hk)]
    exact engineWork_of_lt rfl ((loopScalar_setBitsDone he k).trans hd) hk

/-- After the scalar's last bit there is no iteration left (R210). -/
theorem engineWork_iterate_bitlen {s : State} {c : Word} {d : Nat} (he : s.engine = .busy c 0)
    (hd : s.loopScalar = some d) : engineWork (engineWork^[bitlen d] s) = engineWork^[bitlen d] s := by
  rw [iterate_engineWork he hd le_rfl]
  exact engineWork_of_le rfl ((loopScalar_setBitsDone he _).trans hd) le_rfl

/-! ### PMULJ in flight -/

section
variable {s : State} {c : Word} {rd ra rb : Reg}

theorem ladderView_pmulj {n : Nat} (he : s.engine = .busy c n) (hv : s.slotP.v = true)
    (hd : decode c = .ok (.pmulj rd ra rb)) :
    s.ladderView = some (jacobianView s.slotP.mod s.coeff (s.x ra) (canonJ (s.xj rb) s.slotP.mod) n) := by
  simp only [State.ladderView, he, inFlight_of_decode he hd, if_pos hv]

theorem engineDone_pmulj {n : Nat} (he : s.engine = .busy c n) (hv : s.slotP.v = true)
    (hd : decode c = .ok (.pmulj rd ra rb)) :
    engineDone s = .next (writeJacobian rd
      (ladderJ s.slotP.mod s.coeff (s.x ra) (canonJ (s.xj rb) s.slotP.mod)) s) := by
  have hbases : (rd.jacobianBase && rb.jacobianBase) = true := wf_of_decode hd
  rw [engineDone_busy he, completeWord_ok s hd]
  simp only [exec, execPmulj, hbases, withCurve_valid _ hv]

theorem loopScalar_pmulj {n : Nat} (he : s.engine = .busy c n) (hv : s.slotP.v = true)
    (hd : decode c = .ok (.pmulj rd ra rb)) : s.loopScalar = some (s.x ra) := by
  simp only [State.loopScalar, inFlight_of_decode he hd, if_pos hv]

/-! ### PMULA in flight -/

theorem ladderView_pmula {n : Nat} (he : s.engine = .busy c n) (hv : s.slotP.v = true)
    (hd : decode c = .ok (.pmula rd ra rb)) :
    s.ladderView = some (affineView s.slotP.mod s.coeff (s.x ra) (canonA (s.xa rb) s.slotP.mod) n) := by
  simp only [State.ladderView, he, inFlight_of_decode he hd, if_pos hv]

theorem engineDone_pmula {n : Nat} (he : s.engine = .busy c n) (hv : s.slotP.v = true)
    (hd : decode c = .ok (.pmula rd ra rb)) :
    engineDone s = .next (writeAffine rd
      (ladderA s.slotP.mod s.coeff (s.x ra) (canonA (s.xa rb) s.slotP.mod)) s) := by
  have hbases : (rd.affineBase && rb.affineBase) = true := wf_of_decode hd
  rw [engineDone_busy he, completeWord_ok s hd]
  simp only [exec, execPmula, hbases, withCurve_valid _ hv]

theorem loopScalar_pmula {n : Nat} (he : s.engine = .busy c n) (hv : s.slotP.v = true)
    (hd : decode c = .ok (.pmula rd ra rb)) : s.loopScalar = some (s.x ra) := by
  simp only [State.loopScalar, inFlight_of_decode he hd, if_pos hv]

end

/-- Settles O54: the iterations count, and the completion's own loop is the view's running point after the last. -/
theorem scalarLoopHiddenState : Obligations.ScalarLoopHiddenState := by
  refine ⟨fun s c rd ra rb he hv hd => ?_, fun s c rd ra rb he hv hd => ?_⟩
  · have hscalar := loopScalar_pmulj he hv hd
    have hview : ∀ k, k ≤ bitlen (s.x ra) → (engineWork^[k] s).ladderView =
        some (jacobianView s.slotP.mod s.coeff (s.x ra) (canonJ (s.xj rb) s.slotP.mod) k) := fun k hk => by
      rw [iterate_engineWork he hscalar hk]
      exact ladderView_pmulj (s := { s with engine := .busy c k }) rfl hv hd
    refine ⟨fun k hk => ⟨_, _, _, hview k hk⟩, ?_⟩
    rw [hview _ le_rfl, jacobianView, Nat.sub_self, engineWork_iterate_bitlen he hscalar,
      iterate_engineWork he hscalar le_rfl,
      engineDone_pmulj (s := { s with engine := .busy c (bitlen (s.x ra)) }) rfl hv hd]
    exact ⟨_, _, _, _, rfl, rfl, rfl, xj_writeJacobian_self ..⟩
  · have hscalar := loopScalar_pmula he hv hd
    have hview : ∀ k, k ≤ bitlen (s.x ra) → (engineWork^[k] s).ladderView =
        some (affineView s.slotP.mod s.coeff (s.x ra) (canonA (s.xa rb) s.slotP.mod) k) := fun k hk => by
      rw [iterate_engineWork he hscalar hk]
      exact ladderView_pmula (s := { s with engine := .busy c k }) rfl hv hd
    refine ⟨fun k hk => ⟨_, _, _, hview k hk⟩, ?_⟩
    rw [hview _ le_rfl, affineView, Nat.sub_self, engineWork_iterate_bitlen he hscalar,
      iterate_engineWork he hscalar le_rfl,
      engineDone_pmula (s := { s with engine := .busy c (bitlen (s.x ra)) }) rfl hv hd]
    exact ⟨_, _, _, _, rfl, rfl, rfl, xa_noinv_writeAffine ..⟩

end Sys2Proof.Machine
end

section
/-! Host accesses to the register window (20_memory.md R70 to R81): its map, the words of a value, and what a read, a
write and an illegal access do as steps. -/

namespace Sys2Proof.Machine

/-! ### The map of the window (R72) -/

theorem ofOffset_register {off : Nat} (hlo : 0x400 ≤ off) (hhi : off < 0xC00) :
    Loc.ofOffset off = .regWord (Fin.ofNat 16 ((off - 0x400) / 0x80)) (off % 0x80 / 4) := by
  rw [Loc.ofOffset, if_neg (by omega), if_pos hhi, show (off - 0x400) % 0x80 = off % 0x80 by omega]

theorem ofOffset_regWord (i : Reg) {j : Nat} (hj : j < 32) :
    Loc.ofOffset (0x400 + 0x80 * i.val + 4 * j) = .regWord i j := by
  have hi : (0x400 + 0x80 * i.val + 4 * j - 0x400) / 0x80 = i.val := by omega
  have hword : (0x400 + 0x80 * i.val + 4 * j) % 0x80 / 4 = j := by omega
  rw [ofOffset_register (by omega) (by omega), hi, hword, Fin.ofNat_val_eq_self]

theorem ofOffset_slotP {j : Nat} (hj : j < 32) : Loc.ofOffset (0xC00 + 4 * j) = .modWord .p j := by
  rw [Loc.ofOffset, if_neg (by omega), if_neg (by omega), if_pos (by omega), show (0xC00 + 4 * j - 0xC00) / 4 = j by omega]

theorem ofOffset_slotN {j : Nat} (hj : j < 32) : Loc.ofOffset (0xC80 + 4 * j) = .modWord .n j := by
  rw [Loc.ofOffset, if_neg (by omega), if_neg (by omega), if_neg (by omega), if_pos (by omega),
    show (0xC80 + 4 * j - 0xC80) / 4 = j by omega]

theorem ofOffset_coeff {j : Nat} (hj : j < 32) : Loc.ofOffset (0xD00 + 4 * j) = .aWord j := by
  rw [Loc.ofOffset, if_neg (by omega), if_neg (by omega), if_neg (by omega), if_neg (by omega), if_pos (by omega),
    show (0xD00 + 4 * j - 0xD00) / 4 = j by omega]

theorem ofOffset_reserved {off : Nat} (h : (0x020 ≤ off ∧ off < 0x400) ∨ 0xD80 ≤ off) :
    Loc.ofOffset off = .reserved := by
  grind [Loc.ofOffset]

theorem off_of_loc_status {off : Nat} (halign : off % 4 = 0) (h : Loc.ofOffset off = .status) : off = 0x010 := by
  grind [Loc.ofOffset]

theorem off_of_loc_regWord {off : Nat} {i : Reg} {j : Nat} (h : Loc.ofOffset off = .regWord i j) :
    0x400 ≤ off ∧ off < 0xC00 := by
  grind [Loc.ofOffset]

/-! ### The words of a value (R73, R74) -/

theorem getLsbD_wordOf {width j k : Nat} (v : Nat) (hj : j < wordsPerReg width) (hk : k < 32) :
    (wordOf width v j).getLsbD k = v.testBit (32 * j + k) := by
  rw [wordOf, if_pos hj, BitVec.getLsbD_ofNat, decide_eq_true hk, Bool.true_and, Nat.testBit_div_two_pow, Nat.add_comm]

theorem wordOf_above {width j : Nat} (v : Nat) (hj : wordsPerReg width ≤ j) : wordOf width v j = 0#32 :=
  if_neg (Nat.not_lt.mpr hj)

/-- The bits of a value with word `j` replaced: its three summands stand side by side. -/
theorem testBit_putWord (v j : Nat) (w : Word) (k : Nat) :
    (putWord v j w).testBit k =
      if 32 * j ≤ k ∧ k < 32 * j + 32 then w.getLsbD (k - 32 * j) else v.testBit k := by
  have hsplit : putWord v j w = 2 ^ (32 * j) * (2 ^ 32 * (v / 2 ^ (32 * (j + 1))) + w.toNat) + v % 2 ^ (32 * j) := by
    rw [putWord, show 32 * (j + 1) = 32 * j + 32 by omega, pow_add]
    ring
  rw [hsplit, Nat.testBit_two_pow_mul_add _ (Nat.mod_lt _ (Nat.two_pow_pos _)), Nat.testBit_two_pow_mul_add _ w.isLt,
    BitVec.testBit_toNat, Nat.testBit_mod_two_pow, Nat.testBit_div_two_pow]
  by_cases hlow : k < 32 * j
  · rw [if_pos hlow, if_neg (by omega), decide_eq_true hlow, Bool.true_and]
  rw [if_neg hlow]
  by_cases hmid : k < 32 * j + 32
  · rw [if_pos (by omega), if_pos (by omega)]
  · rw [if_neg (by omega), if_neg (by omega), show k - 32 * j - 32 + 32 * (j + 1) = k by omega]

/-- The second write of a word finds it there already. -/
theorem putWord_putWord (v j : Nat) (w : Word) : putWord (putWord v j w) j w = putWord v j w := by
  refine Nat.eq_of_testBit_eq fun k => ?_
  rw [testBit_putWord (putWord v j w), testBit_putWord v]
  split <;> rfl

/-! ### Reads and writes -/

/-- A read sees neither the events to come nor the last answer. -/
theorem readLoc_setUnread (s : State) (l : Loc) (rest : List Event) (r : BusReply) :
    ({ s with pending := rest, reply := r } : State).readLoc l = s.readLoc l := by
  cases l with
  | modWord ms j => cases ms <;> rfl
  | _ => rfl

theorem busRead_regWord (s : State) (i : Reg) {j : Nat} (hj : j < 32) :
    s.busRead (0x400 + 0x80 * i.val + 4 * j) = wordOf s.width (s.x i) j := by
  rw [State.busRead, ofOffset_regWord i hj, State.readLoc]

theorem busRead_slotP (s : State) {j : Nat} (hj : j < 32) :
    s.busRead (0xC00 + 4 * j) = wordOf s.width s.slotP.mod j := by
  rw [State.busRead, ofOffset_slotP hj, State.readLoc, State.slot]

theorem busRead_slotN (s : State) {j : Nat} (hj : j < 32) :
    s.busRead (0xC80 + 4 * j) = wordOf s.width s.slotN.mod j := by
  rw [State.busRead, ofOffset_slotN hj, State.readLoc, State.slot]

theorem busRead_coeff (s : State) {j : Nat} (hj : j < 32) : s.busRead (0xD00 + 4 * j) = wordOf s.width s.a j := by
  rw [State.busRead, ofOffset_coeff hj, State.readLoc]

theorem busRead_reserved (s : State) {off : Nat} (h : (0x020 ≤ off ∧ off < 0x400) ∨ 0xD80 ≤ off) :
    s.busRead off = 0#32 := by
  rw [State.busRead, ofOffset_reserved h, State.readLoc]

theorem busWrite_register (s : State) {off : Nat} (v : Word) (hlo : 0x400 ≤ off) (hhi : off < 0xC00) :
    s.busWrite off v = writeReg (Fin.ofNat 16 ((off - 0x400) / 0x80)) (off % 0x80 / 4) v s := by
  rw [State.busWrite, ofOffset_register hlo hhi, State.writeLoc]

theorem busWrite_regWord (s : State) (i : Reg) {j : Nat} (v : Word) (hj : j < 32) :
    s.busWrite (0x400 + 0x80 * i.val + 4 * j) v = writeReg i j v s := by
  rw [State.busWrite, ofOffset_regWord i hj, State.writeLoc]

/-- Only CTRL, STATUS, CMD and the operand registers take a write (R80). -/
theorem busWrite_readOnly (s : State) {off : Nat} (v : Word) (halign : off % 4 = 0) (hctrl : off ≠ 0x00C)
    (hstatus : off ≠ 0x010) (hcmd : off ≠ 0x018) (hreg : ¬ (0x400 ≤ off ∧ off < 0xC00)) : s.busWrite off v = s := by
  rw [State.busWrite]
  cases hl : Loc.ofOffset off with
  | ctrl => exact absurd (off_of_loc_ctrl halign hl) hctrl
  | status => exact absurd (off_of_loc_status halign hl) hstatus
  | cmd => exact absurd (off_of_loc_cmd halign hl) hcmd
  | regWord i j => exact absurd (off_of_loc_regWord hl) hreg
  | _ => rfl

/-! ### Repeated writes (R78) -/

theorem setX_setX (s : State) (i : Reg) (u v : Nat) : (s.setX i u).setX i v = s.setX i v := by
  simp [State.setX]

theorem writeStatus_writeStatus (v : Word) (s : State) : writeStatus v (writeStatus v s) = writeStatus v s := by
  simp [writeStatus]

theorem writeReg_writeReg (i : Reg) (j : Nat) (v : Word) (s : State) :
    writeReg i j v (writeReg i j v s) = writeReg i j v s := by
  by_cases hj : j < wordsPerReg s.width
  · cases hb : s.busy with
    | true => rw [writeReg_busy i v hj hb, writeReg_busy (s := { s with ovr := true }) i v hj hb]
    | false =>
      rw [writeReg_idle i v hj hb, writeReg_idle (s := s.setX i (putWord (s.x i) j v)) i v hj hb, x_setX_self,
        putWord_putWord, setX_setX]
  · rw [writeReg_above i v (Nat.le_of_not_lt hj), writeReg_above i v (Nat.le_of_not_lt hj)]

theorem writeLoc_writeLoc (s : State) (v : Word) {l : Loc} (hcmd : l ≠ .cmd)
    (hreset : l = .ctrl → v.getLsbD 1 = false) : (s.writeLoc v l).writeLoc v l = s.writeLoc v l := by
  cases l with
  | cmd => exact absurd rfl hcmd
  | ctrl =>
    change writeCtrl v (writeCtrl v s) = writeCtrl v s
    rw [writeCtrl_ie s (hreset rfl), writeCtrl_ie _ (hreset rfl)]
  | status => exact writeStatus_writeStatus v s
  | regWord i j => exact writeReg_writeReg i j v s
  | _ => rfl

/-! ### Reserved bits in a write (R80) -/

theorem writeCtrl_and_mask (v : Word) (s : State) : writeCtrl (v &&& 0x3#32) s = writeCtrl v s := by
  simp [writeCtrl]

theorem writeStatus_and_mask (v : Word) (s : State) : writeStatus (v &&& 0xA#32) s = writeStatus v s := by
  simp [writeStatus]

/-! ### Accesses as steps -/

/-- A 32-bit read of an aligned offset of the window (R76, R78). -/
theorem step_readEvent {s : State} {off : Nat} {rest : List Event} (hoff : off < 0x1000) (halign : off % 4 = 0)
    (hp : s.pending = readEvent off :: rest) :
    step s = .next { s with pending := rest, reply := .data (s.busRead off) } := by
  have hlegal : Access.legal { off := off, size := .word, kind := .read } = true := by simp [Access.legal, halign]
  rw [step_cons hp]
  simp only [readEvent, perform, hostAccess, Config.windowSize, if_neg (Nat.not_le.mpr hoff), hlegal, if_true]
  rfl

theorem step_write_readOnly {s : State} {off : Nat} {v : Word} {rest : List Event} (hoff : off < 0x1000)
    (halign : off % 4 = 0) (hctrl : off ≠ 0x00C) (hstatus : off ≠ 0x010) (hcmd : off ≠ 0x018)
    (hreg : ¬ (0x400 ≤ off ∧ off < 0xC00)) (hp : s.pending = writeEvent off v :: rest) :
    step s = .next { s with pending := rest, reply := .ack } := by
  rw [step_writeEvent hoff halign hp, busWrite_readOnly _ v halign hctrl hstatus hcmd hreg]

theorem legal_eq_false {a : Access} (h : a.size ≠ .word ∨ a.off % 4 ≠ 0) : a.legal = false := by
  simpa only [Access.legal, Bool.and_eq_false_iff, decide_eq_false_iff_not] using h

/-! ### The statements of the window -/

/-- Settles O15: such an access is not legal, so the bus port answers it and nothing else. -/
theorem busFaultChangesNothing : Obligations.BusFaultChangesNothing := by
  intro s a rest hoff hillegal hp
  rw [step_cons hp, perform, hostAccess, Config.windowSize, if_neg (Nat.not_le.mpr hoff), legal_eq_false hillegal]
  rfl

/-- Settles O14: each kind of write on a busy engine, and the read. -/
theorem accessesWhileBusy : Obligations.AccessesWhileBusy := by
  intro s off v rest hb hoff halign
  refine ⟨fun hp => ⟨?_, ?_, ?_, ?_, ?_⟩, step_readEvent hoff halign⟩
  · rintro (rfl | ⟨hlo, hhi, hj⟩)
    · rw [step_write_cmd hp, writeCmd_busy (s := { s with pending := rest }) v hb]
    · rw [step_writeEvent hoff halign hp, busWrite_register _ v hlo hhi,
        writeReg_busy (s := { s with pending := rest }) _ v hj hb]
  · rintro rfl hv
    rw [step_write_ctrl hp, writeCtrl_ie _ hv]
  · rintro rfl hv
    rw [step_write_ctrl hp, writeCtrl_softReset _ hv]
    exact ⟨_, rfl, rfl, rfl⟩
  · rintro rfl hdone
    rw [step_write_status hp]
    simp [writeStatus, hdone]
  · exact fun hcmd hctrl hstatus hreg => step_write_readOnly hoff halign hctrl hstatus hcmd hreg hp

/-- Settles O16: the answer is no part of what a read sees, and the writes repeat location by location. -/
theorem accessesAreIdempotent : Obligations.AccessesAreIdempotent := by
  refine ⟨fun s off rest hoff halign hp => ⟨step_readEvent hoff halign hp, readLoc_setUnread s _ rest _⟩,
    fun s off v _ halign hcmd hreset => ?_⟩
  refine writeLoc_writeLoc s v (fun hl => hcmd (off_of_loc_cmd halign hl)) fun hl => ?_
  exact Bool.eq_false_iff.mpr fun hv => hreset ⟨off_of_loc_ctrl halign hl, hv⟩

/-- Settles O17: the offsets by the map, the bits by each register's layout. -/
theorem reservedAndReadOnly : Obligations.ReservedAndReadOnly := by
  refine ⟨fun s off _ hoff => busRead_reserved s (by omega), fun s off v rest halign hoff hp => ?_, fun s => ?_,
    fun s v => ⟨(writeCtrl_and_mask v s).symm, (writeStatus_and_mask v s).symm⟩⟩
  · exact step_write_readOnly (by omega) halign (by omega) (by omega) (by omega) (by omega) hp
  · obtain ⟨-, hctrl⟩ := ctrlWord_layout s
    obtain ⟨-, -, -, -, hstatus4, -, hstatus12, -, -, -, -, hstatus20⟩ := statusWord_layout s
    obtain ⟨-, -, -, -, hflags⟩ := flagsWord_layout s
    obtain ⟨-, -, -, hparam⟩ := paramWord_layout s
    exact ⟨hctrl, hstatus4, hstatus12, hstatus20, hflags, hparam⟩

/-- Settles O18: a word below NW is read and replaced bit by bit, one above is RAZ/WI. -/
theorem operandRegisterWords : Obligations.OperandRegisterWords := by
  intro s i j hj
  rw [busRead_regWord s i hj]
  refine ⟨fun hlow k hk => getLsbD_wordOf _ hlow hk, wordOf_above _, fun v rest hb hp => ?_⟩
  rw [step_writeEvent (by omega) (by omega) hp, busWrite_regWord _ i v hj]
  refine ⟨fun hlow => ?_, fun habove => ?_⟩
  · rw [writeReg_idle (s := { s with pending := rest }) i v hlow hb]
    refine ⟨_, rfl, rfl, fun r hr => x_setX_ne { s with pending := rest } _ hr, fun k => ?_⟩
    rw [← testBit_putWord, x_reply, x_setX_self, x_pending]
  · rw [writeReg_above (s := { s with pending := rest }) i v habove]

/-- Settles O19: the three windows show words of three values, and are read-only. -/
theorem readOnlyValueWindows : Obligations.ReadOnlyValueWindows := by
  intro s j hj
  rw [busRead_slotP s hj, busRead_slotN s hj, busRead_coeff s hj]
  refine ⟨fun hlow k hk => ⟨getLsbD_wordOf _ hlow hk, getLsbD_wordOf _ hlow hk, getLsbD_wordOf _ hlow hk⟩,
    fun habove => ⟨wordOf_above _ habove, wordOf_above _ habove, wordOf_above _ habove⟩,
    fun base v rest hbase hp => ?_⟩
  exact step_write_readOnly (by omega) (by omega) (by omega) (by omega) (by omega) (by omega) hp

end Sys2Proof.Machine
end

section
/-! Command words and their fields (30_encoding.md R100 to R106): packing loses no field, and the decoder applies to
each word the row of R104's table that its opcode names. -/

namespace Sys2Proof.Machine

/-! ### The decoder's fields in the words of the statements -/

theorem extractLsb'_toNat_eq_wordField (c : Word) (lo len : Nat) : (c.extractLsb' lo len).toNat = wordField c lo len := by
  rw [BitVec.extractLsb'_toNat, Nat.shiftRight_eq_div_pow, wordField]

theorem fieldOpc_toNat (c : Word) : (fieldOpc c).toNat = wordField c 24 8 := extractLsb'_toNat_eq_wordField c 24 8
theorem fieldRd_val (c : Word) : (fieldRd c).val = wordField c 12 4 := extractLsb'_toNat_eq_wordField c 12 4
theorem fieldRa_val (c : Word) : (fieldRa c).val = wordField c 8 4 := extractLsb'_toNat_eq_wordField c 8 4
theorem fieldRb_val (c : Word) : (fieldRb c).val = wordField c 4 4 := extractLsb'_toNat_eq_wordField c 4 4

theorem fieldRsv1_eq_zero_iff (c : Word) : fieldRsv1 c = 0#6 ↔ wordField c 16 6 = 0 := by
  rw [← extractLsb'_toNat_eq_wordField, ← BitVec.toNat_inj]; rfl

theorem fieldRsv0_eq_zero_iff (c : Word) : fieldRsv0 c = 0#4 ↔ wordField c 0 4 = 0 := by
  rw [← extractLsb'_toNat_eq_wordField, ← BitVec.toNat_inj]; rfl

/-- A field of one bit. -/
theorem wordField_bit (c : Word) (k : Nat) : wordField c k 1 = (c.getLsbD k).toNat := by
  refine Nat.eq_of_testBit_eq fun j => ?_
  rw [testBit_wordField, Nat.testBit_bool_toNat]
  cases j <;> simp

theorem fieldMs_toNat (c : Word) : (fieldMs c).toNat = wordField c 23 1 := (wordField_bit c 23).symm
theorem fieldS_toNat (c : Word) : (fieldS c).toNat = wordField c 22 1 := (wordField_bit c 22).symm

theorem classAdmits_val (k : FieldClass) (r : Reg) : classAdmits k r.val = k.admits r := by cases k <;> rfl

/-- The statements' legality of a word, over the fields that the decoder reads (R101, R105). -/
theorem fieldsLegal_iff (r : OpRow) (c : Word) : fieldsLegal r c = true ↔
    (fieldRsv1 c = 0#6 ∧ fieldRsv0 c = 0#4) ∧
    (r.rd.admits (fieldRd c) = true ∧ r.ra.admits (fieldRa c) = true ∧ r.rb.admits (fieldRb c) = true) ∧
    (fieldMs c = true → r.ms = true) ∧ (fieldS c = true → r.s = true) := by
  simp only [fieldsLegal, ← fieldRd_val, ← fieldRa_val, ← fieldRb_val, classAdmits_val, ← fieldMs_toNat,
    ← fieldS_toNat, Bool.and_eq_true, beq_iff_eq, ← fieldRsv1_eq_zero_iff, ← fieldRsv0_eq_zero_iff, Bool.or_eq_true]
  cases fieldMs c <;> cases fieldS c <;> simp [and_assoc]

/-- A row's checks have two answers (R105). -/
theorem checked_eq (c : Word) (r : OpRow) (i : Instr) : checked c r.rd r.ra r.rb r.ms r.s i =
    if fieldsLegal r c = true then .ok i else .error .illegalOperand := by
  simp only [fieldsLegal_iff, checked]
  split_ifs <;> simp_all

/-! ### The fields of a packed word -/

section
variable (opc : BitVec 8) (ms s : Bool) (rd ra rb : Reg)

@[simp] theorem fieldOpc_pack : fieldOpc (pack opc ms s rd ra rb) = opc := by
  rw [← BitVec.toNat_inj, fieldOpc_toNat]
  simp [pack, wordField_or, wordField_place, wordField_place_disjoint]

@[simp] theorem fieldMs_pack : fieldMs (pack opc ms s rd ra rb) = ms := by simp [fieldMs, pack, getElem_place]

@[simp] theorem fieldS_pack : fieldS (pack opc ms s rd ra rb) = s := by simp [fieldS, pack, getElem_place]

@[simp] theorem fieldRd_pack : fieldRd (pack opc ms s rd ra rb) = rd := by
  rw [← Fin.val_inj, fieldRd_val]
  simp [pack, wordField_or, wordField_place, wordField_place_disjoint]

@[simp] theorem fieldRa_pack : fieldRa (pack opc ms s rd ra rb) = ra := by
  rw [← Fin.val_inj, fieldRa_val]
  simp [pack, wordField_or, wordField_place, wordField_place_disjoint]

@[simp] theorem fieldRb_pack : fieldRb (pack opc ms s rd ra rb) = rb := by
  rw [← Fin.val_inj, fieldRb_val]
  simp [pack, wordField_or, wordField_place, wordField_place_disjoint]

@[simp] theorem fieldRsv1_pack : fieldRsv1 (pack opc ms s rd ra rb) = 0#6 := by
  rw [fieldRsv1_eq_zero_iff]
  simp [pack, wordField_or, wordField_place_disjoint]

@[simp] theorem fieldRsv0_pack : fieldRsv0 (pack opc ms s rd ra rb) = 0#4 := by
  rw [fieldRsv0_eq_zero_iff]
  simp [pack, wordField_or, wordField_place_disjoint]

end

@[simp] theorem slotOfBit_bit (ms : Slot) : slotOfBit ms.bit = ms := by cases ms <;> rfl
@[simp] theorem bit_slotOfBit (b : Bool) : (slotOfBit b).bit = b := by cases b <;> rfl

/-- A packed word passes a row's checks where its operands do. -/
theorem checked_pack {opc : BitVec 8} {ms s : Bool} {rd ra rb : Reg} {krd kra krb : FieldClass}
    {msAllowed sAllowed : Bool} (i : Instr) (hrd : krd.admits rd = true) (hra : kra.admits ra = true)
    (hrb : krb.admits rb = true) (hms : ms = true → msAllowed = true) (hs : s = true → sAllowed = true) :
    checked (pack opc ms s rd ra rb) krd kra krb msAllowed sAllowed i = .ok i := by
  refine (checked_eq _ ⟨0, krd, kra, krb, msAllowed, sAllowed⟩ i).trans (if_pos ((fieldsLegal_iff ..).mpr ?_))
  simp only [fieldMs_pack, fieldS_pack, fieldRd_pack, fieldRa_pack, fieldRb_pack, fieldRsv1_pack, fieldRsv0_pack]
  exact ⟨⟨trivial, trivial⟩, ⟨hrd, hra, hrb⟩, hms, hs⟩

/-- Each command's opcode selects its own row, whose classes are the command's checks (R101, R104). -/
theorem decode_encode {i : Instr} (h : i.wf = true) : decode (encode i) = .ok i := by
  cases i
  all_goals
    simp only [encode, decode, fieldOpc_pack, fieldMs_pack, fieldS_pack, fieldRd_pack, fieldRa_pack, fieldRb_pack,
      slotOfBit_bit]
    apply checked_pack <;> simp_all [Instr.wf, FieldClass.admits]

/-! ### A word put together again from its fields -/

theorem getLsbD_place_extractLsb' (c : Word) {lo len k : Nat} (h : lo + len ≤ 32) :
    (place lo (c.extractLsb' lo len)).getLsbD k = (decide (lo ≤ k ∧ k < lo + len) && c.getLsbD k) := by
  rw [getLsbD_place, BitVec.getLsbD_extractLsb']
  by_cases hlo : lo ≤ k
  · rw [Nat.add_sub_cancel' hlo]
    by_cases hk : k < lo + len
    · simp [hlo, hk, show k < 32 by omega, show k - lo < len by omega]
    · simp [hk, show ¬ k - lo < len by omega]
  · simp [hlo]

theorem ofBool_getLsbD (c : Word) (k : Nat) : BitVec.ofBool (c.getLsbD k) = c.extractLsb' k 1 := by
  rw [← BitVec.toNat_inj, extractLsb'_toNat_eq_wordField, wordField_bit, BitVec.toNat_ofBool]

theorem ofNat_toFin_val (b : BitVec 4) : BitVec.ofNat 4 b.toFin.val = b :=
  BitVec.eq_of_toNat_eq (Nat.mod_eq_of_lt b.isLt)

/-- The eight fields of format C cover a word (R100). -/
theorem pack_fields {c : Word} (h1 : fieldRsv1 c = 0#6) (h0 : fieldRsv0 c = 0#4) :
    pack (fieldOpc c) (fieldMs c) (fieldS c) (fieldRd c) (fieldRa c) (fieldRb c) = c := by
  have hall : pack (fieldOpc c) (fieldMs c) (fieldS c) (fieldRd c) (fieldRa c) (fieldRb c)
      ||| place 16 (fieldRsv1 c) ||| place 0 (fieldRsv0 c) = c := by
    refine BitVec.eq_of_getLsbD_eq fun k hk => ?_
    simp only [pack, fieldOpc, fieldMs, fieldS, fieldRd, fieldRa, fieldRb, fieldRsv1, fieldRsv0, ofBool_getLsbD,
      ofNat_toFin_val, BitVec.getLsbD_or]
    simp only [getLsbD_place_extractLsb', Nat.reduceAdd, Nat.reduceLeDiff, ← Bool.and_or_distrib_right]
    rw [Bool.and_eq_right_iff_imp]
    intro _
    simp only [Bool.or_eq_true, decide_eq_true_iff]
    omega
  rw [h1, h0] at hall
  simpa using hall

/-- An admitted unused field is 0 (R101). -/
theorem ite_unused_eq {k : FieldClass} {f : Reg} (h : k.admits f = true) : (if k = .unused then 0 else f) = f := by
  split
  next hk => subst hk; exact Fin.ext (of_decide_eq_true h).symm
  next => rfl

/-- A legal word is packed from the fields its row uses. -/
theorem pack_of_fieldsLegal {r : OpRow} {c : Word} {n : Nat} (hopc : (fieldOpc c).toNat = n)
    (h : fieldsLegal r c = true) :
    pack (BitVec.ofNat 8 n) (r.ms && fieldMs c) (r.s && fieldS c) (if r.rd = .unused then 0 else fieldRd c)
      (if r.ra = .unused then 0 else fieldRa c) (if r.rb = .unused then 0 else fieldRb c) = c := by
  obtain ⟨⟨h1, h0⟩, ⟨hrd, hra, hrb⟩, hms, hs⟩ := (fieldsLegal_iff r c).mp h
  rw [ite_unused_eq hrd, ite_unused_eq hra, ite_unused_eq hrb, Bool.and_eq_right_iff_imp.mpr hms,
    Bool.and_eq_right_iff_imp.mpr hs, ← hopc, BitVec.ofNat_toNat, BitVec.setWidth_eq, pack_fields h1 h0]

/-! ### The decoder against R104's table -/

theorem opcodeRow_eq_none_iff {n : Nat} : opcodeRow n = none ↔ n ∉ opcodeRows.map OpRow.opc := by
  simp [opcodeRow]

/-- Everything the decoder does: no row for the opcode, or the checks of its row for a command whose encoding is the
word if they pass (R104, R105, R106). -/
theorem decode_cases (c : Word) :
    (opcodeRow (wordField c 24 8) = none ∧ decode c = .error .illegalOpcode) ∨
    ∃ r i, opcodeRow (wordField c 24 8) = some r ∧ decode c = checked c r.rd r.ra r.rb r.ms r.s i ∧
      (fieldsLegal r c = true → encode i = c) := by
  rw [← fieldOpc_toNat]
  simp only [decode]
  split
  case h_22 =>
    refine .inl ⟨opcodeRow_eq_none_iff.mpr ?_, rfl⟩
    simp_all [opcodeRows]
  all_goals
    next hopc =>
    rw [hopc]
    exact .inr ⟨_, _, rfl, rfl, fun hlegal => by simpa [encode] using pack_of_fieldsLegal hopc hlegal⟩

/-- Settles O1: packing keeps every field, and the command's row admits them. -/
theorem decodeInvertsEncode : Obligations.DecodeInvertsEncode := fun _ h => decode_encode h

/-- Settles O2: a word that passes its row's checks has no bit outside the fields that the row uses. -/
theorem encodeInvertsDecode : Obligations.EncodeInvertsDecode := by
  refine fun c i h => ⟨?_, wf_of_decode h⟩
  obtain ⟨-, hd⟩ | ⟨r, j, -, hd, hencode⟩ := decode_cases c
  · rw [h] at hd; cases hd
  · rw [h, checked_eq] at hd
    split at hd
    next hlegal => cases hd; exact hencode hlegal
    next => cases hd

/-- Settles O3: the decoder's rows are the table's, and each row's checks are the table's classes. -/
theorem decodeFollowsOpcodeTable : Obligations.DecodeFollowsOpcodeTable := by
  refine ⟨fun c => ?_, rfl, rfl⟩
  obtain ⟨hrow, hd⟩ | ⟨r, i, hrow, hd, -⟩ := decode_cases c
  · rw [hrow]; exact hd
  · rw [hrow]
    dsimp only
    rw [hd, checked_eq]
    split
    · exact ⟨i, rfl⟩
    · rfl

/-- Settles O4: fixed words, by evaluation. -/
theorem workedEncodings : Obligations.WorkedEncodings := by
  unfold Obligations.WorkedEncodings
  decide

end Sys2Proof.Machine
end

section
/-! Slot N does not enter a point command (30_encoding.md R102; 43_point.md R180; 44_scalar.md R211): replacing the slot
before the command and after it are the same. -/

namespace Sys2Proof.Machine

theorem withCurve_invalid {s : State} (k : Nat → Nat → State) (h : s.slotP.v = false) :
    withCurve true s k = .next (failCmd .modInvalid s) := by
  simp [withCurve, withSlot, State.slot, h]

theorem withCurve_setSlotN {b : Bool} {s t : State} {k k' : Nat → Nat → State} {m : ModSlot}
    (h : withCurve b s k = .next t) (hk : ∀ p a, k' p a = (k p a).setSlot .n m) :
    withCurve b (s.setSlot .n m) k' = .next (t.setSlot .n m) := by
  obtain ⟨rfl, hv, rfl⟩ | ⟨rfl, hv, rfl⟩ | ⟨rfl, rfl⟩ := withCurve_cases h
  · rw [← hk]
    exact withCurve_valid k' hv
  · exact withCurve_invalid k' hv
  · rfl

theorem exec_setSlotN {i : Instr} {s t : State} (hi : isPointCommand i = true) (h : exec i s = .next t)
    (m : ModSlot) : exec i (s.setSlot .n m) = .next (t.setSlot .n m) := by
  cases i with
  | padda => simp only [exec, execPadda] at h ⊢; exact withCurve_setSlotN h fun _ _ => rfl
  | pdbla => simp only [exec, execPdbla] at h ⊢; exact withCurve_setSlotN h fun _ _ => rfl
  | pmula => simp only [exec, execPmula] at h ⊢; exact withCurve_setSlotN h fun _ _ => rfl
  | paddj => simp only [exec, execPaddj] at h ⊢; exact withCurve_setSlotN h fun _ _ => rfl
  | pdblj => simp only [exec, execPdblj] at h ⊢; exact withCurve_setSlotN h fun _ _ => rfl
  | pmulj => simp only [exec, execPmulj] at h ⊢; exact withCurve_setSlotN h fun _ _ => rfl
  | a2j => simp only [exec, execA2j] at h ⊢; exact withCurve_setSlotN h fun _ _ => rfl
  | j2a => simp only [exec, execJ2a] at h ⊢; exact withCurve_setSlotN h fun _ _ => rfl
  | _ => cases hi

theorem eq_setSlotN_of_forgetSlotN {s s' : State} (h : s.forgetSlotN = s'.forgetSlotN) :
    s' = s.setSlot .n s'.slotN :=
  congrArg (·.setSlot .n s'.slotN) h.symm

/-- Settles O60: the second state is the first with another slot N, and so is its outcome; the first is itself with its
own slot N. -/
theorem pointCommandsIgnoreSlotN : Obligations.PointCommandsIgnoreSlotN := by
  intro s s' hs i t hi ht
  have hsame : exec i s = .next (t.setSlot .n s.slotN) := exec_setSlotN hi ht s.slotN
  have heq : t = t.setSlot .n s.slotN := Host.Outcome.next.inj (ht.symm.trans hsame)
  have hkept : t.slotN = s.slotN := by rw [heq]; rfl
  refine ⟨t.setSlot .n s'.slotN, ?_, rfl, hkept, rfl⟩
  rw [eq_setSlotN_of_forgetSlotN hs]
  exact exec_setSlotN hi ht _

end Sys2Proof.Machine
end

section
/-! What the statements of single commands share: the word of a command from its fields (30_encoding.md R100, R104), and
a completion without error, framed (60_exceptions.md R226). -/

namespace Sys2Proof.Machine

/-! ### The word of a command -/

/-- A word whose reserved fields are 0 is the sum of its other fields, each at its place (R100). -/
theorem eq_formatC_wordField {c : Word} (h1 : wordField c 16 6 = 0) (h0 : wordField c 0 4 = 0) :
    c = formatC (wordField c 24 8) (wordField c 23 1) (wordField c 22 1) (wordField c 12 4) (wordField c 8 4)
      (wordField c 4 4) := by
  refine BitVec.eq_of_toNat_eq ?_
  rw [formatC, BitVec.toNat_ofNat]
  unfold wordField at *
  omega

theorem pack_eq_formatC (opc : BitVec 8) (ms s : Bool) (rd ra rb : Reg) :
    pack opc ms s rd ra rb = formatC opc.toNat ms.toNat s.toNat rd ra rb := by
  have h := eq_formatC_wordField ((fieldRsv1_eq_zero_iff _).mp (fieldRsv1_pack opc ms s rd ra rb))
    ((fieldRsv0_eq_zero_iff _).mp (fieldRsv0_pack opc ms s rd ra rb))
  rwa [← fieldOpc_toNat, ← fieldMs_toNat, ← fieldS_toNat, ← fieldRd_val, ← fieldRa_val, ← fieldRb_val, fieldOpc_pack,
    fieldMs_pack, fieldS_pack, fieldRd_pack, fieldRa_pack, fieldRb_pack] at h

/-- The same for a command that names a slot (R102). -/
theorem pack_slot_eq_formatC (opc : BitVec 8) (ms : Slot) (s : Bool) (rd ra rb : Reg) :
    pack opc ms.bit s rd ra rb = formatC opc.toNat (slotNum ms) s.toNat rd ra rb := by
  rw [pack_eq_formatC]
  cases ms <;> rfl

theorem decode_of_encode_eq {i : Instr} {c : Word} (hwf : i.wf = true) (h : encode i = c) : decode c = .ok i :=
  h ▸ decode_encode hwf

/-! ### A completion without error -/

theorem Completes.busy {s t : State} (h : Completes s t) : t.busy = false := by
  cases h <;> rfl

theorem Completes.errcode_of_err {s t : State} (h : Completes s t) (he : t.err = false) : t.errcode = 0#4 := by
  cases h with
  | failed e => cases he
  | nop => rfl
  | committed f hw => rfl

/-- A command that ends without ERR ran, and wrote its own destinations at most. -/
theorem ran_of_exec {i : Instr} {s t : State} (h : exec i s = .next t) (he : t.err = false) :
    Ran s t (commandDests i) := by
  have hc : Completes s t := exec_cases h
  exact ⟨hc.busy, hc.done, he, hc.errcode_of_err he, (commandFrame i s t h).1, hc.commandKeeps⟩

/-- Only MODSET writes a slot and only SETA writes `A` (R35, R37). -/
theorem slotsKept_of_exec {i : Instr} {s t : State} (h : exec i s = .next t) (hm : ∀ ms ra, i ≠ .modset ms ra)
    (ha : ∀ ra, i ≠ .seta ra) : SlotsKept s t := by
  obtain ⟨-, hslot, hcoeff, -⟩ := commandFrame i s t h
  exact ⟨hslot .p (hm .p), hslot .n (hm .n), hcoeff ha⟩

end Sys2Proof.Machine
end

section
/-! The control commands (40_control.md R131 to R135): their words, and what each of them completes with. -/

namespace Sys2Proof.Machine

/-! ### MODSET's constants (R36) -/

/-- `RB` is the least multiple of 32 that is at least the bit length. -/
theorem montExponent_bounds (m : Nat) :
    32 ∣ montExponent m ∧ bitlen m ≤ montExponent m ∧ montExponent m < bitlen m + 32 := by
  unfold montExponent
  omega

/-! ### The commands -/

/-- Settles O28: NOP's completion is `finish`, and a word that decodes to NOP is NOP's encoding. -/
theorem nopCompletes : Obligations.NopCompletes := by
  have hword : encode .nop = 0x00000000#32 := by decide
  refine ⟨decode_of_encode_eq rfl hword, fun c h => ?_, fun s => ?_⟩
  · obtain ⟨hc, -⟩ := encodeInvertsDecode c .nop h
    rw [← hc, hword]
  · have hrun : exec .nop s = .next (finish s) := rfl
    exact ⟨_, hrun, ran_of_exec hrun rfl, slotsKept_of_exec hrun nofun nofun, rfl, Bool.and_true _⟩

/-- Settles O29: MOV writes `ra`'s raw value. -/
theorem movCopies : Obligations.MovCopies := by
  intro rd ra s
  have hrun : exec (.mov rd ra) s = .next (writeValue rd (s.x ra) s) := rfl
  exact ⟨decode_of_encode_eq rfl (pack_eq_formatC 0x01 false false rd ra 0),
    _, hrun, ran_of_exec hrun rfl, slotsKept_of_exec hrun nofun nofun, x_writeValue_self .., rfl⟩

/-- Settles O30: CMP writes FLAGS alone. -/
theorem cmpCompares : Obligations.CmpCompares := by
  intro ra rb s
  have hrun : exec (.cmp ra rb) s = .next (commit (compareFlags (s.x ra) (s.x rb)) s) := rfl
  exact ⟨decode_of_encode_eq rfl (pack_eq_formatC 0x02 false false 0 ra rb),
    _, hrun, ran_of_exec hrun rfl, slotsKept_of_exec hrun nofun nofun, rfl⟩

/-- Settles O31: a zero operand fails before any write; any other is loaded with its own constants. -/
theorem modsetLoadsSlot : Obligations.ModsetLoadsSlot := by
  intro ms ra s
  refine ⟨decode_of_encode_eq rfl (pack_slot_eq_formatC 0x08 ms false 0 ra 0), exec_modset_zero, fun hx => ?_⟩
  have hrun := exec_modset_ne_zero (ms := ms) hx
  obtain ⟨-, hslot, hcoeff, -⟩ := commandFrame _ _ _ hrun
  refine ⟨_, hrun, ran_of_exec hrun rfl, hcoeff nofun, fun o ho => hslot o fun r hr => ?_, ?_⟩
  · cases hr
    exact ho rfl
  · rw [slot_commit, slot_setSlot_self]
    obtain ⟨hdvd, hle, hlt⟩ := montExponent_bounds (s.x ra)
    exact ⟨rfl, rfl, two_pow_bitlen_le hx, lt_two_pow_bitlen _, rfl, hdvd, hle, hlt, Nat.testBit_zero _, rfl⟩

/-- Settles O32: SETA writes `A`, and reads no slot. -/
theorem setaLoadsCoefficient : Obligations.SetaLoadsCoefficient := by
  intro ra s
  have hrun : exec (.seta ra) s = .next (commit (valueFlags (s.x ra)) { s with a := s.x ra }) := rfl
  exact ⟨decode_of_encode_eq rfl (pack_eq_formatC 0x09 false false 0 ra 0),
    _, hrun, ran_of_exec hrun rfl, rfl, rfl, rfl, rfl⟩

end Sys2Proof.Machine
end

section
/-! The modular commands (41_modular.md R150 to R155): their words, and the residue or inverse each of them completes
with. -/

namespace Sys2Proof.Machine

/-- The defining property of the floored residue, in the statements' words (R12). -/
theorem isResidue_residue (a : Int) {m : Nat} (h : 0 < m) : IsResidue (residue a m) a m :=
  ⟨residue_lt a h, dvd_sub_residue a h⟩

/-- MODRED's operand as a sign times the double-width value (R154). -/
theorem wideOperand_eq (width : Nat) (neg : Bool) (hi lo : Nat) :
    wideOperand width neg hi lo = (if neg = true then -1 else 1) * ((hi : Int) * 2 ^ width + lo) := by
  cases neg <;> simp [wideOperand]

/-! ### The commands that write one residue -/

section
variable {i : Instr} {ms : Slot} {rd : Reg} {a : Int} {s : State}
  (hi : exec i s = withSlot ms s fun m => writeValue rd (residue a m.mod) s)
include hi

/-- Without a modulus such a command fails before any write (R105, R227). -/
theorem exec_residue_invalid (hv : (s.slot ms).v = false) : exec i s = .next (failedState .modInvalid s) :=
  hi.trans (withSlot_invalid _ hv)

/-- With one it completes: the residue at its destination, Z from it, all else kept (R150, R226). -/
theorem exec_residue_valid (hd : commandDests i = [rd]) (hm : ∀ ms ra, i ≠ .modset ms ra) (ha : ∀ ra, i ≠ .seta ra)
    (hv : (s.slot ms).v = true) (hpos : 0 < (s.slot ms).mod) :
    ∃ t, exec i s = .next t ∧ Ran s t [rd] ∧ SlotsKept s t ∧ IsResidue (t.x rd) a (s.slot ms).mod ∧
      t.flags = ⟨decide (t.x rd = 0), false, false, false⟩ := by
  have hrun : exec i s = .next (writeValue rd (residue a (s.slot ms).mod) s) := hi.trans (withSlot_valid _ hv)
  refine ⟨_, hrun, hd ▸ ran_of_exec hrun rfl, slotsKept_of_exec hrun hm ha, ?_, ?_⟩
  · rw [x_writeValue_self]
    exact isResidue_residue a hpos
  · rw [x_writeValue_self, flags_writeValue, valueFlags]

end

/-- Settles O33: MODADD writes the residue of the exact sum. -/
theorem modaddResult : Obligations.ModaddResult := fun ms rd ra rb _ =>
  ⟨decode_of_encode_eq rfl (pack_slot_eq_formatC 0x10 ms false rd ra rb), exec_residue_invalid rfl,
    exec_residue_valid rfl rfl nofun nofun⟩

/-- Settles O34: MODSUB writes the floored residue of the exact difference. -/
theorem modsubResult : Obligations.ModsubResult := fun ms rd ra rb _ =>
  ⟨decode_of_encode_eq rfl (pack_slot_eq_formatC 0x11 ms false rd ra rb), exec_residue_invalid rfl,
    exec_residue_valid rfl rfl nofun nofun⟩

/-- Settles O35: MODMUL writes the residue of the exact product. -/
theorem modmulResult : Obligations.ModmulResult := fun ms rd ra rb _ =>
  ⟨decode_of_encode_eq rfl (pack_slot_eq_formatC 0x12 ms false rd ra rb), exec_residue_invalid rfl,
    exec_residue_valid rfl rfl nofun nofun⟩

/-- Settles O36: MODRED writes the floored residue of the signed double-width operand. -/
theorem modredResult : Obligations.ModredResult := by
  intro ms neg rd ra rb s
  rw [← wideOperand_eq]
  exact ⟨decode_of_encode_eq rfl (pack_slot_eq_formatC 0x13 ms neg rd ra rb), exec_residue_invalid rfl,
    exec_residue_valid rfl rfl nofun nofun⟩

/-! ### MODINV -/

/-- The inverse of a register value, as the statement of MODINV has it (R16). -/
theorem mul_inv_mod_of_coprime {a m : Nat} (hm : 0 < m) (h : Nat.gcd a m = 1) : a * (inv a m).1 % m = 1 % m := by
  have hmod := mul_inv_modEq_one hm (a := a) (by rwa [Int.gcd_natCast_natCast])
  exact (Int.natCast_modEq_iff (b := 1)).mp (by exact_mod_cast hmod)

/-- A register value without an inverse (R16). -/
theorem inv_of_not_coprime {a m : Nat} (hm : 0 < m) (h : Nat.gcd a m ≠ 1) : inv a m = (0, true) :=
  inv_of_gcd_ne_one hm (by rwa [Int.gcd_natCast_natCast])

theorem exec_modinv (ms : Slot) (rd ra : Reg) (s : State) :
    exec (.modinv ms rd ra) s = withSlot ms s fun m =>
      commit (inverseFlags (inv (s.x ra) m.mod)) (s.setX rd (inv (s.x ra) m.mod).1) := rfl

/-- Settles O37: MODINV writes R16's inverse, and its no-inverse indication to NOINV. -/
theorem modinvResult : Obligations.ModinvResult := by
  intro ms rd ra s
  refine ⟨decode_of_encode_eq rfl (pack_slot_eq_formatC 0x14 ms false rd ra 0),
    fun hv => (exec_modinv ms rd ra s).trans (withSlot_invalid _ hv), fun hv hpos => ?_⟩
  have hrun := (exec_modinv ms rd ra s).trans (withSlot_valid _ hv)
  have hx := x_setX_self s rd (inv (s.x ra) (s.slot ms).mod).1
  refine ⟨_, hrun, ran_of_exec hrun rfl, slotsKept_of_exec hrun nofun nofun, fun h => ?_, fun h => ?_⟩
  · rw [x_commit, flags_commit, hx, inverseFlags, inv_natCast_snd, decide_eq_false (not_not_intro h)]
    exact ⟨inv_lt _ hpos, mul_inv_mod_of_coprime hpos h, rfl⟩
  · rw [x_commit, flags_commit, hx, inv_of_not_coprime hpos h]
    exact ⟨rfl, rfl⟩

end Sys2Proof.Machine
end

section
/-! Barrett reduction (41_modular.md R156): the quotient estimate is at most two below the quotient, so two corrections
leave the residue. -/

namespace Sys2Proof.Machine

theorem barrettCorrect_of_lt {m t : Nat} (h : t < m) : barrettCorrect m t = t := if_neg (Nat.not_le.mpr h)

theorem barrettCorrect_of_le {m t : Nat} (h : m ≤ t) : barrettCorrect m t = t - m := if_pos h

/-- Two corrections reduce a value below `3m`. -/
theorem barrettCorrect_barrettCorrect {m t : Nat} (h : t < 3 * m) : barrettCorrect m (barrettCorrect m t) = t % m := by
  obtain hlt | hle := Nat.lt_or_ge t m
  · rw [barrettCorrect_of_lt hlt, barrettCorrect_of_lt hlt, Nat.mod_eq_of_lt hlt]
  · rw [barrettCorrect_of_le hle, Nat.mod_eq_sub_mod hle]
    obtain hlt' | hle' := Nat.lt_or_ge (t - m) m
    · rw [barrettCorrect_of_lt hlt', Nat.mod_eq_of_lt hlt']
    · rw [barrettCorrect_of_le hle', Nat.mod_eq_sub_mod hle', Nat.mod_eq_of_lt (by omega)]

section
variable {b c m : Nat}

/-- The quotient estimate is not above the quotient: each of its three divisions rounds down. -/
theorem barrettQuotient_mul_le (v : Nat) (hb : 0 < b) (hc : 0 < c) : v / b * (b * c / m) / c * m ≤ v := by
  refine Nat.le_of_mul_le_mul_right ?_ (Nat.mul_pos hb hc)
  calc v / b * (b * c / m) / c * m * (b * c)
      = v / b * (b * c / m) / c * c * (m * b) := by ring
    _ ≤ v / b * (b * c / m) * (m * b) := Nat.mul_le_mul_right _ (Nat.div_mul_le_self ..)
    _ = v / b * b * (b * c / m * m) := by ring
    _ ≤ v * (b * c) := Nat.mul_le_mul (Nat.div_mul_le_self ..) (Nat.div_mul_le_self ..)

/-- It is at most two below the quotient: the three roundings together cost less than `3m` (R156). -/
theorem lt_barrettQuotient_add_three_mul {v : Nat} (hb : 0 < b) (hm : b ≤ m) (hv : v < b * c) :
    v < (v / b * (b * c / m) / c + 3) * m := by
  have hc : 0 < c := Nat.pos_of_mul_pos_left (Nat.zero_lt_of_lt hv)
  have hshift : v < (v / b + 1) * b := Nat.lt_mul_of_div_lt (Nat.lt_succ_self _) hb
  have hhigh : v / b ≤ c := (Nat.div_lt_of_lt_mul hv).le
  have hconst : b * c ≤ (b * c / m + 1) * m := (Nat.lt_mul_of_div_lt (Nat.lt_succ_self _) (hb.trans_le hm)).le
  have hquot : v / b * (b * c / m) ≤ (v / b * (b * c / m) / c + 1) * c :=
    (Nat.lt_mul_of_div_lt (Nat.lt_succ_self _) hc).le
  generalize v / b = a at *
  generalize b * c / m = mu at *
  generalize a * mu / c = q at *
  refine Nat.lt_of_mul_lt_mul_right (a := c) ?_
  calc v * c < (a + 1) * b * c := Nat.mul_lt_mul_of_pos_right hshift hc
    _ = a * (b * c) + b * c := by ring
    _ ≤ a * ((mu + 1) * m) + m * c := by gcongr
    _ = a * mu * m + a * m + m * c := by ring
    _ ≤ (q + 1) * c * m + c * m + m * c := by gcongr
    _ = (q + 3) * m * c := by ring

end

/-- Settles O39: with `2^(2k) = 2^(k-1) * 2^(k+1)` and `2^(k-1) <= m`, the estimate leaves a multiple below `3m`. -/
theorem barrettReductionExact : Obligations.BarrettReductionExact := by
  intro m v hm hv
  change v < 2 ^ (2 * bitlen m) at hv
  change barrettReduce m (bitlen m) (2 ^ (2 * bitlen m) / m) v = v % m
  have hlow := two_pow_bitlen_le hm.ne'
  have hk : 0 < bitlen m := Nat.pos_of_ne_zero fun h => by simpa [h, hm.ne'] using lt_two_pow_bitlen m
  have hsplit : 2 ^ (2 * bitlen m) = 2 ^ (bitlen m - 1) * 2 ^ (bitlen m + 1) := by
    rw [← pow_add]
    congr 1
    omega
  rw [hsplit] at hv ⊢
  have hle := barrettQuotient_mul_le (m := m) v (Nat.two_pow_pos (bitlen m - 1)) (Nat.two_pow_pos (bitlen m + 1))
  have hlt := lt_barrettQuotient_add_three_mul (Nat.two_pow_pos _) hlow hv
  rw [add_mul] at hlt
  rw [barrettReduce, barrettCorrect_barrettCorrect (by omega)]
  rw [mul_comm _ m] at hle ⊢
  exact Nat.sub_mul_mod hle

end Sys2Proof.Machine
end

section
/-! The Montgomery commands (42_montgomery.md R170 to R174): the two maps they compute, TOMONT's multiplication by `Rm`
and the reduction that multiplies by `Rinv`, with the laws that tie them; then each command as one of the maps. -/

namespace Sys2Proof.Machine

/-! ### The two maps of the Montgomery domain (R170) -/

/-- `(a * Rm) mod m` for a slot's modulus and its `Rm = 2^RB` (R172). -/
def ModSlot.toMont (m : ModSlot) (a : Nat) : Nat := a * 2 ^ m.rb % m.mod

/-- `(c * Rinv) mod m`: of a product it is MONTMUL (R171), of a register FROMMONT (R173). -/
def ModSlot.montReduce (m : ModSlot) (c : Nat) : Nat := c * montInverse m.rb m.mod % m.mod

section
variable {m : ModSlot} {w : Nat} (hinv : m.Inv w) (hv : m.v = true)
include hinv hv

theorem ModSlot.Inv.rb_eq : m.rb = 32 * ((m.k + 31) / 32) := by
  obtain ⟨-, -, -, hrb, -⟩ := hinv.valid hv
  exact hrb

theorem ModSlot.Inv.toMont_eq (a : Nat) : m.toMont a = a * 2 ^ (32 * ((m.k + 31) / 32)) % m.mod := by
  rw [← hinv.rb_eq hv, ModSlot.toMont]

theorem ModSlot.Inv.montReduce_lt (c : Nat) : m.montReduce c < m.mod := Nat.mod_lt _ (hinv.mod_pos hv)

variable (ho : m.odd = true)
include ho

/-- `Rinv` exists: `Rm` is a power of two and the modulus odd (R170). -/
theorem ModSlot.Inv.coprime_two_pow (n : Nat) : Nat.Coprime (2 ^ n) m.mod := by
  obtain ⟨-, -, -, -, hodd⟩ := hinv.valid hv
  rw [ho, Nat.testBit_zero, eq_comm, decide_eq_true_iff] at hodd
  exact (Nat.coprime_two_left.mpr (Nat.odd_iff.mpr hodd)).pow_left n

/-- `Rm * Rinv = 1`, in the integers mod `m`. -/
theorem ModSlot.Inv.two_pow_mul_montInverse : (2 : ZMod m.mod) ^ m.rb * montInverse m.rb m.mod = 1 := by
  have hgcd : Int.gcd ((2 ^ m.rb : Nat) : Int) m.mod = 1 := by
    rw [Int.gcd_natCast_natCast]
    exact hinv.coprime_two_pow hv ho m.rb
  have hone := (ZMod.intCast_eq_intCast_iff _ _ _).mpr (mul_inv_modEq_one (hinv.mod_pos hv) hgcd)
  simpa [montInverse] using hone

/-- R170's characterisation of the reduction: `v * Rm = c` modulo `m`. -/
theorem ModSlot.Inv.montReduce_mul_two_pow (c : Nat) :
    m.montReduce c * 2 ^ (32 * ((m.k + 31) / 32)) % m.mod = c % m.mod := by
  rw [← hinv.rb_eq hv, ← ZMod.natCast_eq_natCast_iff', ModSlot.montReduce]
  push_cast [ZMod.natCast_mod]
  linear_combination (c : ZMod m.mod) * hinv.two_pow_mul_montInverse hv ho

/-- The reduction undoes TOMONT (R173). -/
theorem ModSlot.Inv.montReduce_toMont (a : Nat) : m.montReduce (m.toMont a) = a % m.mod := by
  rw [ModSlot.montReduce, ModSlot.toMont, ← ZMod.natCast_eq_natCast_iff']
  push_cast [ZMod.natCast_mod]
  linear_combination (a : ZMod m.mod) * hinv.two_pow_mul_montInverse hv ho

/-- The Montgomery product of two Montgomery forms is the Montgomery form of the modular product (R174). -/
theorem ModSlot.Inv.montReduce_toMont_mul_toMont (a b : Nat) :
    m.montReduce (m.toMont a * m.toMont b) = m.toMont (a * b % m.mod) := by
  rw [ModSlot.montReduce, ModSlot.toMont, ModSlot.toMont, ModSlot.toMont, ← ZMod.natCast_eq_natCast_iff']
  push_cast [ZMod.natCast_mod]
  linear_combination (a * b * 2 ^ m.rb : ZMod m.mod) * hinv.two_pow_mul_montInverse hv ho

end

/-! ### The commands that need an odd modulus -/

theorem withOddSlot_invalid {ms : Slot} {s : State} (k : ModSlot → State) (h : (s.slot ms).v = false) :
    withOddSlot ms s k = .next (failCmd .modInvalid s) :=
  withSlot_invalid _ h

theorem withOddSlot_even {ms : Slot} {s : State} (k : ModSlot → State) (h : (s.slot ms).v = true)
    (ho : (s.slot ms).odd = false) : withOddSlot ms s k = .next (failCmd .badMod s) := by
  simp [withOddSlot, withSlot, h, ho]

theorem exec_montmul (ms : Slot) (rd ra rb : Reg) (s : State) :
    exec (.montmul ms rd ra rb) s =
      withOddSlot ms s fun m => writeValue rd (m.montReduce (s.x ra * s.x rb)) s := by
  simp only [ModSlot.montReduce, ← residue_natCast, Nat.cast_mul]
  rfl

theorem exec_tomont (ms : Slot) (rd ra : Reg) (s : State) :
    exec (.tomont ms rd ra) s = withOddSlot ms s fun m => writeValue rd (m.toMont (s.x ra)) s := by
  simp only [ModSlot.toMont, ← residue_natCast, Nat.cast_mul]
  rfl

theorem exec_frommont (ms : Slot) (rd ra : Reg) (s : State) :
    exec (.frommont ms rd ra) s = withOddSlot ms s fun m => writeValue rd (m.montReduce (s.x ra)) s := by
  simp only [ModSlot.montReduce, ← residue_natCast, Nat.cast_mul]
  rfl

section
variable {i : Instr} {ms : Slot} {rd : Reg} {v : ModSlot → Nat} {s : State}
  (hi : exec i s = withOddSlot ms s fun m => writeValue rd (v m) s)
include hi

/-- Without a modulus such a command fails before any write (R105, R227). -/
theorem exec_mont_invalid (hv : (s.slot ms).v = false) : exec i s = .next (failedState .modInvalid s) :=
  hi.trans (withOddSlot_invalid _ hv)

/-- With an even one it fails too (R105, R170). -/
theorem exec_mont_even (hv : (s.slot ms).v = true) (ho : (s.slot ms).odd = false) :
    exec i s = .next (failedState .badMod s) :=
  hi.trans (withOddSlot_even _ hv ho)

/-- With an odd one it completes: the value at its destination, Z from it, all else kept (R226). -/
theorem exec_mont_odd (hd : commandDests i = [rd]) (hm : ∀ ms ra, i ≠ .modset ms ra) (ha : ∀ ra, i ≠ .seta ra)
    (hv : (s.slot ms).v = true) (ho : (s.slot ms).odd = true) :
    ∃ t, exec i s = .next t ∧ Ran s t [rd] ∧ SlotsKept s t ∧ t.x rd = v (s.slot ms) ∧
      t.flags = ⟨decide (t.x rd = 0), false, false, false⟩ := by
  have hrun : exec i s = .next (writeValue rd (v (s.slot ms)) s) := hi.trans (withOddSlot_odd _ hv ho)
  refine ⟨_, hrun, hd ▸ ran_of_exec hrun rfl, slotsKept_of_exec hrun hm ha, x_writeValue_self .., ?_⟩
  rw [x_writeValue_self, flags_writeValue, valueFlags]

end

/-- The value of a reduction is the one below `m` that R170 allows. -/
theorem exec_montReduce_odd {i : Instr} {ms : Slot} {rd : Reg} {c : Nat} {s : State}
    (hi : exec i s = withOddSlot ms s fun m => writeValue rd (m.montReduce c) s)
    (hd : commandDests i = [rd]) (hm : ∀ ms ra, i ≠ .modset ms ra) (ha : ∀ ra, i ≠ .seta ra)
    (hv : (s.slot ms).v = true) (ho : (s.slot ms).odd = true) (hinv : (s.slot ms).Inv s.width) :
    ∃ t, exec i s = .next t ∧ Ran s t [rd] ∧ SlotsKept s t ∧ t.x rd < (s.slot ms).mod ∧
      t.x rd * 2 ^ (32 * (((s.slot ms).k + 31) / 32)) % (s.slot ms).mod = c % (s.slot ms).mod ∧
      t.flags = ⟨decide (t.x rd = 0), false, false, false⟩ := by
  obtain ⟨t, hrun, hran, hkept, hx, hflags⟩ := exec_mont_odd hi hd hm ha hv ho
  refine ⟨t, hrun, hran, hkept, ?_, ?_, hflags⟩
  · rw [hx]
    exact hinv.montReduce_lt hv c
  · rw [hx]
    exact hinv.montReduce_mul_two_pow hv ho c

/-- Settles O40: MONTMUL is the reduction of the exact product. -/
theorem montmulResult : Obligations.MontmulResult := by
  intro ms rd ra rb s
  have hexec := exec_montmul ms rd ra rb s
  exact ⟨decode_of_encode_eq rfl (pack_slot_eq_formatC 0x18 ms false rd ra rb), exec_mont_invalid hexec,
    exec_mont_even hexec, exec_montReduce_odd hexec rfl nofun nofun⟩

/-- Settles O41: TOMONT multiplies by the slot's own `Rm`. -/
theorem tomontResult : Obligations.TomontResult := by
  intro ms rd ra s
  have hexec := exec_tomont ms rd ra s
  refine ⟨decode_of_encode_eq rfl (pack_slot_eq_formatC 0x19 ms false rd ra 0), exec_mont_invalid hexec,
    exec_mont_even hexec, fun hv ho hinv => ?_⟩
  rw [← hinv.toMont_eq hv]
  exact exec_mont_odd hexec rfl nofun nofun hv ho

/-- Settles O42: FROMMONT is the reduction of the register. -/
theorem frommontResult : Obligations.FrommontResult := by
  intro ms rd ra s
  have hexec := exec_frommont ms rd ra s
  exact ⟨decode_of_encode_eq rfl (pack_slot_eq_formatC 0x1A ms false rd ra 0), exec_mont_invalid hexec,
    exec_mont_even hexec, exec_montReduce_odd hexec rfl nofun nofun⟩

/-! ### The domain laws, as runs (R174) -/

@[simp] theorem slot_writeValue (rd : Reg) (v : Nat) (s : State) (ms : Slot) :
    (writeValue rd v s).slot ms = s.slot ms := by
  simp [writeValue]

theorem x_writeValue_ne (s : State) {rd r : Reg} (v : Nat) (h : r ≠ rd) : (writeValue rd v s).x r = s.x r :=
  x_setX_ne s v h

theorem runCommands_cons {i : Instr} {s t : State} (h : exec i s = .next t) (l : List Instr) :
    runCommands (i :: l) s = runCommands l t := by
  simp only [runCommands, h]

/-- MODMUL's residue as a remainder (R153). -/
theorem exec_modmul (ms : Slot) (rd ra rb : Reg) (s : State) :
    exec (.modmul ms rd ra rb) s = withSlot ms s fun m => writeValue rd (s.x ra * s.x rb % m.mod) s := by
  simp only [← residue_natCast, Nat.cast_mul]
  rfl

section
variable {ms : Slot} {s : State} {l : List Instr} (hv : (s.slot ms).v = true)
include hv

theorem runCommands_modmul (rd ra rb : Reg) : runCommands (.modmul ms rd ra rb :: l) s =
    runCommands l (writeValue rd (s.x ra * s.x rb % (s.slot ms).mod) s) :=
  runCommands_cons ((exec_modmul ms rd ra rb s).trans (withSlot_valid _ hv)) l

variable (ho : (s.slot ms).odd = true)
include ho

theorem runCommands_montmul (rd ra rb : Reg) : runCommands (.montmul ms rd ra rb :: l) s =
    runCommands l (writeValue rd ((s.slot ms).montReduce (s.x ra * s.x rb)) s) :=
  runCommands_cons ((exec_montmul ms rd ra rb s).trans (withOddSlot_odd _ hv ho)) l

theorem runCommands_tomont (rd ra : Reg) : runCommands (.tomont ms rd ra :: l) s =
    runCommands l (writeValue rd ((s.slot ms).toMont (s.x ra)) s) :=
  runCommands_cons ((exec_tomont ms rd ra s).trans (withOddSlot_odd _ hv ho)) l

theorem runCommands_frommont (rd ra : Reg) : runCommands (.frommont ms rd ra :: l) s =
    runCommands l (writeValue rd ((s.slot ms).montReduce (s.x ra)) s) :=
  runCommands_cons ((exec_frommont ms rd ra s).trans (withOddSlot_odd _ hv ho)) l

/-- Both operands into the domain, then their Montgomery product: one state that the rest of the run starts from. -/
theorem runCommands_tomont_tomont_montmul {ra rb r1 r2 : Reg} (r3 : Reg) (hb : r1 ≠ rb) (h2 : r1 ≠ r2) :
    ∃ t, runCommands (.tomont ms r1 ra :: .tomont ms r2 rb :: .montmul ms r3 r1 r2 :: l) s = runCommands l t ∧
      t.slot ms = s.slot ms ∧
      t.x r3 = (s.slot ms).montReduce ((s.slot ms).toMont (s.x ra) * (s.slot ms).toMont (s.x rb)) := by
  rw [runCommands_tomont hv ho, runCommands_tomont (by simpa using hv) (by simpa using ho),
    runCommands_montmul (by simpa using hv) (by simpa using ho)]
  refine ⟨_, rfl, by simp, ?_⟩
  simp [x_writeValue_ne _ _ h2, x_writeValue_ne _ _ hb.symm]

end

/-- Settles O43: the commands run as the two maps, and the laws are the maps' own. -/
theorem montgomeryDomainLaws : Obligations.MontgomeryDomainLaws := by
  intro ms ra rb r1 r2 r3 r4 s hv ho hinv hb h2
  have hback := hinv.montReduce_toMont hv ho
  have hproduct := hinv.montReduce_toMont_mul_toMont hv ho (s.x ra) (s.x rb)
  refine ⟨?_, ?_, ?_⟩
  · rw [runCommands_tomont hv ho, runCommands_frommont (by simpa using hv) (by simpa using ho)]
    refine ⟨_, rfl, ?_⟩
    rw [x_writeValue_self, x_writeValue_self, slot_writeValue, hback]
  · obtain ⟨t, hrun, hslot, hx⟩ := runCommands_tomont_tomont_montmul (l := [.frommont ms r4 r3]) hv ho r3 hb h2
    rw [hrun, runCommands_frommont (by rwa [hslot]) (by rwa [hslot])]
    refine ⟨_, rfl, ?_⟩
    rw [x_writeValue_self, hslot, hx, hproduct, hback, Nat.mod_mod]
  · obtain ⟨t, hrun, -, hx⟩ := runCommands_tomont_tomont_montmul (l := []) hv ho r3 hb h2
    have hrun' := (runCommands_modmul hv r3 ra rb).trans
      (runCommands_tomont (l := []) (by simpa using hv) (by simpa using ho) r3 r3)
    refine ⟨t, _, hrun, hrun', ?_⟩
    rw [hx, hproduct, x_writeValue_self, x_writeValue_self, slot_writeValue]

end Sys2Proof.Machine
end

section
/-! The point functions in the integers mod `p` (43_point.md R181 to R184): every intermediate is one residue, so its
class mod `p` is the exact expression's. -/

namespace Sys2Proof.Machine

/-! ### Residues and inverses as classes mod `p` -/

section
variable {p : Nat} (hp : 0 < p)
include hp

theorem natCast_residue (a : Int) : (residue a p : ZMod p) = a := by
  rw [← Int.cast_natCast, cast_residue a hp, ZMod.intCast_mod]

theorem residue_eq_zero_iff (a : Int) : residue a p = 0 ↔ (a : ZMod p) = 0 := by
  rw [← natCast_residue hp, ZMod.natCast_eq_zero_iff, Nat.dvd_iff_mod_eq_zero, Nat.mod_eq_of_lt (residue_lt a hp)]

theorem natCast_residue_eq_zero_iff (a : Int) : (residue a p : ZMod p) = 0 ↔ residue a p = 0 := by
  rw [natCast_residue hp, residue_eq_zero_iff hp]

/-- The no-inverse indication, over the exact operand (R16). -/
theorem inv_snd_eq_true_iff (a : Int) : (inv a p).2 = true ↔ Int.gcd a p ≠ 1 := by
  rw [inv_snd, gcd_residue a hp]

theorem inv_snd_eq_false_iff (a : Int) : (inv a p).2 = false ↔ Int.gcd a p = 1 := by
  rw [← Bool.not_eq_true, inv_snd_eq_true_iff hp, not_not]

theorem intCast_mul_inv {a : Int} (h : Int.gcd a p = 1) : (a : ZMod p) * (inv a p).1 = 1 := by
  have hone := (ZMod.intCast_eq_intCast_iff _ _ _).mpr (mul_inv_modEq_one hp h)
  exact_mod_cast hone

end

/-! ### Affine points (R181, R182) -/

/-- The point that the line of slope `num / den` through `pt` gives with a point of abscissa `x2`, and the no-inverse
indication of `den`. -/
def linePoint (p : Nat) (num den : Int) (pt : APoint) (x2 : Nat) : APoint × Bool :=
  let iv := inv den p
  let lam := residue (num * iv.1) p
  let xr := residue ((lam : Int) * lam - pt.x - x2) p
  (⟨xr, residue ((lam : Int) * ((pt.x : Int) - xr) - pt.y) p⟩, iv.2)

/-- The slope is a field element: the quotient where the inverse exists, and 0 where it does not. -/
theorem linePoint_spec {p : Nat} (hp : 0 < p) (num den : Int) (pt : APoint) (x2 : Nat) :
    ∃ (r : APoint) (ni : Bool) (lam : ZMod p), linePoint p num den pt x2 = (r, ni) ∧ r.x < p ∧ r.y < p ∧
      (ni = true ↔ Int.gcd den p ≠ 1) ∧ (ni = false → lam * den = num) ∧ (ni = true → lam = 0) ∧
      (r.x : ZMod p) = lam ^ 2 - pt.x - x2 ∧ (r.y : ZMod p) = lam * ((pt.x : ZMod p) - r.x) - pt.y := by
  refine ⟨_, _, num * (inv den p).1, rfl, residue_lt _ hp, residue_lt _ hp, inv_snd_eq_true_iff hp den,
    fun hni => ?_, fun hni => ?_, ?_, ?_⟩
  · have hgcd : Int.gcd den p = 1 := (inv_snd_eq_false_iff hp den).mp hni
    linear_combination (num : ZMod p) * intCast_mul_inv hp hgcd
  · rw [inv_fst_of_snd hni, Nat.cast_zero, mul_zero]
  · push_cast [natCast_residue hp]
    ring
  · push_cast [natCast_residue hp]
    ring

theorem adbl_of_y_eq_zero (p a : Nat) {pt : APoint} (h : pt.y = 0) : adbl p a pt = (infA, false) := if_pos h

/-- The tangent's slope (R182). -/
theorem adbl_of_y_ne_zero (p a : Nat) {pt : APoint} (h : pt.y ≠ 0) :
    adbl p a pt = linePoint p (3 * pt.x * pt.x + a) (2 * pt.y) pt pt.x := by
  simp only [adbl, if_neg h, linePoint, two_mul, sub_add_eq_sub_sub]

theorem aadd_infA_left (p a : Nat) (qt : APoint) : aadd p a infA qt = (qt, false) := if_pos rfl

section
variable (p a : Nat) {pt qt : APoint} (hpt : pt ≠ infA)
include hpt

theorem aadd_infA_right : aadd p a pt infA = (pt, false) := by
  rw [aadd, if_neg hpt, if_pos rfl]

theorem aadd_self : aadd p a pt pt = adbl p a pt := by
  rw [aadd, if_neg hpt, if_neg hpt, if_neg (fun h => h.2 rfl), if_pos ⟨rfl, rfl⟩]

variable (hqt : qt ≠ infA)
include hqt

theorem aadd_vertical (hx : pt.x = qt.x) (hy : pt.y ≠ qt.y) : aadd p a pt qt = (infA, false) := by
  rw [aadd, if_neg hpt, if_neg hqt, if_pos ⟨hx, hy⟩]

/-- The chord's slope (R181). -/
theorem aadd_of_x_ne (hx : pt.x ≠ qt.x) :
    aadd p a pt qt = linePoint p ((qt.y : Int) - pt.y) ((qt.x : Int) - pt.x) pt qt.x := by
  rw [aadd, if_neg hpt, if_neg hqt, if_neg (fun h => hx h.1), if_neg (fun h => hx h.1)]
  rfl

end

/-- Settles O44: the cases of the definitions, and the line's point in both slope formulas. -/
theorem affineFormulas : Obligations.AffineFormulas := by
  refine ⟨fun p a pt qt hpx _ _ _ => ⟨?_, ?_, aadd_vertical p a, ?_, fun hpt hqt hx => ?_⟩,
    fun p a pt hpx _ => ⟨adbl_of_y_eq_zero p a, fun hy => ?_⟩⟩
  · rintro rfl
    exact aadd_infA_left p a qt
  · rintro hpt rfl
    exact aadd_infA_right p a hpt
  · rintro hpt rfl
    exact aadd_self p a hpt
  · rw [aadd_of_x_ne p a hpt hqt hx]
    simpa using linePoint_spec (Nat.zero_lt_of_lt hpx) ((qt.y : Int) - pt.y) ((qt.x : Int) - pt.x) pt qt.x
  · obtain ⟨r, ni, lam, hr, hrx, hry, hni, hslope, hzero, hX, hY⟩ :=
      linePoint_spec (Nat.zero_lt_of_lt hpx) (3 * pt.x * pt.x + a) (2 * pt.y) pt pt.x
    rw [← Int.gcd_natCast_natCast]
    push_cast at hslope ⊢
    exact ⟨r, ni, lam, (adbl_of_y_ne_zero p a hy).trans hr, hrx, hry, hni, fun h => by rw [hslope h]; ring, hzero,
      by rw [hX]; ring, hY⟩

/-! ### Jacobian points (R183, R184) -/

/-- The triple of residues that JDBL and JADD end in: infinity where Z is 0. -/
def residuesJ (p : Nat) (x y z : Int) : JPoint :=
  if residue z p = 0 then infJ else ⟨residue x p, residue y p, residue z p⟩

section
variable {p : Nat} (hp : 0 < p) (x y : Int) {z : Int}
include hp

theorem residuesJ_of_z_eq_zero (hz : (z : ZMod p) = 0) : residuesJ p x y z = infJ :=
  if_pos ((residue_eq_zero_iff hp z).mpr hz)

theorem residuesJ_of_z_ne_zero (hz : (z : ZMod p) ≠ 0) :
    (residuesJ p x y z).x < p ∧ (residuesJ p x y z).y < p ∧ 0 < (residuesJ p x y z).z ∧ (residuesJ p x y z).z < p ∧
      ((residuesJ p x y z).x : ZMod p) = x ∧ ((residuesJ p x y z).y : ZMod p) = y ∧
      ((residuesJ p x y z).z : ZMod p) = z := by
  have hne : residue z p ≠ 0 := (residue_eq_zero_iff hp z).not.mpr hz
  rw [residuesJ, if_neg hne]
  exact ⟨residue_lt x hp, residue_lt y hp, Nat.pos_of_ne_zero hne, residue_lt z hp, natCast_residue hp x,
    natCast_residue hp y, natCast_residue hp z⟩

end

theorem jdbl_of_infinity (p a : Nat) {pt : JPoint} (h : pt.z = 0 ∨ pt.y = 0) : jdbl p a pt = infJ := if_pos h

/-- The formula of R183 with its intermediates put in. -/
theorem jdbl_eq_residuesJ {p : Nat} (hp : 0 < p) (a : Nat) {pt : JPoint} (hz : pt.z ≠ 0) (hy : pt.y ≠ 0) :
    ∃ x3 y3 z3 : Int, jdbl p a pt = residuesJ p x3 y3 z3 ∧
      (x3 : ZMod p) = (3 * (pt.x : ZMod p) ^ 2 + a * (pt.z : ZMod p) ^ 4) ^ 2 - 2 * (4 * pt.x * (pt.y : ZMod p) ^ 2) ∧
      (y3 : ZMod p) = (3 * (pt.x : ZMod p) ^ 2 + a * (pt.z : ZMod p) ^ 4) * (4 * pt.x * (pt.y : ZMod p) ^ 2 - x3)
        - 8 * (pt.y : ZMod p) ^ 4 ∧
      (z3 : ZMod p) = 2 * pt.y * pt.z := by
  refine ⟨_, _, _, if_neg (not_or_intro hz hy), ?_, ?_, ?_⟩ <;>
    · push_cast [natCast_residue hp]
      ring

/-- Settles O45: the triple's classes are the formula's, and its Z decides. -/
theorem jacobianDoubling : Obligations.JacobianDoubling := by
  refine fun p a pt hp => ⟨jdbl_of_infinity p a, fun hz hy => ?_⟩
  obtain ⟨x3, y3, z3, hq, hx3, hy3, hz3⟩ := jdbl_eq_residuesJ hp a hz hy
  refine ⟨fun h => hq.trans (residuesJ_of_z_eq_zero hp x3 y3 (hz3.trans h)), fun h => ⟨_, hq, ?_⟩⟩
  obtain ⟨hltx, hlty, hposz, hltz, hx, hy, hz⟩ := residuesJ_of_z_ne_zero hp x3 y3 (hz3.trans_ne h)
  rw [hx]
  exact ⟨hltx, hlty, hposz, hltz, hx3, hy.trans hy3, hz.trans hz3⟩

theorem jadd_of_left_infinity (p a : Nat) {pt : JPoint} (qt : JPoint) (h : pt.z = 0) : jadd p a pt qt = qt := if_pos h

theorem jadd_of_right_infinity (p a : Nat) {pt qt : JPoint} (hpt : pt.z ≠ 0) (hqt : qt.z = 0) :
    jadd p a pt qt = pt := by
  rw [jadd, if_neg hpt, if_pos hqt]

/-- R184's `U1`, mod `p`. -/
def jaddU1 (p : Nat) (pt qt : JPoint) : ZMod p := pt.x * (qt.z : ZMod p) ^ 2

/-- R184's `S1`, mod `p`. -/
def jaddS1 (p : Nat) (pt qt : JPoint) : ZMod p := pt.y * (qt.z : ZMod p) ^ 3

/-- R184's `H`, mod `p`: 0 where both points have the same abscissa. -/
def jaddH (p : Nat) (pt qt : JPoint) : ZMod p := qt.x * (pt.z : ZMod p) ^ 2 - jaddU1 p pt qt

/-- R184's `r`, mod `p`: 0 where both points have the same ordinate. -/
def jaddR (p : Nat) (pt qt : JPoint) : ZMod p := qt.y * (pt.z : ZMod p) ^ 3 - jaddS1 p pt qt

/-- R184 for two finite points: a vertical pair, equal points, or the formula with its intermediates put in. -/
theorem jadd_cases {p : Nat} (hp : 0 < p) (a : Nat) {pt qt : JPoint} (hpt : pt.z ≠ 0) (hqt : qt.z ≠ 0) :
    (jaddH p pt qt = 0 ∧ jaddR p pt qt ≠ 0 ∧ jadd p a pt qt = infJ) ∨
    (jaddH p pt qt = 0 ∧ jaddR p pt qt = 0 ∧ jadd p a pt qt = jdbl p a pt) ∨
    (jaddH p pt qt ≠ 0 ∧ ∃ x3 y3 z3 : Int, jadd p a pt qt = residuesJ p x3 y3 z3 ∧
      (x3 : ZMod p) = jaddR p pt qt ^ 2 - jaddH p pt qt ^ 3 - 2 * (jaddU1 p pt qt * jaddH p pt qt ^ 2) ∧
      (y3 : ZMod p) = jaddR p pt qt * (jaddU1 p pt qt * jaddH p pt qt ^ 2 - x3) - jaddS1 p pt qt * jaddH p pt qt ^ 3 ∧
      (z3 : ZMod p) = pt.z * qt.z * jaddH p pt qt) := by
  rw [jadd, if_neg hpt, if_neg hqt]
  extract_lets z1z1 z2z2 u1 u2 s1 s2 h r hh hhh v x3 y3 z3
  have hu1 : (u1 : ZMod p) = jaddU1 p pt qt := by
    push_cast [u1, z2z2, jaddU1, natCast_residue hp]
    ring
  have hs1 : (s1 : ZMod p) = jaddS1 p pt qt := by
    push_cast [s1, z2z2, jaddS1, natCast_residue hp]
    ring
  have hH : (h : ZMod p) = jaddH p pt qt := by
    rw [jaddH, ← hu1]
    push_cast [h, u2, z1z1, natCast_residue hp]
    ring
  have hR : (r : ZMod p) = jaddR p pt qt := by
    rw [jaddR, ← hs1]
    push_cast [r, s2, z1z1, natCast_residue hp]
    ring
  rw [← hu1, ← hs1, ← hH, ← hR]
  simp only [ne_eq, show (h : ZMod p) = 0 ↔ h = 0 from natCast_residue_eq_zero_iff hp _,
    show (r : ZMod p) = 0 ↔ r = 0 from natCast_residue_eq_zero_iff hp _]
  by_cases h0 : h = 0
  · by_cases r0 : r = 0
    · exact .inr (.inl ⟨h0, r0, (if_neg fun hc => hc.2 r0).trans (if_pos ⟨h0, r0⟩)⟩)
    · exact .inl ⟨h0, r0, if_pos ⟨h0, r0⟩⟩
  · refine .inr (.inr ⟨h0, _, _, _, (if_neg fun hc => h0 hc.1).trans (if_neg fun hc => h0 hc.1), ?_, ?_, ?_⟩) <;>
      · push_cast [x3, v, hhh, hh, natCast_residue hp]
        ring

/-- Settles O46: the cases are R184's, and in the last one Z decides. -/
theorem jacobianAddition : Obligations.JacobianAddition := by
  refine fun p a pt qt hp => ⟨jadd_of_left_infinity p a qt, jadd_of_right_infinity p a, fun hpt hqt => ?_⟩
  change (jaddH p pt qt = 0 → jaddR p pt qt ≠ 0 → _) ∧ (jaddH p pt qt = 0 → jaddR p pt qt = 0 → _) ∧
    (jaddH p pt qt ≠ 0 → pt.z * qt.z * jaddH p pt qt = 0 → _) ∧ _
  obtain ⟨hh, hr, hq⟩ | ⟨hh, hr, hq⟩ | ⟨hh, x3, y3, z3, hq, hx3, hy3, hz3⟩ := jadd_cases hp a hpt hqt
  · exact ⟨fun _ _ => hq, fun _ h => absurd h hr, fun h => absurd hh h, fun h => absurd hh h⟩
  · exact ⟨fun _ h => absurd hr h, fun _ _ => hq, fun h => absurd hh h, fun h => absurd hh h⟩
  · refine ⟨fun h => absurd h hh, fun h => absurd h hh,
      fun _ h => hq.trans (residuesJ_of_z_eq_zero hp x3 y3 (hz3.trans h)), fun _ h => ⟨_, hq, ?_⟩⟩
    obtain ⟨hltx, hlty, hposz, hltz, hx, hy, hz⟩ := residuesJ_of_z_ne_zero hp x3 y3 (hz3.trans_ne h)
    rw [hx]
    exact ⟨hltx, hlty, hposz, hltz, hx3, hy.trans hy3, hz.trans hz3⟩

end Sys2Proof.Machine
end

section
/-! The point and conversion commands (43_point.md R185 to R190): their words, and the point each of them completes
with. -/

namespace Sys2Proof.Machine

/-! ### Point bases (R33, R101) -/

theorem affineBase_iff (r : Reg) : r.affineBase = true ↔ r ≤ 14 := decide_eq_true_iff

theorem jacobianBase_iff (r : Reg) : r.jacobianBase = true ↔ r ≤ 13 := decide_eq_true_iff

/-- A packed word with an operand outside its class fails a row's checks. -/
theorem checked_pack_of_not_admits {opc : BitVec 8} {ms s : Bool} {rd ra rb : Reg} {krd kra krb : FieldClass}
    (msAllowed sAllowed : Bool) (i : Instr) (h : (krd.admits rd && kra.admits ra && krb.admits rb) = false) :
    checked (pack opc ms s rd ra rb) krd kra krb msAllowed sAllowed i = .error .illegalOperand := by
  simp [checked, h]

/-- The word of a command with a base out of range is refused (R33, R105). -/
theorem decode_encode_of_not_wf {i : Instr} (h : i.wf = false) : decode (encode i) = .error .illegalOperand := by
  cases i
  all_goals
    simp only [encode, decode, fieldOpc_pack, fieldMs_pack, fieldS_pack, fieldRd_pack, fieldRa_pack, fieldRb_pack]
    apply checked_pack_of_not_admits
    simp_all [Instr.wf, FieldClass.admits]

/-! ### What the commands over slot P share -/

/-- A command over slot P, its word and its endings: `legal` are the statement's bounds on the bases, `Q` is what it
says of the completion. -/
theorem pointCommand_result {i : Instr} {c : Word} {s : State} {k : Nat → Nat → State} {legal Q : Prop}
    (hlegal : i.wf = true ↔ legal) (hword : encode i = c) (hexec : exec i s = withCurve i.wf s k)
    (hq : exec i s = .next (k s.slotP.mod s.coeff) → Q) :
    (legal → decode c = .ok i ∧ (s.slotP.v = false → exec i s = .next (failedState .modInvalid s)) ∧
      (s.slotP.v = true → Q)) ∧
    (¬ legal → decode c = .error .illegalOperand) := by
  rw [← hlegal, Bool.not_eq_true, ← hword]
  refine ⟨fun hwf => ?_, decode_encode_of_not_wf⟩
  rw [hwf] at hexec
  exact ⟨decode_encode hwf, fun hv => hexec.trans (withCurve_invalid k hv), fun hv =>
    hq (hexec.trans (withCurve_valid k hv))⟩

theorem slotsKept_of_pointCommand {i : Instr} {s t : State} (hi : isPointCommand i = true) (h : exec i s = .next t) :
    SlotsKept s t := by
  refine slotsKept_of_exec h ?_ ?_
  · rintro ms ra rfl
    cases hi
  · rintro ra rfl
    cases hi

section
variable {i : Instr} {rd : Reg} {s : State} (hi : isPointCommand i = true)
include hi

/-- The completion with an affine point (R185, R186, R190, R211). -/
theorem affineCompletion {r : APoint × Bool} (hd : commandDests i = [rd, rd + 1])
    (hrun : exec i s = .next (writeAffine rd r s)) :
    ∃ t q, exec i s = .next t ∧ Ran s t [rd, rd + 1] ∧ SlotsKept s t ∧ q = r ∧ t.x rd = q.1.x ∧
      t.x (rd + 1) = q.1.y ∧ t.flags = ⟨decide (q.1 = ⟨0, 0⟩), decide (q.1 = ⟨0, 0⟩), q.2, false⟩ := by
  have hxa : (writeAffine rd r s).xa rd = r.1 := xa_writeAffine_self rd r s
  exact ⟨_, r, hrun, hd ▸ ran_of_exec hrun rfl, slotsKept_of_pointCommand hi hrun, rfl, congrArg APoint.x hxa,
    congrArg APoint.y hxa, rfl⟩

/-- The completion with a Jacobian point (R187, R188, R189, R212). -/
theorem jacobianCompletion {r : JPoint} (hd : commandDests i = [rd, rd + 1, rd + 2])
    (hrun : exec i s = .next (writeJacobian rd r s)) :
    ∃ t q, exec i s = .next t ∧ Ran s t [rd, rd + 1, rd + 2] ∧ SlotsKept s t ∧ q = r ∧ t.x rd = q.x ∧
      t.x (rd + 1) = q.y ∧ t.x (rd + 2) = q.z ∧
      t.flags = ⟨decide (q = ⟨1, 1, 0⟩), decide (q = ⟨1, 1, 0⟩), false, false⟩ := by
  have hxj : (writeJacobian rd r s).xj rd = r := xj_writeJacobian_self rd r s
  exact ⟨_, r, hrun, hd ▸ ran_of_exec hrun rfl, slotsKept_of_pointCommand hi hrun, rfl, congrArg JPoint.x hxj,
    congrArg JPoint.y hxj, congrArg JPoint.z hxj, rfl⟩

end

/-! ### Addition and doubling (R185 to R188) -/

section
variable (rd ra rb : Reg) (s : State)

theorem exec_padda : exec (.padda rd ra rb) s = withCurve (Instr.padda rd ra rb).wf s fun p a =>
    writeAffine rd (aadd p a (canonA (s.xa ra) p) (canonA (s.xa rb) p)) s := rfl

theorem exec_pdbla : exec (.pdbla rd ra) s = withCurve (Instr.pdbla rd ra).wf s fun p a =>
    writeAffine rd (adbl p a (canonA (s.xa ra) p)) s := rfl

theorem exec_paddj : exec (.paddj rd ra rb) s = withCurve (Instr.paddj rd ra rb).wf s fun p a =>
    writeJacobian rd (jadd p a (canonJ (s.xj ra) p) (canonJ (s.xj rb) p)) s := rfl

theorem exec_pdblj : exec (.pdblj rd ra) s = withCurve (Instr.pdblj rd ra).wf s fun p a =>
    writeJacobian rd (jdbl p a (canonJ (s.xj ra) p)) s := rfl

end

/-- Settles O47: PADDA commits AADD of the canonicalised points. -/
theorem paddaResult : Obligations.PaddaResult := fun rd ra rb _ =>
  pointCommand_result (by simp only [Instr.wf, Bool.and_eq_true, affineBase_iff, and_assoc])
    (pack_eq_formatC 0x20 false false rd ra rb) (exec_padda rd ra rb _) (affineCompletion rfl rfl)

/-- Settles O48: PDBLA commits ADBL of the canonicalised point. -/
theorem pdblaResult : Obligations.PdblaResult := fun rd ra _ =>
  pointCommand_result (by simp only [Instr.wf, Bool.and_eq_true, affineBase_iff])
    (pack_eq_formatC 0x21 false false rd ra 0) (exec_pdbla rd ra _) (affineCompletion rfl rfl)

/-- Settles O49: PADDJ commits JADD of the canonicalised points. -/
theorem paddjResult : Obligations.PaddjResult := fun rd ra rb _ =>
  pointCommand_result (by simp only [Instr.wf, Bool.and_eq_true, jacobianBase_iff, and_assoc])
    (pack_eq_formatC 0x28 false false rd ra rb) (exec_paddj rd ra rb _) (jacobianCompletion rfl rfl)

/-- Settles O50: PDBLJ commits JDBL of the canonicalised point. -/
theorem pdbljResult : Obligations.PdbljResult := fun rd ra _ =>
  pointCommand_result (by simp only [Instr.wf, Bool.and_eq_true, jacobianBase_iff])
    (pack_eq_formatC 0x29 false false rd ra 0) (exec_pdblj rd ra _) (jacobianCompletion rfl rfl)

/-! ### Conversions (R189, R190) -/

theorem exec_a2j (rd ra : Reg) (s : State) : exec (.a2j rd ra) s = withCurve (Instr.a2j rd ra).wf s fun p _ =>
    writeJacobian rd (toJacobian p (canonA (s.xa ra) p)) s := rfl

theorem exec_j2a (rd ra : Reg) (s : State) : exec (.j2a rd ra) s = withCurve (Instr.j2a rd ra).wf s fun p _ =>
    writeAffine rd (toAffine p (canonJ (s.xj ra) p)) s := rfl

/-- The conversion to Jacobian coordinates gives infinity for infinity alone: no residues mod `p` are those of
`INF_J`, for Z is 0 only where `p = 1` and then X is not 1. -/
theorem toJacobian_eq_infJ_iff (pt : APoint) (p : Nat) : toJacobian p (canonA pt p) = infJ ↔ canonA pt p = infA := by
  refine ⟨fun h => ?_, fun h => if_pos h⟩
  by_contra hne
  rw [toJacobian, if_neg hne, infJ, JPoint.mk.injEq] at h
  obtain ⟨hx, -, hz⟩ := h
  obtain rfl : p = 1 := by
    by_contra h1
    rw [Nat.one_mod_eq_one.mpr h1] at hz
    cases hz
  simp [canonA, Nat.mod_one] at hx

/-- Settles O51: A2J commits the conversion of the canonicalised point, and its flags test for infinity. -/
theorem a2jResult : Obligations.A2jResult := by
  intro rd ra s
  refine pointCommand_result (by simp only [Instr.wf, Bool.and_eq_true, affineBase_iff, jacobianBase_iff])
    (pack_eq_formatC 0x30 false false rd ra 0) (exec_a2j rd ra s) fun hrun => ?_
  obtain ⟨t, q, hrun, hran, hkept, rfl, hx, hy, hz, hflags⟩ := jacobianCompletion rfl rfl hrun
  have hinf : (s.x ra % s.slotP.mod = 0 ∧ s.x (ra + 1) % s.slotP.mod = 0) ↔
      canonA (s.xa ra) s.slotP.mod = infA := (APoint.mk.injEq ..).to_iff.symm
  refine ⟨t, hrun, hran, hkept, fun h => ?_, fun h => ?_, fun _ => ?_⟩
  · rw [hx, hy, hz, toJacobian, if_pos (hinf.mp (of_decide_eq_true h))]
    exact ⟨rfl, rfl, rfl⟩
  · rw [hx, hy, hz, toJacobian, if_neg (hinf.not.mp (of_decide_eq_false h))]
    exact ⟨rfl, rfl, rfl⟩
  · rw [hflags]
    simp only [hinf, ← toJacobian_eq_infJ_iff]
    rfl

section
variable {p : Nat} {pt : JPoint}

theorem toAffine_canonJ_of_z_eq_zero (hz : pt.z % p = 0) : toAffine p (canonJ pt p) = (infA, false) := by
  rw [canonJ, if_pos hz]
  rfl

variable (hp : 0 < p) (hz : pt.z % p ≠ 0)
include hp hz

/-- Without an inverse of Z both products are 0 (R190). -/
theorem toAffine_canonJ_of_not_coprime (h : Nat.gcd pt.z p ≠ 1) : toAffine p (canonJ pt p) = (infA, true) := by
  have hinv : inv ((pt.z % p : Nat) : Int) p = (0, true) :=
    inv_of_not_coprime hp (by rwa [← Nat.gcd_rec, Nat.gcd_comm])
  rw [canonJ, if_neg hz, toAffine, if_neg hz, hinv]
  simp [residue, infA]

/-- With one, the result is the point `(X / Z^2, Y / Z^3)` (R18, R190). -/
theorem toAffine_canonJ_of_coprime (h : Nat.gcd pt.z p = 1) :
    (toAffine p (canonJ pt p)).2 = false ∧ (toAffine p (canonJ pt p)).1.x * pt.z ^ 2 % p = pt.x % p ∧
      (toAffine p (canonJ pt p)).1.y * pt.z ^ 3 % p = pt.y % p := by
  have hgcd : Int.gcd ((pt.z % p : Nat) : Int) p = 1 := by
    rwa [Int.gcd_natCast_natCast, ← Nat.gcd_rec, Nat.gcd_comm]
  have hone : (pt.z : ZMod p) * (inv ((pt.z % p : Nat) : Int) p).1 = 1 := by
    have h1 := intCast_mul_inv hp hgcd
    rwa [Int.cast_natCast, ZMod.natCast_mod] at h1
  have hni := inv_snd_of_gcd_eq_one hp hgcd
  rw [canonJ, if_neg hz, toAffine, if_neg hz]
  dsimp only
  generalize inv ((pt.z % p : Nat) : Int) p = zi at hone hni ⊢
  simp only [← ZMod.natCast_eq_natCast_iff']
  refine ⟨hni, ?_, ?_⟩
  · push_cast [natCast_residue hp, ZMod.natCast_mod]
    linear_combination (pt.x : ZMod p) * (pt.z * zi.1 + 1) * hone
  · push_cast [natCast_residue hp, ZMod.natCast_mod]
    linear_combination (pt.y : ZMod p) * ((pt.z * zi.1) ^ 2 + pt.z * zi.1 + 1) * hone

end

/-- Settles O52: J2A commits the conversion of the canonicalised point, whose three cases are Z's. -/
theorem j2aResult : Obligations.J2aResult := by
  intro rd ra s
  refine pointCommand_result (by simp only [Instr.wf, Bool.and_eq_true, affineBase_iff, jacobianBase_iff])
    (pack_eq_formatC 0x31 false false rd ra 0) (exec_j2a rd ra s) fun hrun hp => ?_
  obtain ⟨t, q, hrun, hran, hkept, hq, hx, hy, hflags⟩ := affineCompletion rfl rfl hrun
  have hinf : q.1 = ⟨0, 0⟩ ↔ q.1.x = 0 ∧ q.1.y = 0 := (APoint.mk.injEq ..).to_iff
  refine ⟨t, hrun, hran, hkept, ?_⟩
  rw [hx, hy, hflags]
  refine ⟨rfl, decide_eq_decide.mpr hinf, rfl, fun hz => ?_, fun hz hgcd => ?_, fun hz hgcd => ?_⟩
  · rw [hq, toAffine_canonJ_of_z_eq_zero hz]
    exact ⟨rfl, rfl, rfl⟩
  · rw [hq, toAffine_canonJ_of_not_coprime hp hz hgcd]
    exact ⟨rfl, rfl, rfl⟩
  · obtain ⟨hltx, hlty⟩ := below_toAffine hp (canonJ (s.xj ra) s.slotP.mod)
    obtain ⟨hni, hX, hY⟩ := toAffine_canonJ_of_coprime (pt := s.xj ra) hp hz hgcd
    rw [hq]
    exact ⟨hltx, hlty, hni, hX, hY⟩

end Sys2Proof.Machine
end

section
/-! The scalar loop (44_scalar.md R210): the last iteration for `2d + b` follows the whole loop for `d`, so what one
iteration does to a total for `d`, the loop does along the scalar's bits. -/

namespace Sys2Proof.Machine

/-! ### One more bit at the low end -/

theorem bitlen_two_mul_add {d : Nat} {b : Bool} (h : 0 < 2 * d + b.toNat) :
    bitlen (2 * d + b.toNat) = bitlen d + 1 := by
  have hb : b.toNat < 2 := b.toNat_lt
  have hdiv : (2 * d + b.toNat) / 2 = d := by omega
  rw [bitlen, if_neg h.ne', Nat.log2_def, hdiv, bitlen]
  by_cases hd : d = 0
  · rw [if_pos hd, if_neg (by omega)]
  · rw [if_neg hd, if_pos (by omega)]

theorem testBit_two_mul_add_zero (d : Nat) (b : Bool) : (2 * d + b.toNat).testBit 0 = b := by
  rw [← Nat.bit_val, Nat.testBit_bit_zero]

theorem testBit_two_mul_add_succ (d : Nat) (b : Bool) (k : Nat) :
    (2 * d + b.toNat).testBit (k + 1) = d.testBit k := by
  rw [← Nat.bit_val, Nat.testBit_bit_succ]

section
variable {σ : Type} (body : Bool → σ → σ) (start : σ) {d : Nat} {b : Bool} (h : 0 < 2 * d + b.toNat)
include h

/-- Until its last iteration the loop for `2d + b` sees the bits of `d`. -/
theorem ladderAfter_two_mul_add {n : Nat} (hn : n ≤ bitlen d) :
    ladderAfter body start (2 * d + b.toNat) n = ladderAfter body start d n := by
  induction n with
  | zero => rfl
  | succ n ih =>
    have hbit : bitlen (2 * d + b.toNat) - 1 - n = bitlen d - 1 - n + 1 := by rw [bitlen_two_mul_add h]; omega
    rw [ladderAfter_succ, ladderAfter_succ, ih (Nat.le_of_succ_le hn), hbit, testBit_two_mul_add_succ]

theorem ladder_two_mul_add : ladderAfter body start (2 * d + b.toNat) (bitlen (2 * d + b.toNat)) =
    body b (ladderAfter body start d (bitlen d)) := by
  rw [bitlen_two_mul_add h, ladderAfter_succ, ladderAfter_two_mul_add body start h le_rfl, bitlen_two_mul_add h,
    Nat.add_sub_cancel, Nat.sub_self, testBit_two_mul_add_zero]

end

/-- Settles O53: the last iteration is the body on the loop for `d`. -/
theorem scalarLoopByBits : Obligations.ScalarLoopByBits :=
  ⟨fun p a pt => ⟨rfl, fun _ _ => ladder_two_mul_add (jacobianBody p a pt) infJ⟩,
    fun p a pt => ⟨rfl, fun d b h =>
      (ladder_two_mul_add (affineBody p a pt) (infA, false) h).trans (by cases b <;> rfl)⟩⟩

/-- Where one iteration takes a total that stands for `g` to one that stands for `2g + bq`, the loop ends in one that
stands for `dq`. -/
theorem ladder_represents {σ G : Type} [AddMonoid G] {body : Bool → σ → σ} {start : σ} {rep : σ → G → Prop} {q : G}
    (base : rep start 0) (next : ∀ b r g, rep r g → rep (body b r) (2 • g + b.toNat • q)) (d : Nat) :
    rep (ladderAfter body start d (bitlen d)) (d • q) := by
  induction d using Nat.binaryRec' with
  | zero => simpa using base
  | bit b d hbit ih =>
    have hpos : 0 < 2 * d + b.toNat := by
      obtain rfl | hd := Nat.eq_zero_or_pos d
      · simp [hbit rfl]
      · omega
    rw [Nat.bit_val, ladder_two_mul_add body start hpos, add_nsmul, mul_nsmul']
    exact next b _ _ ih

end Sys2Proof.Machine
end

section
/-! The point functions in the curve's group (43_point.md R181 to R184, R189, R190; 44_scalar.md R213): over a prime `p`
above 2, on a curve where `(0, 0)` is no point, each of them computes the group's operation and no inversion fails. -/

namespace Sys2Proof.Machine

open WeierstrassCurve.Affine

/-! ### The prime field -/

theorem natCast_eq_iff_of_lt {p x y : Nat} (hx : x < p) (hy : y < p) : (x : ZMod p) = y ↔ x = y := by
  rw [ZMod.natCast_eq_natCast_iff', Nat.mod_eq_of_lt hx, Nat.mod_eq_of_lt hy]

theorem natCast_eq_zero_iff_of_lt {p x : Nat} (hx : x < p) : (x : ZMod p) = 0 ↔ x = 0 := by
  rw [← Nat.cast_zero, natCast_eq_iff_of_lt hx (Nat.zero_lt_of_lt hx)]

theorem gcd_eq_one_of_intCast_ne_zero {p : Nat} [hp : Fact p.Prime] {a : Int} (h : (a : ZMod p) ≠ 0) :
    Int.gcd a p = 1 := by
  rw [Int.gcd_comm, ← Int.isCoprime_iff_gcd_eq_one, (Nat.prime_iff_prime_int.mp hp.out).coprime_iff_not_dvd]
  rwa [ne_eq, ZMod.intCast_zmod_eq_zero_iff_dvd] at h

variable {p : Nat} [Fact p.Prime]

/-! ### The group law of `y^2 = x^3 + a*x + b` -/

section
variable {a b x x1 x2 y y1 y2 l : ZMod p}

theorem curve_negY : (curve p a b).negY x y = -y := by simp [negY, curve]

theorem curve_addX : (curve p a b).addX x1 x2 l = l ^ 2 - x1 - x2 := by simp [addX, curve]

theorem curve_addY : (curve p a b).addY x1 x2 y1 l = l * (x1 - (curve p a b).addX x1 x2 l) - y1 := by
  rw [addY, negAddY, curve_negY]
  ring

/-- A chord's slope (R181). -/
theorem curve_slope_chord (hx : x1 ≠ x2) : (curve p a b).slope x1 x2 y1 y2 * (x2 - x1) = y2 - y1 := by
  have hne : x1 - x2 ≠ 0 := sub_ne_zero.mpr hx
  rw [slope_of_X_ne hx]
  field_simp
  ring

/-- A tangent's slope (R182). -/
theorem curve_slope_tangent (h2 : (2 : ZMod p) ≠ 0) (hy : y ≠ 0) :
    (curve p a b).slope x x y y * (2 * y) = 3 * x ^ 2 + a := by
  have hne : y ≠ (curve p a b).negY x y := by
    rw [curve_negY, ne_eq, eq_neg_iff_add_eq_zero, ← two_mul]
    exact mul_ne_zero h2 hy
  rw [slope_of_Y_ne rfl hne, curve_negY, sub_neg_eq_add, ← two_mul, div_mul_cancel₀ _ (mul_ne_zero h2 hy)]
  simp [curve]

/-- Two points of the group with one abscissa are equal or opposite. -/
theorem some_add_some_of_y_ne (n1 : (curve p a b).Nonsingular x y1) (n2 : (curve p a b).Nonsingular x y2)
    (hy : y1 ≠ y2) : (Point.some _ _ n1 + Point.some _ _ n2 : (curve p a b).Point) = 0 :=
  Point.add_of_Y_eq rfl ((Y_eq_of_X_eq n1.1 n2.1 rfl).resolve_left hy)

theorem some_add_self_of_y_eq_zero (n : (curve p a b).Nonsingular x y) (hy : y = 0) :
    (Point.some _ _ n + Point.some _ _ n : (curve p a b).Point) = 0 :=
  Point.add_self_of_Y_eq (by rw [curve_negY, hy, neg_zero])

theorem not_opposite_self (h2 : (2 : ZMod p) ≠ 0) (hy : y ≠ 0) : ¬ (x = x ∧ y = (curve p a b).negY x y) := by
  rw [curve_negY, eq_neg_iff_add_eq_zero, ← two_mul]
  exact fun h => mul_ne_zero h2 hy h.2

end

variable {a : Nat} {b : ZMod p}

/-! ### Affine points -/

theorem apoint_eq {pt qt : APoint} (hx : pt.x = qt.x) (hy : pt.y = qt.y) : pt = qt := by
  cases pt
  cases qt
  exact (APoint.mk.injEq ..).mpr ⟨hx, hy⟩

theorem representsA_infA : RepresentsA infA (0 : (curve p a b).Point) := .inl ⟨rfl, rfl⟩

theorem representsA_some {pt : APoint} {x y : ZMod p} (n : (curve p a b).Nonsingular x y) (hx : pt.x < p)
    (hy : pt.y < p) (hX : (pt.x : ZMod p) = x) (hY : (pt.y : ZMod p) = y) : RepresentsA pt (Point.some _ _ n) := by
  subst hX hY
  exact .inr ⟨hx, hy, n, rfl⟩

/-- `(0, 0)` is free to stand for infinity: it satisfies no equation with `b ≠ 0` (R16). -/
theorem ne_infA_of_nonsingular {pt : APoint} (hb : b ≠ 0) (n : (curve p a b).Nonsingular (pt.x : ZMod p) pt.y) :
    pt ≠ infA := by
  rintro rfl
  have heq := (equation_iff ..).mp n.1
  simp [curve, infA, hb.symm] at heq

/-- A point of the group has one representation. -/
theorem RepresentsA.unique {pt pt' : APoint} {q : (curve p a b).Point} (h : RepresentsA pt q)
    (h' : RepresentsA pt' q) : pt = pt' := by
  obtain ⟨rfl, rfl⟩ | ⟨hx, hy, n, rfl⟩ := h
  · obtain ⟨rfl, -⟩ | ⟨-, -, n, hq⟩ := h'
    · rfl
    · exact absurd hq.symm (Point.some_ne_zero n)
  · obtain ⟨-, hq⟩ | ⟨hx', hy', n', hq⟩ := h'
    · exact absurd hq (Point.some_ne_zero n)
    · obtain ⟨hX, hY⟩ := (Point.some.injEq ..).mp hq
      rw [natCast_eq_iff_of_lt hx hx'] at hX
      rw [natCast_eq_iff_of_lt hy hy'] at hY
      exact apoint_eq hX hY

/-- Where the slope of the group law is the quotient, the line gives the group's sum. -/
theorem representsA_linePoint {pt qt : APoint} {num den : Int}
    (n : (curve p a b).Nonsingular (pt.x : ZMod p) pt.y) (n' : (curve p a b).Nonsingular (qt.x : ZMod p) qt.y)
    (hxy : ¬ ((pt.x : ZMod p) = qt.x ∧ (pt.y : ZMod p) = (curve p a b).negY qt.x qt.y)) (hden : (den : ZMod p) ≠ 0)
    (hslope : (curve p a b).slope (pt.x : ZMod p) qt.x pt.y qt.y * den = num) :
    RepresentsA (linePoint p num den pt qt.x).1 (Point.some _ _ n + Point.some _ _ n' : (curve p a b).Point) ∧
      (linePoint p num den pt qt.x).2 = false := by
  obtain ⟨r, ni, lam, hr, hrx, hry, hni, hlam, -, hX, hY⟩ :=
    linePoint_spec (Nat.pos_of_neZero p) num den pt qt.x
  have hfalse : ni = false := by
    rw [← Bool.not_eq_true, hni, not_not]
    exact gcd_eq_one_of_intCast_ne_zero hden
  have hl : lam = (curve p a b).slope (pt.x : ZMod p) qt.x pt.y qt.y :=
    mul_right_cancel₀ hden ((hlam hfalse).trans hslope.symm)
  rw [hr, Point.add_some hxy]
  rw [hl, ← curve_addX] at hX
  rw [hl, hX, ← curve_addY] at hY
  exact ⟨representsA_some _ hrx hry hX hY, hfalse⟩

section
variable (h2 : (2 : ZMod p) ≠ 0)
include h2

theorem representsA_adbl {pt : APoint} {q : (curve p a b).Point} (h : RepresentsA pt q) :
    RepresentsA (adbl p a pt).1 (q + q) ∧ (adbl p a pt).2 = false := by
  obtain ⟨rfl, rfl⟩ | ⟨hx, hy, n, rfl⟩ := h
  · rw [adbl_of_y_eq_zero p a rfl, add_zero]
    exact ⟨representsA_infA, rfl⟩
  · by_cases hy0 : (pt.y : ZMod p) = 0
    · rw [adbl_of_y_eq_zero p a ((natCast_eq_zero_iff_of_lt hy).mp hy0), some_add_self_of_y_eq_zero n hy0]
      exact ⟨representsA_infA, rfl⟩
    · rw [adbl_of_y_ne_zero p a ((natCast_eq_zero_iff_of_lt hy).not.mp hy0)]
      refine representsA_linePoint n n (not_opposite_self h2 hy0) ?_ ?_
      · exact_mod_cast mul_ne_zero h2 hy0
      · push_cast
        rw [curve_slope_tangent h2 hy0]
        ring

variable (hb : b ≠ 0)
include hb

theorem representsA_aadd {pt qt : APoint} {q q' : (curve p a b).Point} (h : RepresentsA pt q)
    (h' : RepresentsA qt q') : RepresentsA (aadd p a pt qt).1 (q + q') ∧ (aadd p a pt qt).2 = false := by
  have hrep := h
  obtain ⟨rfl, rfl⟩ | ⟨hx, hy, n, rfl⟩ := h
  · change RepresentsA (aadd p a infA qt).1 _ ∧ (aadd p a infA qt).2 = false
    rw [zero_add, aadd_infA_left]
    exact ⟨h', rfl⟩
  have hpt := ne_infA_of_nonsingular hb n
  obtain ⟨rfl, rfl⟩ | ⟨hx', hy', n', rfl⟩ := h'
  · change RepresentsA (aadd p a pt infA).1 _ ∧ (aadd p a pt infA).2 = false
    rw [add_zero, aadd_infA_right p a hpt]
    exact ⟨hrep, rfl⟩
  have hqt := ne_infA_of_nonsingular hb n'
  by_cases hX : pt.x = qt.x
  · by_cases hY : pt.y = qt.y
    · obtain rfl : pt = qt := apoint_eq hX hY
      rw [aadd_self p a hpt]
      exact representsA_adbl h2 hrep
    · rw [aadd_vertical p a hpt hqt hX hY]
      obtain ⟨x', y'⟩ := qt
      obtain rfl : pt.x = x' := hX
      rw [some_add_some_of_y_ne n n' ((natCast_eq_iff_of_lt hy hy').not.mpr hY)]
      exact ⟨representsA_infA, rfl⟩
  · have hX' : (pt.x : ZMod p) ≠ qt.x := (natCast_eq_iff_of_lt hx hx').not.mpr hX
    rw [aadd_of_x_ne p a hpt hqt hX]
    refine representsA_linePoint n n' (fun h => hX' h.1) ?_ ?_
    · push_cast
      exact sub_ne_zero.mpr hX'.symm
    · push_cast
      exact curve_slope_chord hX'

/-- The loop over affine points computes the multiple, and no inversion of any candidate fails (R211, R213). -/
theorem representsA_ladderA (d : Nat) {pt : APoint} {q : (curve p a b).Point} (h : RepresentsA pt q) :
    RepresentsA (ladderA p a d pt).1 (d • q) ∧ (ladderA p a d pt).2 = false := by
  refine ladder_represents (rep := fun (r : APoint × Bool) g => RepresentsA r.1 g ∧ r.2 = false)
    ⟨representsA_infA, rfl⟩ ?_ d
  rintro bit r g ⟨hr, hni⟩
  obtain ⟨hdbl, hdni⟩ := representsA_adbl h2 hr
  obtain ⟨hadd, hani⟩ := representsA_aadd h2 hb hdbl h
  have hall : (r.2 || (adbl p a r.1).2 || (aadd p a (adbl p a r.1).1 pt).2) = false := by
    rw [hni, hdni, hani]
    rfl
  rw [two_nsmul]
  cases bit
  · rw [Bool.toNat_false, zero_nsmul, add_zero]
    exact ⟨hdbl, hall⟩
  · rw [Bool.toNat_true, one_nsmul]
    exact ⟨hadd, hall⟩

end

/-! ### Jacobian points -/

theorem representsJ_infJ : RepresentsJ infJ (0 : (curve p a b).Point) := .inl ⟨rfl, rfl⟩

/-- `(X * Z^2, Y * Z^3, Z)` stands for `(X, Y)` (R18). -/
theorem representsJ_some {pt : JPoint} {x y : ZMod p} (n : (curve p a b).Nonsingular x y) (hx : pt.x < p)
    (hy : pt.y < p) (hz0 : 0 < pt.z) (hz : pt.z < p) (hX : (pt.x : ZMod p) = x * (pt.z : ZMod p) ^ 2)
    (hY : (pt.y : ZMod p) = y * (pt.z : ZMod p) ^ 3) : RepresentsJ pt (Point.some _ _ n) := by
  have hne : (pt.z : ZMod p) ≠ 0 := (natCast_eq_zero_iff_of_lt hz).not.mpr hz0.ne'
  obtain rfl : (pt.x : ZMod p) / (pt.z : ZMod p) ^ 2 = x := by rw [hX, mul_div_cancel_right₀ _ (pow_ne_zero 2 hne)]
  obtain rfl : (pt.y : ZMod p) / (pt.z : ZMod p) ^ 3 = y := by rw [hY, mul_div_cancel_right₀ _ (pow_ne_zero 3 hne)]
  exact .inr ⟨hx, hy, hz0, hz, n, rfl⟩

/-- A Jacobian point of the group is `INF_J`, or of the form `(X * Z^2, Y * Z^3, Z)`. -/
theorem RepresentsJ.cases {pt : JPoint} {q : (curve p a b).Point} (h : RepresentsJ pt q) :
    (pt = infJ ∧ q = 0) ∨
    ((pt.x < p ∧ pt.y < p ∧ 0 < pt.z ∧ pt.z < p) ∧ (pt.z : ZMod p) ≠ 0 ∧
      ∃ (x y : ZMod p) (n : (curve p a b).Nonsingular x y), q = Point.some _ _ n ∧
        (pt.x : ZMod p) = x * (pt.z : ZMod p) ^ 2 ∧ (pt.y : ZMod p) = y * (pt.z : ZMod p) ^ 3) := by
  obtain h | ⟨hx, hy, hz0, hz, n, rfl⟩ := h
  · exact .inl h
  · have hne : (pt.z : ZMod p) ≠ 0 := (natCast_eq_zero_iff_of_lt hz).not.mpr hz0.ne'
    exact .inr ⟨⟨hx, hy, hz0, hz⟩, hne, _, _, n, rfl, (div_mul_cancel₀ _ (pow_ne_zero 2 hne)).symm,
      (div_mul_cancel₀ _ (pow_ne_zero 3 hne)).symm⟩

theorem representsJ_residuesJ {x3 y3 z3 : Int} {x y : ZMod p} (n : (curve p a b).Nonsingular x y)
    (hz : (z3 : ZMod p) ≠ 0) (hx : (x3 : ZMod p) = x * (z3 : ZMod p) ^ 2) (hy : (y3 : ZMod p) = y * (z3 : ZMod p) ^ 3) :
    RepresentsJ (residuesJ p x3 y3 z3) (Point.some _ _ n) := by
  obtain ⟨hltx, hlty, hposz, hltz, hX, hY, hZ⟩ := residuesJ_of_z_ne_zero (Nat.pos_of_neZero p) x3 y3 hz
  exact representsJ_some n hltx hlty hposz hltz (by rw [hX, hZ, hx]) (by rw [hY, hZ, hy])

/-- The tangent's point, scaled as R183's formula leaves it. -/
theorem representsJ_tangent {x3 y3 z3 : Int} {x y z : ZMod p} (h2 : (2 : ZMod p) ≠ 0)
    (n : (curve p a b).Nonsingular x y) (hy : y ≠ 0) (hz : z ≠ 0)
    (hx3 : (x3 : ZMod p) = (3 * (x * z ^ 2) ^ 2 + a * z ^ 4) ^ 2 - 2 * (4 * (x * z ^ 2) * (y * z ^ 3) ^ 2))
    (hy3 : (y3 : ZMod p) = (3 * (x * z ^ 2) ^ 2 + a * z ^ 4) * (4 * (x * z ^ 2) * (y * z ^ 3) ^ 2 - x3)
      - 8 * (y * z ^ 3) ^ 4)
    (hz3 : (z3 : ZMod p) = 2 * (y * z ^ 3) * z) :
    RepresentsJ (residuesJ p x3 y3 z3) (Point.some _ _ n + Point.some _ _ n : (curve p a b).Point) := by
  have hl := curve_slope_tangent (a := (a : ZMod p)) (b := b) (x := x) h2 hy
  have hX : (x3 : ZMod p) = (curve p a b).addX x x ((curve p a b).slope x x y y) * (z3 : ZMod p) ^ 2 := by
    rw [curve_addX, hx3, hz3]
    linear_combination -z ^ 8 * ((curve p a b).slope x x y y * (2 * y) + 3 * x ^ 2 + a) * hl
  rw [Point.add_some (not_opposite_self h2 hy)]
  refine representsJ_residuesJ _ ?_ hX ?_
  · rw [hz3]
    exact mul_ne_zero (mul_ne_zero h2 (mul_ne_zero hy (pow_ne_zero 3 hz))) hz
  · rw [curve_addY, hy3, hX, hz3]
    linear_combination -4 * y ^ 2 * z ^ 12 * (x - (curve p a b).addX x x ((curve p a b).slope x x y y)) * hl

/-- The chord's point, scaled as R184's formula leaves it: `w` is the product of both Z. -/
theorem representsJ_chord {x3 y3 z3 : Int} {x1 x2 y1 y2 w : ZMod p} (n : (curve p a b).Nonsingular x1 y1)
    (n' : (curve p a b).Nonsingular x2 y2) (hx : x1 ≠ x2) (hw : w ≠ 0)
    (hx3 : (x3 : ZMod p) = ((y2 - y1) * w ^ 3) ^ 2 - ((x2 - x1) * w ^ 2) ^ 3
      - 2 * (x1 * w ^ 2 * ((x2 - x1) * w ^ 2) ^ 2))
    (hy3 : (y3 : ZMod p) = (y2 - y1) * w ^ 3 * (x1 * w ^ 2 * ((x2 - x1) * w ^ 2) ^ 2 - x3)
      - y1 * w ^ 3 * ((x2 - x1) * w ^ 2) ^ 3)
    (hz3 : (z3 : ZMod p) = w * ((x2 - x1) * w ^ 2)) :
    RepresentsJ (residuesJ p x3 y3 z3) (Point.some _ _ n + Point.some _ _ n' : (curve p a b).Point) := by
  have hl := curve_slope_chord (a := (a : ZMod p)) (b := b) (y1 := y1) (y2 := y2) hx
  have hX : (x3 : ZMod p) = (curve p a b).addX x1 x2 ((curve p a b).slope x1 x2 y1 y2) * (z3 : ZMod p) ^ 2 := by
    rw [curve_addX, hx3, hz3, ← hl]
    ring
  rw [Point.add_some fun h => hx h.1]
  refine representsJ_residuesJ _ ?_ hX ?_
  · rw [hz3]
    exact mul_ne_zero hw (mul_ne_zero (sub_ne_zero.mpr hx.symm) (pow_ne_zero 2 hw))
  · rw [curve_addY, hy3, hX, hz3, ← hl]
    ring

section
variable (h2 : (2 : ZMod p) ≠ 0)
include h2

theorem representsJ_jdbl {pt : JPoint} {q : (curve p a b).Point} (h : RepresentsJ pt q) :
    RepresentsJ (jdbl p a pt) (q + q) := by
  obtain ⟨rfl, rfl⟩ | ⟨⟨-, hlty, hz0, -⟩, hz, x, y, n, rfl, hx, hy⟩ := h.cases
  · rw [jdbl_of_infinity p a (.inl rfl), add_zero]
    exact representsJ_infJ
  have hy0 : pt.y = 0 ↔ y = 0 := by
    rw [← natCast_eq_zero_iff_of_lt hlty, hy, mul_eq_zero_iff_right (pow_ne_zero 3 hz)]
  by_cases hy' : y = 0
  · rw [jdbl_of_infinity p a (.inr (hy0.mpr hy')), some_add_self_of_y_eq_zero n hy']
    exact representsJ_infJ
  · obtain ⟨x3, y3, z3, hq, hx3, hy3, hz3⟩ := jdbl_eq_residuesJ (Nat.pos_of_neZero p) a hz0.ne' (hy0.not.mpr hy')
    rw [hx, hy] at hx3 hy3
    rw [hy] at hz3
    rw [hq]
    exact representsJ_tangent h2 n hy' hz hx3 hy3 hz3

theorem representsJ_jadd {pt qt : JPoint} {q q' : (curve p a b).Point} (h : RepresentsJ pt q)
    (h' : RepresentsJ qt q') : RepresentsJ (jadd p a pt qt) (q + q') := by
  obtain ⟨rfl, rfl⟩ | ⟨⟨-, -, hz0, -⟩, hz, x1, y1, n, rfl, hx, hy⟩ := h.cases
  · rw [jadd_of_left_infinity p a qt rfl, zero_add]
    exact h'
  obtain ⟨rfl, rfl⟩ | ⟨⟨-, -, hz0', -⟩, hz', x2, y2, n', rfl, hx', hy'⟩ := h'.cases
  · rw [jadd_of_right_infinity p a hz0.ne' rfl, add_zero]
    exact h
  have hw : (pt.z * qt.z : ZMod p) ≠ 0 := mul_ne_zero hz hz'
  have hU : jaddU1 p pt qt = x1 * (pt.z * qt.z : ZMod p) ^ 2 := by rw [jaddU1, hx]; ring
  have hS : jaddS1 p pt qt = y1 * (pt.z * qt.z : ZMod p) ^ 3 := by rw [jaddS1, hy]; ring
  have hH : jaddH p pt qt = (x2 - x1) * (pt.z * qt.z : ZMod p) ^ 2 := by rw [jaddH, hU, hx']; ring
  have hR : jaddR p pt qt = (y2 - y1) * (pt.z * qt.z : ZMod p) ^ 3 := by rw [jaddR, hS, hy']; ring
  have hH0 : jaddH p pt qt = 0 ↔ x1 = x2 := by
    rw [hH, mul_eq_zero_iff_right (pow_ne_zero 2 hw), sub_eq_zero, eq_comm]
  have hR0 : jaddR p pt qt = 0 ↔ y1 = y2 := by
    rw [hR, mul_eq_zero_iff_right (pow_ne_zero 3 hw), sub_eq_zero, eq_comm]
  obtain ⟨hh, hr, hq⟩ | ⟨hh, hr, hq⟩ | ⟨hh, x3, y3, z3, hq, hx3, hy3, hz3⟩ :=
    jadd_cases (Nat.pos_of_neZero p) a hz0.ne' hz0'.ne'
  · obtain rfl := hH0.mp hh
    rw [hq, some_add_some_of_y_ne n n' (hR0.not.mp hr)]
    exact representsJ_infJ
  · obtain rfl := hH0.mp hh
    obtain rfl := hR0.mp hr
    rw [hq]
    exact representsJ_jdbl h2 h
  · rw [hU, hH, hR] at hx3
    rw [hU, hS, hH, hR] at hy3
    rw [hH] at hz3
    rw [hq]
    exact representsJ_chord n n' (hH0.not.mp hh) hw hx3 hy3 hz3

/-- The loop over Jacobian points computes the multiple (R212, R213). -/
theorem representsJ_ladderJ (d : Nat) {pt : JPoint} {q : (curve p a b).Point} (h : RepresentsJ pt q) :
    RepresentsJ (ladderJ p a d pt) (d • q) := by
  refine ladder_represents (rep := RepresentsJ) representsJ_infJ (fun bit r g hr => ?_) d
  have hdbl := representsJ_jdbl h2 hr
  rw [two_nsmul]
  cases bit
  · rw [Bool.toNat_false, zero_nsmul, add_zero]
    exact hdbl
  · rw [Bool.toNat_true, one_nsmul]
    exact representsJ_jadd h2 hdbl h

end

/-! ### Conversions -/

/-- A2J keeps the point (R189). -/
theorem representsJ_toJacobian (hb : b ≠ 0) {pt : APoint} {q : (curve p a b).Point} (h : RepresentsA pt q) :
    RepresentsJ (toJacobian p pt) q := by
  obtain ⟨rfl, rfl⟩ | ⟨hx, hy, n, rfl⟩ := h
  · exact representsJ_infJ
  · have hone : 1 % p = 1 := Nat.mod_eq_of_lt (Fact.out : p.Prime).one_lt
    rw [toJacobian, if_neg (ne_infA_of_nonsingular hb n), hone]
    exact representsJ_some n hx hy Nat.one_pos (Fact.out : p.Prime).one_lt (by simp) (by simp)

/-- A point of the group is canonical (R16). -/
theorem RepresentsJ.canonJ_eq {pt : JPoint} {q : (curve p a b).Point} (h : RepresentsJ pt q) : canonJ pt p = pt := by
  obtain ⟨rfl, -⟩ | ⟨hx, hy, hz0, hz, -⟩ := h
  · exact if_pos (Nat.zero_mod p)
  · rw [canonJ, Nat.mod_eq_of_lt hz, if_neg hz0.ne', Nat.mod_eq_of_lt hx, Nat.mod_eq_of_lt hy]

/-- J2A gives the point's affine form: Z is invertible (R190). -/
theorem representsA_toAffine {pt : JPoint} {q : (curve p a b).Point} (h : RepresentsJ pt q) :
    RepresentsA (toAffine p (canonJ pt p)).1 q ∧ (toAffine p (canonJ pt p)).2 = false := by
  obtain ⟨rfl, rfl⟩ | ⟨⟨-, -, hz0, hltz⟩, hz, x, y, n, rfl, hx, hy⟩ := h.cases
  · rw [toAffine_canonJ_of_z_eq_zero (Nat.zero_mod p)]
    exact ⟨representsA_infA, rfl⟩
  · have hgcd : Nat.gcd pt.z p = 1 := (Nat.coprime_of_lt_prime hz0.ne' hltz Fact.out).symm
    have hmod : pt.z % p ≠ 0 := by rw [Nat.mod_eq_of_lt hltz]; exact hz0.ne'
    obtain ⟨hltx, hlty⟩ := below_toAffine (Nat.pos_of_neZero p) (canonJ pt p)
    obtain ⟨hni, hX, hY⟩ := toAffine_canonJ_of_coprime (Nat.pos_of_neZero p) hmod hgcd
    rw [← ZMod.natCast_eq_natCast_iff'] at hX hY
    push_cast at hX hY
    rw [hx] at hX
    rw [hy] at hY
    exact ⟨representsA_some n hltx hlty (mul_right_cancel₀ (pow_ne_zero 2 hz) hX)
      (mul_right_cancel₀ (pow_ne_zero 3 hz) hY), hni⟩

end Sys2Proof.Machine
end

section
/-! Scalar multiplication as commands (44_scalar.md R211 to R213): the words, the completions, and for a point of the
curve's group the multiple that both paths write. -/

namespace Sys2Proof.Machine

section
variable (rd ra rb : Reg) (s : State)

theorem exec_pmula : exec (.pmula rd ra rb) s = withCurve (Instr.pmula rd ra rb).wf s fun p a =>
    writeAffine rd (ladderA p a (s.x ra) (canonA (s.xa rb) p)) s := rfl

theorem exec_pmulj : exec (.pmulj rd ra rb) s = withCurve (Instr.pmulj rd ra rb).wf s fun p a =>
    writeJacobian rd (ladderJ p a (s.x ra) (canonJ (s.xj rb) p)) s := rfl

end

/-- Settles O55: PMULA commits the loop's total for the raw scalar and the canonicalised point. -/
theorem pmulaResult : Obligations.PmulaResult := fun rd ra rb _ =>
  pointCommand_result (by simp only [Instr.wf, Bool.and_eq_true, affineBase_iff])
    (pack_eq_formatC 0x22 false false rd ra rb) (exec_pmula rd ra rb _) (affineCompletion rfl rfl)

/-- Settles O56: PMULJ commits the loop's total for the raw scalar and the canonicalised point. -/
theorem pmuljResult : Obligations.PmuljResult := fun rd ra rb _ =>
  pointCommand_result (by simp only [Instr.wf, Bool.and_eq_true, jacobianBase_iff])
    (pack_eq_formatC 0x2A false false rd ra rb) (exec_pmulj rd ra rb _) (jacobianCompletion rfl rfl)

/-! ### Both paths, as one write (R213) -/

theorem exec_pointCommand_valid {i : Instr} {s : State} {k : Nat → Nat → State} (hwf : i.wf = true)
    (hexec : exec i s = withCurve i.wf s k) (hv : s.slotP.v = true) :
    exec i s = .next (k s.slotP.mod s.coeff) := by
  rw [hexec, hwf]
  exact withCurve_valid k hv

@[simp] theorem slotP_writeJacobian (rd : Reg) (pt : JPoint) (s : State) :
    (writeJacobian rd pt s).slotP = s.slotP := rfl

@[simp] theorem coeff_writeJacobian (rd : Reg) (pt : JPoint) (s : State) :
    (writeJacobian rd pt s).coeff = s.coeff := rfl

theorem x_writeJacobian_ne (s : State) {rd r : Reg} (pt : JPoint) (h : r ≠ rd) (h1 : r ≠ rd + 1) (h2 : r ≠ rd + 2) :
    (writeJacobian rd pt s).x r = s.x r :=
  x_setXj_ne s pt h h1 h2

section
variable {rd ra rb : Reg} {s : State} (hrd : rd ≤ 14) (hrb : rb ≤ 14) (hv : s.slotP.v = true)
include hrd hrb hv

theorem exec_pmula_valid : exec (.pmula rd ra rb) s =
    .next (writeAffine rd (ladderA s.slotP.mod s.coeff (s.x ra) (canonA (s.xa rb) s.slotP.mod)) s) := by
  refine exec_pointCommand_valid ?_ (exec_pmula rd ra rb s) hv
  rw [Instr.wf, (affineBase_iff rd).mpr hrd, (affineBase_iff rb).mpr hrb, Bool.and_self]

/-- A2J, PMULJ and J2A through the register group `r`, which the scalar does not stand in. -/
theorem runCommands_a2j_pmulj_j2a {r : Reg} (hr : r ≤ 13) (h0 : ra ≠ r) (h1 : ra ≠ r + 1) (h2 : ra ≠ r + 2) :
    ∃ u, runCommands [.a2j r rb, .pmulj r ra r, .j2a rd r] s =
      .next (writeAffine rd (toAffine s.slotP.mod (canonJ (ladderJ s.slotP.mod s.coeff (s.x ra)
        (canonJ (toJacobian s.slotP.mod (canonA (s.xa rb) s.slotP.mod)) s.slotP.mod)) s.slotP.mod)) u) := by
  have hJ : r.jacobianBase = true := (jacobianBase_iff r).mpr hr
  have hA2j := exec_pointCommand_valid (by rw [Instr.wf, hJ, (affineBase_iff rb).mpr hrb, Bool.and_self])
    (exec_a2j r rb s) hv
  set s1 := writeJacobian r (toJacobian s.slotP.mod (canonA (s.xa rb) s.slotP.mod)) s
  have hPmulj := exec_pointCommand_valid (by rw [Instr.wf, hJ, Bool.and_self]) (exec_pmulj r ra r s1) hv
  rw [xj_writeJacobian_self, x_writeJacobian_ne s _ h0 h1 h2, slotP_writeJacobian, coeff_writeJacobian] at hPmulj
  set s2 := writeJacobian r (ladderJ _ _ _ _) s1
  have hJ2a := exec_pointCommand_valid (by rw [Instr.wf, hJ, (affineBase_iff rd).mpr hrd, Bool.and_self])
    (exec_j2a rd r s2) hv
  rw [xj_writeJacobian_self] at hJ2a
  exact ⟨s2, (runCommands_cons hA2j _).trans ((runCommands_cons hPmulj _).trans (runCommands_cons hJ2a _))⟩

end

/-! ### The group's multiple (R213) -/

theorem two_ne_zero_of_three_lt {p : Nat} (h : 3 < p) : (2 : ZMod p) ≠ 0 :=
  (natCast_eq_zero_iff_of_lt (x := 2) (by omega)).not.mpr two_ne_zero

/-- Settles O57: the loop computes the multiple in the group, where `n * q = 0` reduces the scalar mod `n`. -/
theorem pmulaIsGroupMultiple : Obligations.PmulaIsGroupMultiple := by
  intro p hp h3 s b rd ra rb q hb hrd hrb hv hmod hq
  have hrun := exec_pmula_valid (ra := ra) hrd hrb hv
  obtain ⟨hmul, hni⟩ := representsA_ladderA (two_ne_zero_of_three_lt h3) hb (s.x ra) hq
  rw [State.coeff, hmod] at hrun
  refine ⟨_, hrun, ?_, hni, fun n hn => ?_⟩
  · rwa [xa_writeAffine_self]
  · rwa [xa_writeAffine_self, ← nsmul_eq_mod_nsmul _ hn]

/-- Settles O58: both paths write a point that represents the same multiple, and the representation is unique. -/
theorem pmuljAgreesWithPmula : Obligations.PmuljAgreesWithPmula := by
  intro p hp h3 s b rd ra rb r q hb hrd hrb hr h0 h1 h2 hv hmod hq
  have hrun := exec_pmula_valid (ra := ra) hrd hrb hv
  obtain ⟨u, hrun'⟩ := runCommands_a2j_pmulj_j2a hrd hrb hv hr h0 h1 h2
  have htwo := two_ne_zero_of_three_lt h3
  obtain ⟨hmul, hni⟩ := representsA_ladderA htwo hb (s.x ra) hq
  have hjac := representsJ_toJacobian hb hq
  obtain ⟨hmul', hni'⟩ := representsA_toAffine (representsJ_ladderJ htwo (s.x ra) hjac)
  rw [State.coeff, hmod] at hrun hrun'
  rw [show canonA (s.xa rb) p = ⟨s.x rb % p, s.x (rb + 1) % p⟩ from rfl] at hrun hrun'
  rw [hjac.canonJ_eq, Prod.ext (hmul'.unique hmul) (hni'.trans hni.symm)] at hrun'
  exact ⟨_, _, hrun, hrun', by simp, rfl, hni⟩

end Sys2Proof.Machine
end

section
/-! Acceptance and completion (30_encoding.md R105; 60_exceptions.md R221 to R227; 70_reset_and_hazards.md R262): a
completion runs the decoded command or answers the first error of R105's check order, and until then no step touches
what the command reads. -/

namespace Sys2Proof.Machine

/-! ### The completion as a step (R226, R262) -/

/-- The completion event runs the word in flight. -/
theorem step_engineDone {s : State} {c : Word} {n : Nat} {rest : List Event} (he : s.engine = .busy c n)
    (hp : s.pending = .engineDone :: rest) : step s = completeWord c { s with pending := rest } := by
  rw [step_cons hp, perform, engineDone_busy (s := { s with pending := rest }) he]

/-- Settles O5: both completion steps run the word in flight, and the word is the command it decodes to. -/
theorem stepRunsDecodedCommand : Obligations.StepRunsDecodedCommand := by
  intro s c n i he hd
  refine ⟨fun rest hp => ?_, fun hp => ?_⟩
  · rw [step_engineDone he hp, completeWord_ok _ hd]
  · rw [step_nil hp, engineDone_busy he, completeWord_ok _ hd]

/-! ### A command's own checks (R105) -/

/-- The check of a command that uses a slot. -/
def slotError (ms : Slot) (s : State) : Option CmdError :=
  if (s.slot ms).v = false then some .modInvalid else none

/-- The two checks of a Montgomery command, in their order. -/
def oddSlotError (ms : Slot) (s : State) : Option CmdError :=
  if (s.slot ms).v = false then some .modInvalid
  else if (s.slot ms).odd = false then some .badMod
  else none

/-- The first error among a decoded command's own checks. -/
def instrError (s : State) : Instr → Option CmdError
  | .nop | .mov .. | .cmp .. | .seta .. => none
  | .modset _ ra => if s.x ra = 0 then some .divZero else none
  | .modadd ms .. | .modsub ms .. | .modmul ms .. | .modred ms .. | .modinv ms .. => slotError ms s
  | .montmul ms .. | .tomont ms .. | .frommont ms .. => oddSlotError ms s
  | .padda .. | .pdbla .. | .pmula .. | .paddj .. | .pdblj .. | .pmulj .. | .a2j .. | .j2a .. => slotError .p s

/-- The result that answers a check order's outcome on `s`: the failed completion with the error, or, where every check
passes, a next state without ERR. -/
inductive Answers (s : State) : Option CmdError → Result → Prop where
  | failed (e : CmdError) : Answers s (some e) (.next (failCmd e s))
  | passed {t : State} (h : t.err = false) : Answers s none (.next t)

theorem Answers.eq_failCmd {s : State} {e : CmdError} {r : Result} (h : Answers s (some e) r) :
    r = .next (failCmd e s) := by
  cases h; rfl

theorem Answers.exists_next {s : State} {r : Result} (h : Answers s none r) : ∃ t, r = .next t ∧ t.err = false := by
  cases h with
  | passed herr => exact ⟨_, rfl, herr⟩

section
variable {s : State} {ms : Slot}

theorem answers_withSlot {k : ModSlot → State} (hk : ∀ m, (k m).err = false) :
    Answers s (slotError ms s) (withSlot ms s k) := by
  cases hv : (s.slot ms).v with
  | true => rw [withSlot_valid k hv, slotError, hv]; exact .passed (hk _)
  | false => rw [withSlot_invalid k hv, slotError, hv]; exact .failed _

theorem answers_withOddSlot {k : ModSlot → State} (hk : ∀ m, (k m).err = false) :
    Answers s (oddSlotError ms s) (withOddSlot ms s k) := by
  cases hv : (s.slot ms).v with
  | false => rw [withOddSlot_invalid k hv, oddSlotError, hv]; exact .failed _
  | true =>
    cases ho : (s.slot ms).odd with
    | false => rw [withOddSlot_even k hv ho, oddSlotError, hv, ho]; exact .failed _
    | true => rw [withOddSlot_odd k hv ho, oddSlotError, hv, ho]; exact .passed (hk _)

/-- With its bases in range a point command has the check of slot P left. -/
theorem answers_withCurve {b : Bool} {k : Nat → Nat → State} (hb : b = true) (hk : ∀ p a, (k p a).err = false) :
    Answers s (slotError .p s) (withCurve b s k) := by
  rw [hb, withCurve, if_pos rfl]
  exact answers_withSlot fun _ => hk _ _

end

/-- Every command answers its own checks. -/
theorem exec_answers {i : Instr} (s : State) (hwf : i.wf = true) : Answers s (instrError s i) (exec i s) := by
  cases i with
  | nop | mov | cmp | seta => exact .passed rfl
  | modset ms ra =>
    by_cases hx : s.x ra = 0
    · rw [exec_modset_zero hx, instrError, if_pos hx]; exact .failed _
    · rw [exec_modset_ne_zero hx, instrError, if_neg hx]; exact .passed rfl
  | modadd | modsub | modmul | modred | modinv =>
    simp only [exec, execModadd, execModsub, execModmul, execModred, execModinv]
    exact answers_withSlot fun _ => rfl
  | montmul | tomont | frommont =>
    simp only [exec, execMontmul, execTomont, execFrommont]
    exact answers_withOddSlot fun _ => rfl
  | padda | pdbla | pmula | paddj | pdblj | pmulj | a2j | j2a =>
    simp only [exec, execPadda, execPdbla, execPmula, execPaddj, execPdblj, execPmulj, execA2j, execJ2a]
    exact answers_withCurve hwf fun _ _ => rfl

/-! ### The check order over words (R105) -/

/-- The slot of the check order, over the fields that the decoder reads. -/
theorem commandSlot_eq (c : Word) :
    commandSlot c = if 0x20 ≤ (fieldOpc c).toNat then .p else slotOfBit (fieldMs c) := by
  rw [commandSlot, ← fieldOpc_toNat, ← fieldMs_toNat]
  cases fieldMs c <;> rfl

/-- The decoder's rejections are the first two errors of the check order. -/
theorem commandError_of_decode_error {c : Word} {e : CmdError} (s : State) (h : decode c = .error e) :
    commandError c s = some e := by
  obtain ⟨hrow, hd⟩ | ⟨r, i, hrow, hd, -⟩ := decode_cases c
  · rw [h] at hd
    cases hd
    simp only [commandError, hrow]
  · rw [h, checked_eq] at hd
    split at hd
    next => cases hd
    next hlegal => cases hd; simp [commandError, hrow, hlegal]

/-- A word that decodes has passed the checks of its fields; those of slot and operand are left. -/
theorem commandError_of_decode_ok {c : Word} {i : Instr} (s : State) (h : decode c = .ok i) :
    commandError c s =
      if 0x10 ≤ (fieldOpc c).toNat ∧ (s.slot (commandSlot c)).v = false then some .modInvalid
      else if (fieldOpc c).toNat = 0x08 ∧ s.x (fieldRa c) = 0 then some .divZero
      else if ((fieldOpc c).toNat = 0x18 ∨ (fieldOpc c).toNat = 0x19 ∨ (fieldOpc c).toNat = 0x1A) ∧
        (s.slot (commandSlot c)).odd = false then some .badMod
      else none := by
  obtain ⟨-, hd⟩ | ⟨r, j, hrow, hd, -⟩ := decode_cases c
  · rw [h] at hd
    cases hd
  · rw [h, checked_eq] at hd
    split at hd
    next hlegal =>
      have hopc : r.opc = (fieldOpc c).toNat := by
        rw [fieldOpc_toNat]
        exact beq_iff_eq.mp (List.find?_some (p := fun q : OpRow => q.opc == wordField c 24 8) hrow)
      simp [commandError, hrow, hlegal, hopc, ← fieldRa_val]
    next => cases hd

/-- The check order on the word of a well-formed command gives that command's own checks: the opcode picks them. -/
theorem commandError_encode {i : Instr} (s : State) (hwf : i.wf = true) :
    commandError (encode i) s = instrError s i := by
  rw [commandError_of_decode_ok s (decode_encode hwf), commandSlot_eq]
  cases i
  all_goals simp [encode, instrError, slotError, oddSlotError]

/-- A completion answers the check order (R226, R227). -/
theorem completeWord_answers (c : Word) (s : State) : Answers s (commandError c s) (completeWord c s) := by
  cases hd : decode c with
  | error e =>
    rw [commandError_of_decode_error s hd, completeWord_error s hd]
    exact .failed e
  | ok i =>
    obtain ⟨rfl, hwf⟩ := encodeInvertsDecode c i hd
    rw [commandError_encode s hwf, completeWord_ok s hd]
    exact exec_answers s hwf

/-- Settles O6: the completion answers the check order, and one without ERR succeeded. -/
theorem commandChecksInOrder : Obligations.CommandChecksInOrder := by
  intro s c n rest he hp
  have hans : Answers { s with pending := rest } (commandError c s) (completeWord c { s with pending := rest }) :=
    completeWord_answers c { s with pending := rest }
  rw [step_engineDone he hp]
  cases hx : commandError c s with
  | some e => exact (hx ▸ hans).eq_failCmd
  | none =>
    obtain ⟨t, ht, herr⟩ := (hx ▸ hans).exists_next
    have hc : Completes { s with pending := rest } t := completeWord_cases ht
    exact ⟨t, ht, hc.busy, hc.done, herr, hc.errcode_of_err herr⟩

/-! ### Between acceptance and completion (R225) -/

/-- What a command in flight reads, kept from `s` to `t`: the word `c`, CMD, registers, slots, `A`, W and FLAGS. -/
structure OperandsKept (c : Word) (s t : State) : Prop where
  inFlight : ∃ m, t.engine = .busy c m
  cmd : t.cmd = s.cmd
  regs : t.regs = s.regs
  slotP : t.slotP = s.slotP
  slotN : t.slotN = s.slotN
  a : t.a = s.a
  width : t.width = s.width
  flags : t.flags = s.flags

/-- Taking an event off `pending` touches no operand. -/
theorem OperandsKept.of_setPending {c : Word} {s t : State} {l : List Event}
    (h : OperandsKept c { s with pending := l } t) : OperandsKept c s t :=
  ⟨h.inFlight, h.cmd, h.regs, h.slotP, h.slotN, h.a, h.width, h.flags⟩

/-- Nor does the bus port's answer. -/
theorem OperandsKept.setReply {c : Word} {s t : State} (h : OperandsKept c s t) (r : BusReply) :
    OperandsKept c s { t with reply := r } :=
  ⟨h.inFlight, h.cmd, h.regs, h.slotP, h.slotN, h.a, h.width, h.flags⟩

section
variable {s t : State} {c : Word} {n : Nat} (he : s.engine = .busy c n)
include he

theorem OperandsKept.refl : OperandsKept c s s := ⟨⟨n, he⟩, rfl, rfl, rfl, rfl, rfl, rfl, rfl⟩

theorem Written.operandsKept {v : Word} (h : Written s v t) (ht : t.busy = true) : OperandsKept c s t := by
  have hb : s.busy = true := (busy_iff s).mpr ⟨c, n, he⟩
  cases h with
  | ignored | dropped | ie | status => exact ⟨⟨n, he⟩, rfl, rfl, rfl, rfl, rfl, rfl, rfl⟩
  | softReset => cases ht
  | accepted hidle => rw [hb] at hidle; cases hidle
  | reg i j hj hidle => rw [hb] at hidle; cases hidle

theorem operandsKept_hostAccess {a : Access} (h : hostAccess a s = .next t) (ht : t.busy = true) :
    OperandsKept c s t := by
  obtain ⟨-, ⟨-, rfl⟩ | ⟨-, -, rfl⟩ | ⟨v, -, -, rfl⟩⟩ := hostAccess_cases h
  · exact (OperandsKept.refl he).setReply _
  · exact (OperandsKept.refl he).setReply _
  · exact ((writeLoc_cases s v _).operandsKept he ht).setReply _

theorem operandsKept_engineWork : OperandsKept c s (engineWork s) := by
  obtain hs | ⟨c', m, d, he', -, -, hs⟩ := engineWork_cases s
  · rw [hs]; exact .refl he
  · rw [he] at he'
    cases he'
    rw [hs]
    exact ⟨⟨n + 1, rfl⟩, rfl, rfl, rfl, rfl, rfl, rfl, rfl⟩

theorem not_busy_of_engineDone (h : engineDone s = .next t) : t.busy = false := by
  rw [engineDone_busy he] at h
  exact (completeWord_cases h).busy

/-- A step that leaves the engine busy is no completion and no reset, and what is left keeps the operands. -/
theorem operandsKept_of_step (h : step s = .next t) (ht : t.busy = true) : OperandsKept c s t := by
  obtain ⟨-, hd⟩ | ⟨e, l, -, ⟨a, -, ha⟩ | ⟨-, rfl⟩ | ⟨-, rfl⟩ | ⟨-, hd⟩⟩ := step_cases h
  · rw [not_busy_of_engineDone he hd] at ht; cases ht
  · exact (operandsKept_hostAccess (s := { s with pending := l }) he ha ht).of_setPending
  · rw [busy_hardReset] at ht; cases ht
  · exact (operandsKept_engineWork (s := { s with pending := l }) he).of_setPending
  · rw [not_busy_of_engineDone (s := { s with pending := l }) he hd] at ht; cases ht

end

/-- Settles O7: the write to CMD as one step, and a step from busy to busy by its events. -/
theorem acceptanceLatchesOperands : Obligations.AcceptanceLatchesOperands := by
  refine ⟨fun s c rest hb hp => ?_, fun s t c n he h ht => ?_⟩
  · rw [step_write_cmd hp, writeCmd_idle (s := { s with pending := rest }) c hb]
    rfl
  · obtain ⟨hword, hcmd, hregs, hP, hN, ha, hwidth, hflags⟩ := operandsKept_of_step he h ht
    exact ⟨hword, hcmd, hregs, hP, hN, ha, hwidth, hflags⟩

end Sys2Proof.Machine
end

section
/-! The two resets and the end of a command (70_reset_and_hazards.md R250 to R253, R262): a command in flight ends only
by its completion or by a reset, and each quiet step brings the completion one event nearer. -/

namespace Sys2Proof.Machine

/-! ### What a reset leaves (R252) -/

theorem resetValues_hardReset (s : State) : ResetValues (hardReset s) :=
  (resetValues_softReset s).setUnread _ _ _ _

/-- The state after reset differs from a soft reset of itself in the slots' hidden constants, which no clause reads. -/
theorem resetValues_reset : ResetValues State.reset :=
  { resetValues_softReset State.reset with }

/-- Settles O26: the values a hardware reset shares with a soft one, and registers reduced to `W` bits. -/
theorem hardwareResetValues : Obligations.HardwareResetValues := by
  refine ⟨resetValues_reset, fun s rest hp => ?_⟩
  refine ⟨_, step_hwReset hp, resetValues_hardReset _, rfl, rfl, rfl, rfl, fun r => ?_⟩
  rw [x_hardReset]
  exact Nat.mod_lt _ (Nat.two_pow_pos _)

/-! ### What ends a command in flight (R253) -/

@[simp] theorem busy_writeReg (i : Reg) (j : Nat) (v : Word) (s : State) : (writeReg i j v s).busy = s.busy := by
  unfold writeReg
  split
  · split <;> rfl
  · rfl

/-- Of the writes while busy only SRST ends the command (R81, R253). -/
theorem busy_busWrite {s : State} {off : Nat} {v : Word} (halign : off % 4 = 0) (hb : s.busy = true)
    (h : ¬ (off = 0x00C ∧ v.getLsbD 1 = true)) : (s.busWrite off v).busy = true := by
  rw [State.busWrite]
  cases hl : Loc.ofOffset off with
  | ctrl =>
    have hv : v.getLsbD 1 = false := Bool.eq_false_iff.mpr fun hv => h ⟨off_of_loc_ctrl halign hl, hv⟩
    exact (congrArg State.busy (writeCtrl_ie s hv)).trans hb
  | cmd => exact (congrArg State.busy (writeCmd_busy v hb)).trans hb
  | regWord i j => exact (busy_writeReg i j v s).trans hb
  | _ => exact hb

theorem busy_hostAccess {a : Access} {s t : State} (hb : s.busy = true) (h : hostAccess a s = .next t)
    (hreset : ¬ IsReset (.access a)) : t.busy = true := by
  obtain ⟨-, ⟨-, rfl⟩ | ⟨-, -, rfl⟩ | ⟨v, hlegal, hk, rfl⟩⟩ := hostAccess_cases h
  · exact hb
  · exact hb
  · obtain ⟨off, size, kind⟩ := a
    simp only [Access.legal, Bool.and_eq_true, decide_eq_true_eq] at hlegal hk
    obtain ⟨rfl, halign⟩ := hlegal
    subst hk
    refine busy_busWrite halign hb fun hsrst => hreset (.inr ?_)
    obtain ⟨rfl, hv⟩ := hsrst
    exact ⟨v, hv, rfl⟩

@[simp] theorem busy_engineWork (s : State) : (engineWork s).busy = s.busy := by
  obtain hs | ⟨c, n, d, he, -, -, hs⟩ := engineWork_cases s <;> rw [hs]
  exact ((busy_iff s).mpr ⟨c, n, he⟩).symm

theorem completes_engineDone {s t : State} (hb : s.busy = true) (h : engineDone s = .next t) : Completes s t := by
  obtain ⟨c, n, he⟩ := (busy_iff s).mp hb
  rw [engineDone_busy he] at h
  exact completeWord_cases h

/-- A step of a busy engine completes the command, resets, or takes another event and stays busy. -/
theorem step_cases_of_busy {s t : State} (hb : s.busy = true) (h : step s = .next t) :
    (∃ l, Completes { s with pending := l } t) ∨
      ∃ e l, s.pending = e :: l ∧ (IsReset e ∨ t.busy = true) := by
  obtain ⟨-, hd⟩ | ⟨e, l, hp, ⟨a, rfl, ha⟩ | ⟨rfl, -⟩ | ⟨-, rfl⟩ | ⟨-, hd⟩⟩ := step_cases h
  · exact .inl ⟨s.pending, completes_engineDone hb hd⟩
  · by_cases hreset : IsReset (.access a)
    · exact .inr ⟨_, l, hp, .inl hreset⟩
    · exact .inr ⟨_, l, hp, .inr (busy_hostAccess (s := { s with pending := l }) hb ha hreset)⟩
  · exact .inr ⟨_, l, hp, .inl (.inl rfl)⟩
  · exact .inr ⟨e, l, hp, .inr ((busy_engineWork _).trans hb)⟩
  · exact .inl ⟨l, completes_engineDone (s := { s with pending := l }) hb hd⟩

/-- Settles O27: the two kinds of write to CTRL as steps, and what is left when a busy step ends the command. -/
theorem softResetKeepsRegisters : Obligations.SoftResetKeepsRegisters := by
  refine ⟨fun s v rest hp => ⟨fun hv => ?_, fun hv => ?_⟩, fun s t hb h ht => ?_⟩
  · rw [step_write_ctrl hp, writeCtrl_softReset _ hv]
    exact ⟨_, rfl, (resetValues_softReset _).setUnread _ _ _ _, rfl, rfl, rfl, rfl, rfl, rfl⟩
  · rw [step_write_ctrl hp, writeCtrl_ie _ hv]
  · obtain ⟨l, hc⟩ | ⟨e, l, hp, he | hbusy⟩ := step_cases_of_busy hb h
    · exact .inl hc.done
    · exact .inr ⟨e, l, hp, he⟩
    · rw [ht] at hbusy; cases hbusy

/-! ### A busy engine completes (R262) -/

theorem Written.pending_eq {s t : State} {v : Word} (h : Written s v t) : t.pending = s.pending := by
  cases h <;> rfl

theorem pending_hostAccess {a : Access} {s t : State} (h : hostAccess a s = .next t) : t.pending = s.pending := by
  obtain ⟨-, ⟨-, rfl⟩ | ⟨-, -, rfl⟩ | ⟨v, -, -, rfl⟩⟩ := hostAccess_cases h
  · rfl
  · rfl
  · exact (writeLoc_cases s v _).pending_eq

theorem pending_engineDone {s t : State} (h : engineDone s = .next t) : t.pending = s.pending := by
  cases hb : s.busy with
  | true => exact (completes_engineDone hb h).commandKeeps.pending
  | false => rw [engineDone_idle ((not_busy_iff s).mp hb)] at h; cases h; rfl

@[simp] theorem pending_engineWork (s : State) : (engineWork s).pending = s.pending := by
  obtain hs | ⟨c, n, d, -, -, -, hs⟩ := engineWork_cases s <;> rw [hs]

/-- Every step takes one event off, and none adds one. -/
theorem pending_of_step {s t : State} (h : step s = .next t) : t.pending = s.pending.tail := by
  obtain ⟨hp, hd⟩ | ⟨e, l, hp, ⟨a, -, ha⟩ | ⟨-, rfl⟩ | ⟨-, rfl⟩ | ⟨-, hd⟩⟩ := step_cases h
  · rw [pending_engineDone hd, hp]; rfl
  · rw [pending_hostAccess ha, hp]; rfl
  · rw [pending_hardReset, hp]; rfl
  · rw [pending_engineWork, hp]; rfl
  · rw [pending_engineDone hd, hp]; rfl

/-- A step stops nowhere while the next event lies in the window. -/
theorem step_next_of_quiet {s : State} (h : ∀ e ∈ s.pending, quietEvent e) : ∃ t, step s = .next t := by
  cases hp : s.pending with
  | nil => rw [step_nil hp]; exact engineDone_next s
  | cons e l =>
    obtain ⟨-, hwindow⟩ := h e (by simp [hp])
    rw [step_cons hp]
    exact perform_next e _ hwindow

/-- Within `n` steps the command in flight in `s` has completed. -/
def CompletesWithin (n : Nat) (s : State) : Prop :=
  ∃ k t, k ≤ n ∧ Sys2Proof.core.run k s = .next t ∧ t.busy = false ∧ t.done = true ∧ t.cmd = s.cmd

/-- A run whose first step answers the next state goes on from it. -/
theorem run_succ_of_step {M : Host.Core} {s t : M.State} (h : M.step s = .next t) (k : Nat) :
    M.run (k + 1) s = M.run k t := by
  rw [Host.Core.run, h]

/-- A step that completes the command is a run of one step. -/
theorem completesWithin_of_completes {s t : State} {l : List Event} (n : Nat) (h : step s = .next t)
    (hc : Completes { s with pending := l } t) : CompletesWithin (n + 1) s :=
  ⟨1, t, Nat.succ_pos n, run_succ_of_step (M := Sys2Proof.core) h 0, hc.busy, hc.done, hc.commandKeeps.cmd⟩

theorem CompletesWithin.of_step {s t : State} {n : Nat} (hn : CompletesWithin n t) (h : step s = .next t)
    (hcmd : t.cmd = s.cmd) : CompletesWithin (n + 1) s := by
  obtain ⟨k, u, hk, hrun, hbusy, hdone, hu⟩ := hn
  exact ⟨k + 1, u, Nat.succ_le_succ hk, (run_succ_of_step (M := Sys2Proof.core) h k).trans hrun, hbusy, hdone,
    hu.trans hcmd⟩

theorem cmd_of_busy_step {s t : State} (hb : s.busy = true) (h : step s = .next t) (ht : t.busy = true) :
    t.cmd = s.cmd := by
  obtain ⟨c, n, he⟩ := (busy_iff s).mp hb
  exact (operandsKept_of_step he h ht).cmd

/-- Settles O9, by induction on the pending events: a step that does not complete leaves one fewer. -/
theorem busyEngineCompletes : Obligations.BusyEngineCompletes := by
  intro s hb hquiet
  change CompletesWithin (s.pending.length + 1) s
  induction hl : s.pending generalizing s with
  | nil =>
    obtain ⟨t, h⟩ := step_next_of_quiet hquiet
    obtain ⟨l, hc⟩ | ⟨e, l, hp, -⟩ := step_cases_of_busy hb h
    · exact completesWithin_of_completes _ h hc
    · rw [hl] at hp; cases hp
  | cons e rest ih =>
    obtain ⟨t, h⟩ := step_next_of_quiet hquiet
    obtain ⟨l, hc⟩ | ⟨e', l, hp, he | ht⟩ := step_cases_of_busy hb h
    · exact completesWithin_of_completes _ h hc
    · obtain ⟨hreset, -⟩ := hquiet e' (by simp [hp])
      exact absurd he hreset
    · have hrest : t.pending = rest := by rw [pending_of_step h, hl]; rfl
      have hquiet' : ∀ e ∈ t.pending, quietEvent e := fun e he =>
        hquiet e (by rw [hl]; exact List.mem_cons_of_mem _ (hrest ▸ he))
      exact (ih t ht hquiet' hrest).of_step h (cmd_of_busy_step hb h ht)

end Sys2Proof.Machine
end
